-- ==== Sys2Proof/Word.lean ====
section
/-! DEFINITION. The word types of SRD-TLC (00_scope.md R10: every value is unsigned, bit 0 is the least significant). -/

namespace Sys2Proof

/-- One byte of sample memory or of a register-write transaction. -/
abbrev Byte := BitVec 8

/-- A 16-bit value: a sample, a mask, a timestamp, a truth table. -/
abbrev Half := BitVec 16

/-- A 32-bit value: a command word, a value on the register port. -/
abbrev Word := BitVec 32

end Sys2Proof
end

