-- ==== Sys2Proof/Syntax.lean ====
section
/-! DEFINITION. The instructions of SRD-TLC: one constructor for each row of spec/opcode_table.json
(the 18 command words of 30_encoding.md R93 and the cluster record of R100), with the operands of R92
as named alternatives. -/

namespace Sys2Proof

/-- A location register, 10_state.md R24; the operands `lr`, `la`, `lb` of R92. -/
inductive LocReg where
  | start
  | stop
  | trig
  | arm
  | iter
  deriving DecidableEq, Repr

/-- A table set, the operand `set` of R92. -/
inductive TableSel where
  | m0d
  | m1d
  | m2d
  deriving DecidableEq, Repr

/-- A primitive, 30_encoding.md R106. -/
inductive Prim where
  | level
  | not
  | rise
  | fall
  | riseFall
  | notRise
  | notFall
  | notRiseFall
  deriving DecidableEq, Repr

/-- A combinator, 30_encoding.md R107. -/
inductive Combinator where
  | and
  | nand
  | or
  | nor
  | xor
  | xnor
  deriving DecidableEq, Repr

/-- An edge channel slot, the operand `slot` of R92. -/
inductive EdgeSlot where
  | slot0
  | slot1
  deriving DecidableEq, Repr

/-- A glue mask, the operand `target` of R92. -/
inductive GlueSel where
  | m3q
  | m3s
  | m4
  deriving DecidableEq, Repr

/-- A cluster record, 30_encoding.md R100: a timestamp and seven stored sample words. The words are
the two bytes of each as a little-endian number; 20_memory.md R69 (`CLUSTER_SAMPLE_ORDER`) is applied
when the record is executed. -/
structure ClusterRecord where
  ts : Half
  w0 : Half
  w1 : Half
  w2 : Half
  w3 : Half
  w4 : Half
  w5 : Half
  w6 : Half
  deriving DecidableEq, Repr

/-- The stored words of events 0 to 6 in that order. -/
def ClusterRecord.words (r : ClusterRecord) : List Half :=
  [r.w0, r.w1, r.w2, r.w3, r.w4, r.w5, r.w6]

/-- The operation set, 30_encoding.md R93 and R100. -/
inductive Instr where
  | sysNop
  | sysReset
  | sysInit
  | locInc (lr : LocReg)
  | locDec (lr : LocReg)
  | locBack (lr : LocReg) (n : Nat)
  | locCmp (la lb : LocReg)
  | locMov (la lb : LocReg)
  | posDecode
  | trgLutgen (set : TableSel)
  | trgFunc (op : Prim) (func : Combinator) (slot : EdgeSlot) (neg : Bool) (target : GlueSel)
  | trgCompile
  | trgXmit
  | trgEval (set : TableSel)
  | decSetup
  | decStep
  | decDeint (k : Nat)
  | decReint (k : Nat)
  | cluster (r : ClusterRecord)
  deriving DecidableEq, Repr

end Sys2Proof
end

