-- ==== Sys2Proof/WellFormed.lean ====
section
/-! DEFINITION. The well-formed instructions: those an encoding of 30_encoding.md R91 and R92 exists
for. Register, table and function codes are named alternatives, so the checks left are the ranges of
the two numeric operands. -/

namespace Sys2Proof

/-- `n` fits its 8-bit field and `k` its 2-bit field (R92). That `k` is also below SPE depends on the
state and is tested when the instruction runs (R94, log 11). -/
def Instr.wf : Instr → Bool
  | .locBack _ n => n < 256
  | .decDeint k => k < 4
  | .decReint k => k < 4
  | .sysNop => true
  | .sysReset => true
  | .sysInit => true
  | .locInc _ => true
  | .locDec _ => true
  | .locCmp _ _ => true
  | .locMov _ _ => true
  | .posDecode => true
  | .trgLutgen _ => true
  | .trgFunc _ _ _ _ _ => true
  | .trgCompile => true
  | .trgXmit => true
  | .trgEval _ => true
  | .decSetup => true
  | .decStep => true
  | .cluster _ => true

end Sys2Proof
end

