-- ==== Sys2Proof/Decode.lean ====
section
/-! DEFINITION. The decoder of the block's two streams (30_encoding.md R90): 32-bit command words
(R91 to R94) and 16-byte cluster records (R100); after it the encoder, written from the same tables.
The decoder is total and rejects by name. -/

namespace Sys2Proof

/-- Why a command word is illegal, 30_encoding.md R94. -/
inductive DecodeError where
  /-- the opcode is not in R93 -/
  | unknownOpcode
  /-- a bit that the format does not name is 1 -/
  | unnamedBit
  /-- an operand field holds a value outside R92 -/
  | badOperand
  deriving DecidableEq, Repr

/-! ## Operand codes, R92, R106, R107 -/

/-- Location register of a 3-bit code (R92); 5, 6 and 7 are illegal (R94). -/
def LocReg.ofCode (c : BitVec 3) : Option LocReg :=
  match c.toNat with
  | 0 => some .start
  | 1 => some .stop
  | 2 => some .trig
  | 3 => some .arm
  | 4 => some .iter
  | _ => none

/-- Code of a location register, R92. -/
def LocReg.code : LocReg → BitVec 3
  | .start => 0
  | .stop => 1
  | .trig => 2
  | .arm => 3
  | .iter => 4

/-- Table set of a 2-bit code (R92); 3 is illegal (R94). -/
def TableSel.ofCode (c : BitVec 2) : Option TableSel :=
  match c.toNat with
  | 0 => some .m0d
  | 1 => some .m1d
  | 2 => some .m2d
  | _ => none

/-- Code of a table set, R92. -/
def TableSel.code : TableSel → BitVec 2
  | .m0d => 0
  | .m1d => 1
  | .m2d => 2

/-- Primitive of a 3-bit code, R106. -/
def Prim.ofCode (c : BitVec 3) : Prim :=
  match c.toNat with
  | 0 => .level
  | 1 => .not
  | 2 => .rise
  | 3 => .fall
  | 4 => .riseFall
  | 5 => .notRise
  | 6 => .notFall
  | _ => .notRiseFall

/-- Code of a primitive, R106. -/
def Prim.code : Prim → BitVec 3
  | .level => 0
  | .not => 1
  | .rise => 2
  | .fall => 3
  | .riseFall => 4
  | .notRise => 5
  | .notFall => 6
  | .notRiseFall => 7

/-- Combinator of a 3-bit code, R107; 6 and 7 are illegal. -/
def Combinator.ofCode (c : BitVec 3) : Option Combinator :=
  match c.toNat with
  | 0 => some .and
  | 1 => some .nand
  | 2 => some .or
  | 3 => some .nor
  | 4 => some .xor
  | 5 => some .xnor
  | _ => none

/-- Code of a combinator, R107. -/
def Combinator.code : Combinator → BitVec 3
  | .and => 0
  | .nand => 1
  | .or => 2
  | .nor => 3
  | .xor => 4
  | .xnor => 5

/-- Edge slot of its bit, R92. -/
def EdgeSlot.ofCode (b : Bool) : EdgeSlot := if b then .slot1 else .slot0

/-- Bit of an edge slot, R92. -/
def EdgeSlot.code : EdgeSlot → Bool
  | .slot0 => false
  | .slot1 => true

/-- Glue mask of a 2-bit code (R92); 3 is illegal (R94). -/
def GlueSel.ofCode (c : BitVec 2) : Option GlueSel :=
  match c.toNat with
  | 0 => some .m3q
  | 1 => some .m3s
  | 2 => some .m4
  | _ => none

/-- Code of a glue mask, R92. -/
def GlueSel.code : GlueSel → BitVec 2
  | .m3q => 0
  | .m3s => 1
  | .m4 => 2

/-! ## The formats, R91 -/

/-- The operand bits a format names, R91. -/
inductive Format where
  | n
  | l
  | ln
  | ll
  | s
  | f
  | k
  deriving DecidableEq, Repr

/-- The mask of the bits 23:0 that a format names, R91. -/
def Format.named : Format → Word
  | .n => 0x00000000
  | .l => 0x00000007
  | .ln => 0x0000FF07
  | .ll => 0x00000077
  | .s => 0x00000003
  | .f => 0x000003FF
  | .k => 0x00000003

/-- The opcode field, bits 31:24 (R91). -/
def opcodeOf (w : Word) : BitVec 8 := w.extractLsb' 24 8

/-- Field `lr` or `la`, bits 2:0. -/
def fieldA (w : Word) : BitVec 3 := w.extractLsb' 0 3
/-- Field `lb`, bits 6:4. -/
def fieldB (w : Word) : BitVec 3 := w.extractLsb' 4 3
/-- Field `n`, bits 15:8. -/
def fieldN (w : Word) : BitVec 8 := w.extractLsb' 8 8
/-- Field `set` or `k`, bits 1:0. -/
def fieldS (w : Word) : BitVec 2 := w.extractLsb' 0 2
/-- Field `func`, bits 5:3. -/
def fieldFunc (w : Word) : BitVec 3 := w.extractLsb' 3 3
/-- Field `target`, bits 9:8. -/
def fieldTarget (w : Word) : BitVec 2 := w.extractLsb' 8 2

/-- A decoded operand field, or the name of the error. -/
def operand {α : Type} (o : Option α) : Except DecodeError α :=
  match o with
  | some a => .ok a
  | none => .error .badOperand

/-- R91: a bit the format does not name must be 0; then the operands are read. -/
def withFormat (fmt : Format) (w : Word) (r : Except DecodeError Instr) :
    Except DecodeError Instr :=
  if w &&& 0x00FFFFFF &&& ~~~ fmt.named = 0 then r else .error .unnamedBit

/-! ## The decoder -/

/-- The command word decoder: opcode map of R93, operands of R92, illegal words of R94. -/
def decodeCommand (w : Word) : Except DecodeError Instr :=
  match (opcodeOf w).toNat with
  | 0x00 => withFormat .n w (.ok .sysNop)
  | 0x01 => withFormat .n w (.ok .sysReset)
  | 0x02 => withFormat .n w (.ok .sysInit)
  | 0x10 => withFormat .l w (do
      let lr ← operand (LocReg.ofCode (fieldA w))
      pure (.locInc lr))
  | 0x11 => withFormat .l w (do
      let lr ← operand (LocReg.ofCode (fieldA w))
      pure (.locDec lr))
  | 0x12 => withFormat .ln w (do
      let lr ← operand (LocReg.ofCode (fieldA w))
      pure (.locBack lr (fieldN w).toNat))
  | 0x13 => withFormat .ll w (do
      let la ← operand (LocReg.ofCode (fieldA w))
      let lb ← operand (LocReg.ofCode (fieldB w))
      pure (.locCmp la lb))
  | 0x14 => withFormat .ll w (do
      let la ← operand (LocReg.ofCode (fieldA w))
      let lb ← operand (LocReg.ofCode (fieldB w))
      pure (.locMov la lb))
  | 0x18 => withFormat .n w (.ok .posDecode)
  | 0x20 => withFormat .s w (do
      let set ← operand (TableSel.ofCode (fieldS w))
      pure (.trgLutgen set))
  | 0x21 => withFormat .f w (do
      let func ← operand (Combinator.ofCode (fieldFunc w))
      let target ← operand (GlueSel.ofCode (fieldTarget w))
      pure (.trgFunc (Prim.ofCode (fieldA w)) func (EdgeSlot.ofCode (w.getLsbD 6))
        (w.getLsbD 7) target))
  | 0x22 => withFormat .n w (.ok .trgCompile)
  | 0x23 => withFormat .n w (.ok .trgXmit)
  | 0x24 => withFormat .s w (do
      let set ← operand (TableSel.ofCode (fieldS w))
      pure (.trgEval set))
  | 0x30 => withFormat .n w (.ok .decSetup)
  | 0x31 => withFormat .n w (.ok .decStep)
  | 0x32 => withFormat .k w (.ok (.decDeint (fieldS w).toNat))
  | 0x33 => withFormat .k w (.ok (.decReint (fieldS w).toNat))
  | _ => .error .unknownOpcode

/-- The 16-bit little-endian value at byte `i` of a list of bytes (20_memory.md R68). -/
def leHalf (bs : List Byte) (i : Nat) : Half := bs.getD (i + 1) 0 ++ bs.getD i 0

/-- The record decoder over bytes, R100: the timestamp at bytes 0 and 1, the word of event `e` at
bytes `2 + 2e` and `3 + 2e`. Every bit pattern is a legal record. -/
def decodeRecordBytes (bs : List Byte) : ClusterRecord where
  ts := leHalf bs 0
  w0 := leHalf bs 2
  w1 := leHalf bs 4
  w2 := leHalf bs 6
  w3 := leHalf bs 8
  w4 := leHalf bs 10
  w5 := leHalf bs 12
  w6 := leHalf bs 14

/-- The 16 bytes of a record seen as one 128-bit number, byte 0 in bits 7:0 (R100). -/
def bytesOfRecord (b : BitVec 128) : List Byte :=
  (List.range 16).map fun i => b.extractLsb' (8 * i) 8

/-- What stands in one of the two streams (R90): a command word or a record. -/
inductive Image where
  | command (w : Word)
  | record (b : BitVec 128)
  deriving DecidableEq, Repr

/-- The decoder of both streams. -/
def decode : Image → Except DecodeError Instr
  | .command w => decodeCommand w
  | .record b => .ok (.cluster (decodeRecordBytes (bytesOfRecord b)))

/-! ## The encoder -/

/-- A field of a word: the value `v` placed at bit `lo`. -/
def place {n : Nat} (v : BitVec n) (lo : Nat) : Word := (v.setWidth 32) <<< lo

/-- The command word of an instruction, R91 to R93. A record has none. -/
def commandWord : Instr → Word
  | .sysNop => 0x00000000
  | .sysReset => 0x01000000
  | .sysInit => 0x02000000
  | .locInc lr => 0x10000000 ||| place lr.code 0
  | .locDec lr => 0x11000000 ||| place lr.code 0
  | .locBack lr n => 0x12000000 ||| place lr.code 0 ||| place (BitVec.ofNat 8 n) 8
  | .locCmp la lb => 0x13000000 ||| place la.code 0 ||| place lb.code 4
  | .locMov la lb => 0x14000000 ||| place la.code 0 ||| place lb.code 4
  | .posDecode => 0x18000000
  | .trgLutgen set => 0x20000000 ||| place set.code 0
  | .trgFunc op func slot neg target =>
      0x21000000 ||| place op.code 0 ||| place func.code 3 |||
        place (BitVec.ofBool slot.code) 6 ||| place (BitVec.ofBool neg) 7 ||| place target.code 8
  | .trgCompile => 0x22000000
  | .trgXmit => 0x23000000
  | .trgEval set => 0x24000000 ||| place set.code 0
  | .decSetup => 0x30000000
  | .decStep => 0x31000000
  | .decDeint k => 0x32000000 ||| place (BitVec.ofNat 2 k) 0
  | .decReint k => 0x33000000 ||| place (BitVec.ofNat 2 k) 0
  | .cluster _ => 0x00000000

/-- The 128-bit number of a record, R100: `ts` in bits 15:0, the word of event `e` in bits
`31 + 16e : 16 + 16e`. -/
def recordBits (r : ClusterRecord) : BitVec 128 :=
  r.w6 ++ r.w5 ++ r.w4 ++ r.w3 ++ r.w2 ++ r.w1 ++ r.w0 ++ r.ts

/-- The encoder of both streams. -/
def encode (i : Instr) : Image :=
  match i with
  | .cluster r => .record (recordBits r)
  | .sysNop => .command (commandWord i)
  | .sysReset => .command (commandWord i)
  | .sysInit => .command (commandWord i)
  | .locInc _ => .command (commandWord i)
  | .locDec _ => .command (commandWord i)
  | .locBack _ _ => .command (commandWord i)
  | .locCmp _ _ => .command (commandWord i)
  | .locMov _ _ => .command (commandWord i)
  | .posDecode => .command (commandWord i)
  | .trgLutgen _ => .command (commandWord i)
  | .trgFunc _ _ _ _ _ => .command (commandWord i)
  | .trgCompile => .command (commandWord i)
  | .trgXmit => .command (commandWord i)
  | .trgEval _ => .command (commandWord i)
  | .decSetup => .command (commandWord i)
  | .decStep => .command (commandWord i)
  | .decDeint _ => .command (commandWord i)
  | .decReint _ => .command (commandWord i)

/-! ## The opcode table's view -/

/-- Match and mask of the row of a command word, R93; a record has no such row (its mask is 0). -/
def opcodeRow : Instr → Word × Word
  | .sysNop => (0x00000000, 0xFFFFFFFF)
  | .sysReset => (0x01000000, 0xFFFFFFFF)
  | .sysInit => (0x02000000, 0xFFFFFFFF)
  | .locInc _ => (0x10000000, 0xFFFFFFF8)
  | .locDec _ => (0x11000000, 0xFFFFFFF8)
  | .locBack _ _ => (0x12000000, 0xFFFF00F8)
  | .locCmp _ _ => (0x13000000, 0xFFFFFF88)
  | .locMov _ _ => (0x14000000, 0xFFFFFF88)
  | .posDecode => (0x18000000, 0xFFFFFFFF)
  | .trgLutgen _ => (0x20000000, 0xFFFFFFFC)
  | .trgFunc _ _ _ _ _ => (0x21000000, 0xFFFFFC00)
  | .trgCompile => (0x22000000, 0xFFFFFFFF)
  | .trgXmit => (0x23000000, 0xFFFFFFFF)
  | .trgEval _ => (0x24000000, 0xFFFFFFFC)
  | .decSetup => (0x30000000, 0xFFFFFFFF)
  | .decStep => (0x31000000, 0xFFFFFFFF)
  | .decDeint _ => (0x32000000, 0xFFFFFFFC)
  | .decReint _ => (0x33000000, 0xFFFFFFFC)
  | .cluster _ => (0, 0)

/-- The stream image of `nbits` bits `w` as spec/opcode_table.json numbers them: up to 32 bits are a
command word (bits above `nbits` are 0), more are a record. -/
def imageOfTable (nbits w : Nat) : Image :=
  if nbits ≤ 32 then .command (BitVec.ofNat 32 (w % 2 ^ nbits))
  else .record (BitVec.ofNat 128 (w % 2 ^ nbits))

/-- The instruction the decoder reads from an instruction whose bits are `w`. -/
def decodeTableWord (nbits w : Nat) : Option Instr :=
  match decode (imageOfTable nbits w) with
  | .ok i => some i
  | .error _ => none

end Sys2Proof
end

