-- ==== Sys2Proof/Config.lean ====
section
/-! DEFINITION. The named constants of 00_scope.md R6 and the open parameters of R8.

The constants are plain numbers. The parameters that R8 leaves open (and those that
93_implementation_defined.md U21 calls parameters) form the record `Params`, carried as data in the
state so that a claim about every state is a claim about every value of them (log 2). -/

namespace Sys2Proof.Config

/-- `ROWS`, R6. -/
def rows : Nat := 32768
/-- `ROW_BYTES`, R6. -/
def rowBytes : Nat := 1024
/-- `CLUSTER_BYTES`, R6. -/
def clusterBytes : Nat := 16
/-- `CLUSTERS_PER_ROW`, R6. -/
def clustersPerRow : Nat := 64
/-- `EVENTS_PER_CLUSTER`, R6. -/
def eventsPerCluster : Nat := 7
/-- `EVENTS_PER_ROW`, R6. -/
def eventsPerRow : Nat := 448
/-- `POS_RESP_LEN`, R6. -/
def posRespLen : Nat := 7
/-- `MAX_EDGE_CHANNELS`, R6. -/
def maxEdgeChannels : Nat := 2
/-- `MAX_EDGE_CHANNELS_FAST`, R6. -/
def maxEdgeChannelsFast : Nat := 1
/-- `ARM_BACK_EVENTS`, R6. -/
def armBackEvents : Nat := 28
/-- `ARM_WINDOW_EVENTS`, R6. -/
def armWindowEvents : Nat := 56
/-- Bytes of sample memory, 20_memory.md R60: `ROWS * ROW_BYTES`. -/
def memBytes : Nat := 33554432

/-- `CLUSTER_SAMPLE_ORDER`, R8 and 20_memory.md R69. -/
inductive SampleOrder where
  | little
  | big
  deriving DecidableEq, Repr

/-- `REFINE_EDGE_MODE`, R8 and 45_refinement.md R276. -/
inductive EdgeMode where
  | any
  | all
  deriving DecidableEq, Repr

/-- The parameters of R8 that one block may fix differently from another (U21). -/
structure Params where
  /-- `FETCH_CHUNK_ROWS`: rows decoded by one DEC.STEP, at least 1. -/
  fetchChunkRows : Nat
  /-- `CLUSTER_SAMPLE_ORDER`. -/
  sampleOrder : SampleOrder
  /-- `REFINE_EDGE_MODE`. -/
  edgeMode : EdgeMode
  /-- `FAST_TIERS`: the tiers at which one edge channel is allowed. -/
  fastTiers : List (BitVec 2)
  /-- `M4_SIMPLE`. -/
  m4Simple : Half
  /-- `PARAMS_SIMPLE`, word 0. -/
  paramSimple0 : Half
  /-- `PARAMS_SIMPLE`, word 1. -/
  paramSimple1 : Half
  /-- `PARAMS_SIMPLE`, word 2. -/
  paramSimple2 : Half
  /-- `REG_TRIGGER_SELECT`. -/
  regTriggerSelect : Byte
  /-- `REG_TRIGGER_SELECT2`. -/
  regTriggerSelect2 : Byte
  /-- `TRGSEL2_LUT_WRITE`, as the mask of its bit. -/
  lutWriteBit : Byte
  /-- `TRGSEL2_RESET`, as the mask of its bit. -/
  resetBit : Byte
  deriving DecidableEq, Repr

/-- The values R8 gives. -/
def Params.default : Params where
  fetchChunkRows := 32
  sampleOrder := .little
  edgeMode := .any
  fastTiers := [1, 2]
  m4Simple := 0xA000
  paramSimple0 := 0x000C
  paramSimple1 := 0
  paramSimple2 := 0
  regTriggerSelect := 1
  regTriggerSelect2 := 2
  lutWriteBit := 0x10
  resetBit := 0x20

/-- What R8 asks of a value of the parameters: a chunk of at least one row. -/
abbrev Params.wf (p : Params) : Prop := 1 ≤ p.fetchChunkRows

end Sys2Proof.Config
end

