-- ==== Sys2Proof/Machine/State.lean ====
section
/-! DEFINITION. The state of SRD-TLC as plain data: the registers of 10_state.md (R20 says they are the
whole state of the block) and, beside them, the environment that 20_memory.md R60 names (sample memory,
host ports, output stream, REGW port). -/

namespace Sys2Proof.Machine

/-! ## The registers -/

/-- A location, 10_state.md R24 and 40_addresser.md R130. `RAW` is the function `Pack` of the three
(R25), so it is not stored a second time (log 7). -/
structure Location where
  row : BitVec 15
  cluster : BitVec 6
  event : BitVec 3
  deriving DecidableEq, Repr

/-- The location (0, 0, 0). -/
def Location.zero : Location := ⟨0, 0, 0⟩

/-- The five location registers, R24. -/
structure Locations where
  start : Location
  stop : Location
  trig : Location
  arm : Location
  iter : Location
  deriving DecidableEq, Repr

/-- `DPHASE`, R28 (3 never occurs, log 12). -/
inductive DPhase where
  | idle
  | ready
  | done
  deriving DecidableEq, Repr

/-- `TPHASE`, R28 (3 never occurs, log 12). -/
inductive TPhase where
  | empty
  | compiled
  | sent
  deriving DecidableEq, Repr

/-- The `SampleInterpreter`: unit D's flags and bookkeeping, R27, R28, R33. -/
structure Decoder where
  /-- `DPHASE` -/
  phase : DPhase
  /-- `ARMED` -/
  armed : Bool
  /-- `MATCHED` -/
  matched : Bool
  /-- `TS_VALID` -/
  tsValid : Bool
  /-- `ARM_VALID` -/
  armValid : Bool
  /-- `LAST_TS` -/
  lastTs : Half
  /-- `LAST_SAMPLE` -/
  lastSample : Half
  /-- `EVT_REMAIN` -/
  evtRemain : BitVec 6
  /-- `LINES_DONE` -/
  linesDone : BitVec 16
  /-- `LINES_TOTAL` -/
  linesTotal : BitVec 16
  /-- `SAMPLES_OUT` -/
  samplesOut : BitVec 64
  /-- `MARKERS_OUT` -/
  markersOut : BitVec 2
  deriving DecidableEq, Repr

/-- The error registers `ERRPEND`, `ERR`, `ERRINFO`, R28 and R29. -/
structure ErrorRegs where
  pending : Bool
  code : BitVec 8
  info : Word
  deriving DecidableEq, Repr

/-- The position response registers, R33. -/
structure PositionRegs where
  posbufLo : BitVec 32
  posbufHi : BitVec 24
  poslen : BitVec 8
  modestat : BitVec 8
  deriving DecidableEq, Repr

/-- The `TriggerSpec`, R34. -/
structure TriggerSpec where
  simpleValue : Half
  simpleMask : Half
  risingMask : Half
  fallingMask : Half
  deriving DecidableEq, Repr

/-- A table set: the four 16-entry tables of R35, one per quad. -/
structure TableSet where
  q0 : Half
  q1 : Half
  q2 : Half
  q3 : Half
  deriving DecidableEq, Repr

/-- A table set of four all-zero tables. -/
def TableSet.zero : TableSet := ⟨0, 0, 0, 0⟩

/-- The `TriggerLUT` with its members of R35. -/
structure LutFile where
  m0d : TableSet
  m1d : TableSet
  m2d : TableSet
  m3q : Half
  m3s : Half
  m4 : Half
  param0 : Half
  param1 : Half
  param2 : Half
  deriving DecidableEq, Repr

/-- Every register of 10_state.md. -/
structure Registers where
  locs : Locations
  dec : Decoder
  errs : ErrorRegs
  pos : PositionRegs
  spec : TriggerSpec
  lut : LutFile
  /-- `TPHASE` -/
  tphase : TPhase
  /-- `CONFIG.TIER`, R30 -/
  config : BitVec 2
  /-- `CAPSTAT`: bit 0 `WRAPPED`, bit 1 `TRIG_VALID`, R32 -/
  capstat : BitVec 2
  x0 : Half
  x1 : Half
  genValue : Half
  genMask : Half
  /-- `EQ` -/
  eqFlag : Bool
  /-- `HIT` -/
  hitFlag : Bool
  deriving DecidableEq, Repr

/-! ## The environment -/

/-- The sample memory as address and byte pairs; its one canonical form is `Memory.wf`. -/
abbrev Memory := List Host.Cell

/-- An item of the output stream, 20_memory.md R65. -/
inductive OutItem where
  | sample (v : Half)
  | trigger
  deriving DecidableEq, Repr

/-- A transaction of the REGW port, 20_memory.md R66. -/
structure RegWrite where
  reg : Byte
  bytes : List Byte
  deriving DecidableEq, Repr

/-- What the environment answers to one `MemRead` of a row, 20_memory.md R64 and R80 (log 4). -/
inductive MemAnswer where
  /-- the bytes the sample memory holds: the contract of 70_reset_and_hazards.md R372 -/
  | memory
  /-- other bytes: the memory changed during the pass (93_implementation_defined.md U12) -/
  | supplied (bytes : List Byte)
  /-- the outcome `IoError` (U13) -/
  | ioError
  deriving DecidableEq, Repr

/-- What the outside issues to the block, one served per step (log 1). -/
inductive Input where
  /-- a command word on the command port, 30_encoding.md R90 -/
  | command (w : Word)
  /-- `RegRead(index)`, 10_state.md R22 -/
  | portRead (index : BitVec 8)
  /-- `RegPortWrite(index, value)`, 10_state.md R22 -/
  | portWrite (index : BitVec 8) (value : Word)
  /-- the capture device stores bytes in the sample memory, 20_memory.md R80 (log 5) -/
  | capture (cells : List Host.Cell)
  deriving DecidableEq, Repr

/-- Everything outside the block that a step reads or appends to, and the parameters of R8. -/
structure Environment where
  /-- the sample memory: addresses strictly rising, no entry equal to 0 (log 3) -/
  mem : Memory
  /-- answers to the coming row reads; none listed means `memory` (log 4) -/
  answers : List MemAnswer
  /-- issued and not yet served, the oldest first (log 1) -/
  inbox : List Input
  /-- the output stream, the newest item first (log 6) -/
  out : List OutItem
  /-- the REGW port, the newest transaction first (log 6) -/
  regw : List RegWrite
  /-- values returned by register-port reads, the newest first (log 6) -/
  replies : List Word
  /-- the parameters of 00_scope.md R8, never changed (log 2) -/
  params : Config.Params
  deriving DecidableEq, Repr

/-- The state of the machine. -/
structure State extends Registers, Environment where
  deriving DecidableEq, Repr

/-- Why the machine stops. No instruction raises one: the errors of the block (60_exceptions.md) are
register effects after which it goes on. -/
inductive Fault where
  /-- A `capture` input names a byte address outside the 33554432 bytes of sample memory
  (20_memory.md R60, R61). Raised by the step that serves the input. Safe: the spec says no such byte
  exists (log 5). -/
  | noSuchAddress (address : Nat)
  deriving DecidableEq, Repr

/-- Why an instruction has no meaning in the model. -/
inductive Refusal where
  /-- The instruction of that mnemonic is not modelled. No arm of `exec` raises it. Safe: nothing is
  claimed of an instruction that is refused. -/
  | notModelled (mnemonic : String)
  deriving DecidableEq, Repr

/-- Every register of 10_state.md at 0, R40: the state of the registers at power-on and after
SYS.RESET. -/
def Registers.zero : Registers where
  locs := ⟨.zero, .zero, .zero, .zero, .zero⟩
  dec := {
    phase := .idle, armed := false, matched := false, tsValid := false, armValid := false,
    lastTs := 0, lastSample := 0, evtRemain := 0, linesDone := 0, linesTotal := 0,
    samplesOut := 0, markersOut := 0 }
  errs := ⟨false, 0, 0⟩
  pos := ⟨0, 0, 0, 0⟩
  spec := ⟨0, 0, 0, 0⟩
  lut := {
    m0d := .zero, m1d := .zero, m2d := .zero, m3q := 0, m3s := 0, m4 := 0,
    param0 := 0, param1 := 0, param2 := 0 }
  tphase := .empty
  config := 0
  capstat := 0
  x0 := 0
  x1 := 0
  genValue := 0
  genMask := 0
  eqFlag := false
  hitFlag := false

/-- The environment around a machine that has just been reset: nothing captured, nothing issued,
nothing emitted; the parameters at the defaults of R8 (log 2, log 3). -/
def Environment.initial : Environment where
  mem := []
  answers := []
  inbox := []
  out := []
  regw := []
  replies := []
  params := Config.Params.default

/-- The machine right after reset, 70_reset_and_hazards.md R360. -/
def State.reset : State := { toRegisters := Registers.zero, toEnvironment := Environment.initial }

/-- The outcome of an instruction or a step. -/
abbrev Outcome := Host.Outcome State Fault Refusal

end Sys2Proof.Machine
end

