-- ==== Sys2Proof/Machine/Ops.lean ====
section
/-! DEFINITION. The shared operations: sample memory and its reads, the three-dimensional addresser,
the output ports, and the one error entry `raise` with its gate and its recovery. -/

namespace Sys2Proof.Machine

/-! ## Sample memory, 20_memory.md -/

/-- The canonical form: addresses strictly rising and inside the memory (R60), no entry equal to what
an unlisted byte reads as (log 3). -/
abbrev Memory.wf (m : Memory) : Prop :=
  m.Pairwise (fun c d => c.1 < d.1) ∧ ∀ c ∈ m, c.2 ≠ 0 ∧ c.1 < Config.memBytes

/-- One byte of sample memory. An unlisted byte reads 0 (DESIGN CHOICE, log 3). -/
def Memory.read : Memory → Nat → Byte
  | [], _ => 0
  | (k, b) :: rest, a => if k = a then b else Memory.read rest a

/-- Store one byte, keeping the canonical form. Only the capture device stores (R63). -/
def Memory.write : Memory → Nat → Byte → Memory
  | [], a, b => if b = 0 then [] else [(a, b)]
  | (k, c) :: rest, a, b =>
      if a < k then (if b = 0 then (k, c) :: rest else (a, b) :: (k, c) :: rest)
      else if a = k then (if b = 0 then rest else (a, b) :: rest)
      else (k, c) :: Memory.write rest a b

/-- Store the bytes listed, in order. -/
def Memory.writeCells (m : Memory) (cells : List Host.Cell) : Memory :=
  cells.foldl (fun m c => m.write c.1 c.2) m

/-- `n` bytes from byte address `addr` on in ascending order, R64. -/
def Memory.bytes (m : Memory) (addr : Nat) : Nat → List Byte
  | 0 => []
  | n + 1 => m.read addr :: Memory.bytes m (addr + 1) n

/-- One row of 1024 bytes, R61 and R64. -/
def Memory.row (m : Memory) (row : BitVec 15) : List Byte :=
  m.bytes (row.toNat * Config.rowBytes) Config.rowBytes

/-- `MemRead` of one row, R64: `none` is the outcome `IoError`. The environment's next answer is used
up; with none listed the memory answers (log 4). -/
def readRow (row : BitVec 15) (s : State) : Option (List Byte) × State :=
  match s.answers with
  | [] => (some (s.mem.row row), s)
  | .memory :: rest => (some (s.mem.row row), { s with answers := rest })
  | .supplied bytes :: rest => (some bytes, { s with answers := rest })
  | .ioError :: rest => (none, { s with answers := rest })

/-- The capture device stores bytes while the block is between steps (R80, log 5). -/
def captureCells (cells : List Host.Cell) (s : State) : Outcome :=
  match cells.find? (fun c => Config.memBytes ≤ c.1) with
  | some c => .fault (.noSuchAddress c.1)
  | none => .next { s with mem := s.mem.writeCells cells }

/-! ## The addresser, 40_addresser.md -/

/-- `Pack`, R133: the raw offset of a location. -/
def Location.pack (l : Location) : BitVec 24 :=
  BitVec.ofNat 24 (l.row.toNat * 512 + l.cluster.toNat * 8 + l.event.toNat)

/-- The three fields of a raw offset, R132. -/
def Location.ofRaw (raw : BitVec 24) : Location where
  row := BitVec.ofNat 15 (raw.toNat / 512)
  cluster := BitVec.ofNat 6 (raw.toNat % 512 / 8)
  event := BitVec.ofNat 3 (raw.toNat % 8)

/-- `v mod RAW_MOD`, R132. -/
def reduceRaw (v : Word) : BitVec 24 := BitVec.ofNat 24 (v.toNat % 2 ^ 24)

/-- A reserved slot, R131: the low three bits are 7. -/
def reservedSlot (raw : BitVec 24) : Bool := raw.toNat % 8 == 7

/-- `BreakDown`, R132; `none` where the rule raises `Protocol.BadLocation`. -/
def breakDown (v : Word) : Option Location :=
  if reservedSlot (reduceRaw v) then none else some (.ofRaw (reduceRaw v))

/-- `Inc`, R134: the next location, circular. -/
def Location.inc (l : Location) : Location :=
  if l.event + 1 = 7 then
    if l.cluster + 1 = 0 then ⟨l.row + 1, 0, 0⟩ else ⟨l.row, l.cluster + 1, 0⟩
  else ⟨l.row, l.cluster, l.event + 1⟩

/-- `Dec`, R135: the previous location, circular. -/
def Location.dec (l : Location) : Location :=
  if l.event ≠ 0 then ⟨l.row, l.cluster, l.event - 1⟩
  else if l.cluster ≠ 0 then ⟨l.row, l.cluster - 1, 6⟩
  else ⟨l.row - 1, 63, 6⟩

/-- `Eq`, R136. -/
def Location.same (a b : Location) : Bool :=
  a.row == b.row && a.cluster == b.cluster && a.event == b.event

/-- `EvIndex`, R137. -/
def Location.evIndex (l : Location) : Nat :=
  l.cluster.toNat * Config.eventsPerCluster + l.event.toNat

/-- `WordAddr`, R138: the byte address of the stored word of an event. -/
def Location.wordAddr (l : Location) : Nat :=
  l.row.toNat * Config.rowBytes + l.cluster.toNat * Config.clusterBytes + 2 * (1 + l.event.toNat)

/-- `TsAddr`, R138: the byte address of a cluster's timestamp. -/
def Location.tsAddr (l : Location) : Nat :=
  l.row.toNat * Config.rowBytes + l.cluster.toNat * Config.clusterBytes

/-- `Back`, R139: at most `n` events back, never past `floor`. -/
def Location.back (floor : Location) : Nat → Location → Location
  | 0, l => l
  | n + 1, l => if l.same floor then l else Location.back floor n l.dec

/-- `ParsePos`, R141: trigger counter. -/
def parseTrig (lo : BitVec 32) : BitVec 24 := lo.extractLsb' 0 24
/-- `ParsePos`, R141: stop counter. -/
def parseStop (lo : BitVec 32) (hi : BitVec 24) : BitVec 24 :=
  hi.extractLsb' 0 16 ++ lo.extractLsb' 24 8
/-- `ParsePos`, R141: status byte. -/
def parseStatus (hi : BitVec 24) : BitVec 8 := hi.extractLsb' 16 8

/-- `Adjust`, R142: the decrement, then the skip of a reserved slot. -/
def adjust (p : BitVec 24) : BitVec 24 :=
  if reservedSlot (p - 1) then p - 1 - 1 else p - 1

/-! ## Output ports, 20_memory.md R65 and R66 -/

/-- `Out(item)`, R65. -/
def emit (item : OutItem) (s : State) : State := { s with out := item :: s.out }

/-- `RegWrite` transactions in the order listed, R66. -/
def transmit (txs : List RegWrite) (s : State) : State := { s with regw := txs.reverse ++ s.regw }

/-! ## Errors, 60_exceptions.md -/

/-- The errors of the block, R322. -/
inductive ErrCode where
  | ioMemRead
  | badLength
  | badLocation
  | tooManyEdges
  | fastEdges
  | badTier
  | illegalCommand
  | sequence
  | badAccess
  deriving DecidableEq, Repr

/-- The codes of R322. -/
def ErrCode.code : ErrCode → BitVec 8
  | .ioMemRead => 0x11
  | .badLength => 0x21
  | .badLocation => 0x22
  | .tooManyEdges => 0x31
  | .fastEdges => 0x32
  | .badTier => 0x33
  | .illegalCommand => 0x51
  | .sequence => 0x52
  | .badAccess => 0x53

/-- Taking an error, R326: the first since the last SYS.INIT or SYS.RESET is recorded, a later one
leaves the record; nothing else happens. -/
def raise (e : ErrCode) (info : Word) (s : State) : State :=
  if s.errs.pending then s else { s with errs := ⟨true, e.code, info⟩ }

/-- Recovery, R329: what SYS.INIT and SYS.RESET do to the error registers. There is no other return
from an error. -/
def clearError (s : State) : State := { s with errs := ⟨false, 0, 0⟩ }

/-- The pending-error gate, R300 and R328: the command is ignored while an error is pending. -/
def gated (body : State → State) (s : State) : State :=
  if s.errs.pending then s else body s

/-- The phase check of R323 on `DPHASE`, behind the gate (R324): `w` is the command word that
`Programming.Sequence` records. -/
def inPhase (ph : DPhase) (w : Word) (body : State → State) (s : State) : State :=
  gated (fun s => if s.dec.phase = ph then body s else raise .sequence w s) s

/-- The phase check of R323 for an operation that writes the lookup-table file, behind the gate. -/
def unlessSent (w : Word) (body : State → State) (s : State) : State :=
  gated (fun s => if s.tphase = .sent then raise .sequence w s else body s) s

end Sys2Proof.Machine
end

