-- ==== Sys2Proof/Machine/Operands.lean ====
section
/-! DEFINITION. The operand forms: how an instruction reads and writes the register an operand names,
the samples-per-event count, the stored sample word and its sub-samples. -/

namespace Sys2Proof.Machine

/-- `LR[n]`, 10_state.md R24. -/
def Locations.get (ls : Locations) : LocReg → Location
  | .start => ls.start
  | .stop => ls.stop
  | .trig => ls.trig
  | .arm => ls.arm
  | .iter => ls.iter

/-- `LR[n] <- l`, R24. -/
def Locations.set (ls : Locations) (r : LocReg) (l : Location) : Locations :=
  match r with
  | .start => { ls with start := l }
  | .stop => { ls with stop := l }
  | .trig => { ls with trig := l }
  | .arm => { ls with arm := l }
  | .iter => { ls with iter := l }

/-- Write of a whole location register, R25. -/
def setLoc (r : LocReg) (l : Location) (s : State) : State := { s with locs := s.locs.set r l }

/-- Table `q` of a table set, R35. -/
def TableSet.get (t : TableSet) (q : Fin 4) : Half :=
  match q with
  | 0 => t.q0
  | 1 => t.q1
  | 2 => t.q2
  | 3 => t.q3

/-- Write of table `q` of a table set, R35. -/
def TableSet.set (t : TableSet) (q : Fin 4) (v : Half) : TableSet :=
  match q with
  | 0 => { t with q0 := v }
  | 1 => { t with q1 := v }
  | 2 => { t with q2 := v }
  | 3 => { t with q3 := v }

/-- The table set an operand `set` names, 30_encoding.md R92. -/
def LutFile.table (f : LutFile) : TableSel → TableSet
  | .m0d => f.m0d
  | .m1d => f.m1d
  | .m2d => f.m2d

/-- Write of the table set an operand `set` names, R92. -/
def LutFile.setTable (f : LutFile) (sel : TableSel) (t : TableSet) : LutFile :=
  match sel with
  | .m0d => { f with m0d := t }
  | .m1d => { f with m1d := t }
  | .m2d => { f with m2d := t }

/-- The glue mask an operand `target` names, R92. -/
def LutFile.glue (f : LutFile) : GlueSel → Half
  | .m3q => f.m3q
  | .m3s => f.m3s
  | .m4 => f.m4

/-- Write of the glue mask an operand `target` names, R92. -/
def LutFile.setGlue (f : LutFile) (g : GlueSel) (v : Half) : LutFile :=
  match g with
  | .m3q => { f with m3q := v }
  | .m3s => { f with m3s := v }
  | .m4 => { f with m4 := v }

/-- Parameter word `i`, R35. -/
def LutFile.param (f : LutFile) (i : Fin 3) : Half :=
  match i with
  | 0 => f.param0
  | 1 => f.param1
  | 2 => f.param2

/-- Write of parameter word `i`, R35. -/
def LutFile.setParam (f : LutFile) (i : Fin 3) (v : Half) : LutFile :=
  match i with
  | 0 => { f with param0 := v }
  | 1 => { f with param1 := v }
  | 2 => { f with param2 := v }

/-- A new lookup-table file: `TPHASE` leaves `EMPTY` (41_trigger_lutgen.md R162, 46_system.md R304). -/
def storeLut (f : LutFile) (s : State) : State :=
  { s with lut := f, tphase := if s.tphase = .empty then .compiled else s.tphase }

/-- `SPE`, 10_state.md R31: `1 << TIER`. -/
def spe (s : State) : Nat := 1 <<< s.config.toNat

/-- A stored word as a sample word in the order `CLUSTER_SAMPLE_ORDER`, 20_memory.md R69. -/
def sampleWord (order : Config.SampleOrder) (w : Half) : Half :=
  match order with
  | .little => w
  | .big => w.extractLsb' 0 8 ++ w.extractLsb' 8 8

/-- `Deint(N, w, k)`, 44_decoder.md R245: bit `i` is bit `N*i + k` of the word. -/
def deint (n : Nat) (w : Half) (k : Nat) : Half :=
  BitVec.ofFnLE fun i : Fin 16 => decide (i.val < 16 / n) && w.getLsbD (n * i.val + k)

/-- `Reint(N, v, k)`, R245, for `k < N`: bit `N*i + k` is bit `i` of `v`, every other bit 0. -/
def reint (n : Nat) (v : Half) (k : Nat) : Half :=
  BitVec.ofFnLE fun b : Fin 16 => decide (b.val % n = k) && v.getLsbD (b.val / n)

end Sys2Proof.Machine
end

