-- ==== Sys2Proof/Machine/Flags.lean ====
section
/-! DEFINITION. The flag computations: `USE_TRIG` and the assembled `STATUS`, the comparisons behind
`HIT` and the trigger match, the checks of a trigger specification. -/

namespace Sys2Proof.Machine

/-- `USE_TRIG`, 10_state.md R28: a trigger is configured. -/
def TriggerSpec.useTrig (p : TriggerSpec) : Bool :=
  p.simpleMask ||| p.risingMask ||| p.fallingMask != 0

/-- `RISING_MASK | FALLING_MASK`, 43_trigger_compile.md R201. -/
def TriggerSpec.edges (p : TriggerSpec) : Half := p.risingMask ||| p.fallingMask

/-- Code of `DPHASE`, R28. -/
def DPhase.code : DPhase → BitVec 2
  | .idle => 0
  | .ready => 1
  | .done => 2

/-- Code of `TPHASE`, R28. -/
def TPhase.code : TPhase → BitVec 2
  | .empty => 0
  | .compiled => 1
  | .sent => 2

/-- `STATUS`, R28: every flag at its bits, 31:12 zero. -/
def status (s : State) : Word :=
  (0 : BitVec 20) ++ BitVec.ofBool s.dec.armValid ++ BitVec.ofBool s.spec.useTrig ++
    BitVec.ofBool s.hitFlag ++ BitVec.ofBool s.eqFlag ++ BitVec.ofBool s.dec.tsValid ++
    BitVec.ofBool s.dec.matched ++ BitVec.ofBool s.dec.armed ++ BitVec.ofBool s.errs.pending ++
    s.tphase.code ++ s.dec.phase.code

/-- `CAPSTAT.WRAPPED`, R32. -/
def wrapped (s : State) : Bool := s.capstat.getLsbD 0
/-- `CAPSTAT.TRIG_VALID`, R32. -/
def trigValid (s : State) : Bool := s.capstat.getLsbD 1

/-- `popcount`, 00_scope.md R10. -/
def popcount (v : Half) : Nat := (List.range 16).countP fun c => v.getLsbD c

/-- `CheckSpec(U)`, 43_trigger_compile.md R202: the error of the first test that fails. -/
def checkSpec (s : State) : Option ErrCode :=
  if popcount s.spec.edges > Config.maxEdgeChannels then some .tooManyEdges
  else if s.config ∈ s.params.fastTiers ∧ popcount s.spec.edges > Config.maxEdgeChannelsFast then
    some .fastEdges
  else none

/-- `LutEval(T, s)`, 41_trigger_lutgen.md R163. -/
def lutEval (t : TableSet) (v : Half) : Bool :=
  t.q0.getLsbD (v.extractLsb' 0 4).toNat && t.q1.getLsbD (v.extractLsb' 4 4).toNat &&
    t.q2.getLsbD (v.extractLsb' 8 4).toNat && t.q3.getLsbD (v.extractLsb' 12 4).toNat

/-- `Match(prev, cur)`, 45_refinement.md R276. -/
def triggerMatch (mode : Config.EdgeMode) (p : TriggerSpec) (prev cur : Half) : Bool :=
  let level := (cur &&& p.simpleMask) == (p.simpleValue &&& p.simpleMask)
  let rise := ~~~ prev &&& cur &&& p.risingMask
  let fall := prev &&& ~~~ cur &&& p.fallingMask
  if p.risingMask ||| p.fallingMask = 0 then level
  else
    match mode with
    | .any => level && (rise ||| fall) != 0
    | .all => level && rise == p.risingMask && fall == p.fallingMask

end Sys2Proof.Machine
end

