-- ==== Sys2Proof/Machine/Refinement.lean ====
section
/-! DEFINITION. The trigger refinement, 45_refinement.md: the hooks DEC.STEP calls. -/

namespace Sys2Proof.Machine

/-- What both places that emit a marker do, R275 and R277: `Out(Trigger)`, count it, set `MATCHED`,
clear `ARMED`. -/
def placeMarker (s : State) : State :=
  { emit .trigger s with
    dec := { s.dec with markersOut := s.dec.markersOut + 1, matched := true, armed := false } }

/-- `BudgetStep()`, R273. -/
def budgetStep (s : State) : State :=
  if s.dec.armed then
    { s with dec := { s.dec with
      evtRemain := s.dec.evtRemain - 1
      armed := s.dec.evtRemain - 1 != 0 } }
  else s

/-- `ArmStep()`, R274. -/
def armStep (s : State) : State :=
  if !s.dec.armed && !s.dec.matched && s.locs.iter.same s.locs.arm then
    { s with dec := { s.dec with
      armed := true
      evtRemain := BitVec.ofNat 6 Config.armWindowEvents } }
  else s

/-- `ForceStep()`, R277. -/
def forceStep (s : State) : State :=
  if !s.dec.matched && s.locs.iter.same s.locs.trig then placeMarker s else s

/-- `LocationCheck()`, R272. -/
def locationCheck (s : State) : State :=
  if s.dec.armValid then forceStep (armStep (budgetStep s)) else s

/-- `SoftwareCheck(prev, v)` with `prev = LAST_SAMPLE`, R275. -/
def softwareCheck (v : Half) (s : State) : State :=
  if s.dec.armed && !s.dec.matched &&
      triggerMatch s.params.edgeMode s.spec s.dec.lastSample v then
    placeMarker s
  else s

end Sys2Proof.Machine
end

