-- ==== Sys2Proof/Machine/Decoder.lean ====
section
/-! DEFINITION. The sample stream decoder, 44_decoder.md: DEC.SETUP, DEC.STEP, DEC.DEINT, DEC.REINT and
the execution of a cluster record. -/

namespace Sys2Proof.Machine

/-! ## Setting up a pass -/

/-- `START` of a pass, R232 and R233. -/
def passStart (s : State) : Location :=
  if wrapped s then ⟨s.locs.stop.row + 1, 0, 0⟩ else .zero

/-- `LINES_TOTAL` of a pass, R232 and R234. -/
def passLines (s : State) : BitVec 16 :=
  if wrapped s then BitVec.ofNat 16 (Config.rows - 1) else s.locs.stop.row.setWidth 16 + 1

/-- `ARM_VALID` of a pass, R232 and R270. -/
def passArmValid (s : State) : Bool := s.spec.useTrig && trigValid s

/-- The arm position of a pass, R271. -/
def passArm (s : State) : Location :=
  if passArmValid s then Location.back (passStart s) Config.armBackEvents s.locs.trig
  else passStart s

/-- What DEC.SETUP does when a pass may be set up, R232. -/
def setupPass (s : State) : State :=
  { s with
    locs := { s.locs with start := passStart s, iter := passStart s, arm := passArm s }
    dec := {
      phase := .ready, armed := false, matched := false, tsValid := false,
      armValid := passArmValid s, lastTs := 0, lastSample := 0, evtRemain := 0,
      linesDone := 0, linesTotal := passLines s, samplesOut := 0, markersOut := 0 } }

/-- `DEC.SETUP`, R232. -/
def execDecSetup (s : State) : Outcome :=
  .next (inPhase .idle (commandWord .decSetup) setupPass s)

/-! ## One cluster record -/

/-- `EmitSample(v)`, R244. -/
def emitSample (v : Half) (s : State) : State :=
  let t := emit (.sample v) (softwareCheck v s)
  { t with dec := { t.dec with lastSample := v, samplesOut := t.dec.samplesOut + 1 } }

/-- The fill samples of a gap, R242: `EmitSample(LAST_SAMPLE)` a number of times. -/
def emitFill : Nat → State → State
  | 0, s => s
  | n + 1, s => emitFill n (emitSample s.dec.lastSample s)

/-- The sub-samples of one word in increasing `k`, R242 and R245. -/
def subSamples (n : Nat) (w : Half) : List Half := (List.range n).map (deint n w)

/-- The samples listed, one after the other. -/
def emitSamples : List Half → State → State
  | [], s => s
  | v :: rest, s => emitSamples rest (emitSample v s)

/-- One event, R242: the location check, its sub-samples, the advance of `ITER`. -/
def runEvent (w : Half) (s : State) : State :=
  let t := emitSamples (subSamples (spe s) (sampleWord s.params.sampleOrder w)) (locationCheck s)
  setLoc .iter t.locs.iter.inc t

/-- The events of the words listed. -/
def runEvents : List Half → State → State
  | [], s => s
  | w :: rest, s => runEvents rest (runEvent w s)

/-- R243: the first cluster of a pass makes its own timestamp the expected one. -/
def expectTs (ts : Half) (s : State) : State :=
  if s.dec.tsValid then s else { s with dec := { s.dec with lastTs := ts, tsValid := true } }

/-- The gap of a cluster, R242: `(ts - LAST_TS) mod TS_MOD`. -/
def gapOf (ts : Half) (s : State) : Nat := (ts - s.dec.lastTs).toNat

/-- `DecodeCluster(b, m)`, R242, on the decoded record. -/
def runRecord (r : ClusterRecord) (m : Nat) (s : State) : State :=
  let t := expectTs r.ts s
  let u := emitFill (gapOf r.ts t * spe t) t
  runEvents (r.words.take m)
    { u with dec := { u.dec with lastTs := r.ts + BitVec.ofNat 16 Config.eventsPerCluster } }

/-- Events of the row at the cursor, R235 and R240. -/
def rowEvents (s : State) : Nat :=
  if !wrapped s && s.dec.linesDone == s.dec.linesTotal - 1 then s.locs.stop.evIndex
  else Config.eventsPerRow

/-- Events the record at the cursor is used for, R241: at most 7, and no more than the row has left
after the clusters before the cursor (log 8). -/
def eventsDue (s : State) : Nat :=
  min Config.eventsPerCluster
    (rowEvents s - Config.eventsPerCluster * s.locs.iter.cluster.toNat)

/-- The cluster record, R242, at the iteration cursor: a record of which no event is due is not
looked at (R241). -/
def execCluster (r : ClusterRecord) (s : State) : Outcome :=
  .next (if eventsDue s = 0 then s else runRecord r (eventsDue s) s)

/-! ## Rows and steps -/

/-- Record `c` of a row buffer, R241. -/
def recordAt (buf : List Byte) (c : Nat) : ClusterRecord :=
  decodeRecordBytes ((buf.drop (Config.clusterBytes * c)).take Config.clusterBytes)

/-- The loop of `DecodeRow`, R241: at most `fuel` clusters from cluster `c` on, `nEv` events left. -/
def decodeClusters (buf : List Byte) : (fuel : Nat) → (c nEv : Nat) → State → State
  | 0, _, _, s => s
  | fuel + 1, c, nEv, s =>
      if nEv = 0 then s
      else decodeClusters buf fuel (c + 1) (nEv - min Config.eventsPerCluster nEv)
        (runRecord (recordAt buf c) (min Config.eventsPerCluster nEv) s)

/-- `DecodeRow(buf, n_ev)`, R241. -/
def decodeRow (buf : List Byte) (nEv : Nat) (s : State) : State :=
  decodeClusters buf Config.clustersPerRow 0 nEv s

/-- The memory row of the next row of the pass, R238. -/
def currentRow (s : State) : BitVec 15 := s.locs.start.row + s.dec.linesDone.setWidth 15

/-- `LINES_DONE <- LINES_DONE + 1`, R240. -/
def rowDone (s : State) : State :=
  { s with dec := { s.dec with linesDone := s.dec.linesDone + 1 } }

/-- The end of DEC.STEP, R240: the pass is `DONE` when its last row is decoded. -/
def finishPass (s : State) : State :=
  if s.dec.linesDone = s.dec.linesTotal then { s with dec := { s.dec with phase := .done } } else s

/-- The loop of DEC.STEP, R240: at most the given number of rows. -/
def decodeRows : Nat → State → State
  | 0, s => finishPass s
  | n + 1, s =>
      if s.dec.linesDone = s.dec.linesTotal then finishPass s
      else
        match readRow (currentRow s) s with
        | (none, t) => raise .ioMemRead ((currentRow s).setWidth 32) t
        | (some buf, t) => decodeRows n (rowDone (decodeRow buf (rowEvents t) t))

/-- `DEC.STEP`, R240. -/
def execDecStep (s : State) : Outcome :=
  .next (inPhase .ready (commandWord .decStep) (fun s => decodeRows s.params.fetchChunkRows s) s)

/-! ## De-interleaving -/

/-- The legality of `k`, 30_encoding.md R94, behind the gate (60_exceptions.md R324). -/
def withSub (w : Word) (k : Nat) (body : State → State) (s : State) : State :=
  gated (fun s => if k < spe s then body s else raise .illegalCommand w s) s

/-- `DEC.DEINT k`, R246. -/
def execDecDeint (k : Nat) (s : State) : Outcome :=
  .next (withSub (commandWord (.decDeint k)) k (fun s => { s with x1 := deint (spe s) s.x0 k }) s)

/-- `DEC.REINT k`, R247. -/
def execDecReint (k : Nat) (s : State) : Outcome :=
  .next (withSub (commandWord (.decReint k)) k
    (fun s => { s with x1 := s.x1 ||| reint (spe s) s.x0 k }) s)

end Sys2Proof.Machine
end

