-- ==== Sys2Proof/Machine/Location.lean ====
section
/-! DEFINITION. The location operations and the position decode, 40_addresser.md R140 to R148. -/

namespace Sys2Proof.Machine

/-- `LOC.INC lr`, R144. -/
def execLocInc (lr : LocReg) (s : State) : Outcome :=
  .next (inPhase .idle (commandWord (.locInc lr)) (fun s => setLoc lr (s.locs.get lr).inc s) s)

/-- `LOC.DEC lr`, R145. -/
def execLocDec (lr : LocReg) (s : State) : Outcome :=
  .next (inPhase .idle (commandWord (.locDec lr)) (fun s => setLoc lr (s.locs.get lr).dec s) s)

/-- `LOC.BACK lr, n`, R146: the floor is `START`. -/
def execLocBack (lr : LocReg) (n : Nat) (s : State) : Outcome :=
  .next (inPhase .idle (commandWord (.locBack lr n))
    (fun s => setLoc lr (Location.back s.locs.start n (s.locs.get lr)) s) s)

/-- `LOC.CMP la, lb`, R147: allowed in every phase. -/
def execLocCmp (la lb : LocReg) (s : State) : Outcome :=
  .next (gated (fun s => { s with eqFlag := (s.locs.get la).same (s.locs.get lb) }) s)

/-- `LOC.MOV la, lb`, R148: `la` is the destination. -/
def execLocMov (la lb : LocReg) (s : State) : Outcome :=
  .next (inPhase .idle (commandWord (.locMov la lb)) (fun s => setLoc la (s.locs.get lb) s) s)

/-- What POS.DECODE does with a response of the right length, R140. -/
def loadPositions (s : State) : State :=
  { s with
    locs := { s.locs with
      trig := .ofRaw (adjust (parseTrig s.pos.posbufLo))
      stop := .ofRaw (adjust (parseStop s.pos.posbufLo s.pos.posbufHi)) }
    pos := { s.pos with modestat := parseStatus s.pos.posbufHi } }

/-- `POS.DECODE`, R140. `BreakDown` cannot fail on an adjusted counter (R142). -/
def execPosDecode (s : State) : Outcome :=
  .next (inPhase .idle (commandWord .posDecode) (fun s =>
    if s.pos.poslen = BitVec.ofNat 8 Config.posRespLen then loadPositions s
    else raise .badLength (s.pos.poslen.setWidth 32) s) s)

end Sys2Proof.Machine
end

