-- ==== Sys2Proof/Machine/System.lean ====
section
/-! DEFINITION. The system operations, 46_system.md. They run also while an error is pending (R328). -/

namespace Sys2Proof.Machine

/-- `SYS.NOP`, R301: no state changes. -/
def execSysNop (s : State) : Outcome := .next s

/-- `SYS.RESET`, R302: every register of 10_state.md to 0; memory and ports untouched. -/
def execSysReset (s : State) : Outcome := .next { s with toRegisters := Registers.zero }

/-- `SYS.INIT`, R303: as SYS.RESET, but `CONFIG`, the trigger specification, `X0`, `X1`, `GEN_VALUE`
and `GEN_MASK` are kept. -/
def execSysInit (s : State) : Outcome :=
  .next { s with
    toRegisters := { Registers.zero with
      config := s.config, spec := s.spec, x0 := s.x0, x1 := s.x1,
      genValue := s.genValue, genMask := s.genMask } }

end Sys2Proof.Machine
end

