-- ==== Sys2Proof/Machine/Trigger.lean ====
section
/-! DEFINITION. The trigger compiler: truth-table generator (41_trigger_lutgen.md), mux tree
(42_trigger_func.md), compile and transmission (43_trigger_compile.md). -/

namespace Sys2Proof.Machine

/-- Table `q` of `BuildLutEntry(value, mask)`, 41_trigger_lutgen.md R161: entry `j` is cleared where a
channel of the quad takes part and asks for another bit than the index has. -/
def lutTable (value mask : Half) (q : Nat) : Half :=
  BitVec.ofFnLE fun j : Fin 16 => (List.range 4).all fun ch =>
    !(mask.getLsbD (4 * q + ch) && value.getLsbD (4 * q + ch) != j.val.testBit ch)

/-- `BuildLutEntry(value, mask)`, R161. -/
def buildLutEntry (value mask : Half) : TableSet :=
  ⟨lutTable value mask 0, lutTable value mask 1, lutTable value mask 2, lutTable value mask 3⟩

/-- `TRG.LUTGEN set`, R162. -/
def execTrgLutgen (set : TableSel) (s : State) : Outcome :=
  .next (unlessSent (commandWord (.trgLutgen set))
    (fun s => storeLut (s.lut.setTable set (buildLutEntry s.genValue s.genMask)) s) s)

/-- `TRG.EVAL set`, R164: allowed in every phase. -/
def execTrgEval (set : TableSel) (s : State) : Outcome :=
  .next (gated (fun s => { s with hitFlag := lutEval (s.lut.table set) s.x0 }) s)

/-- `PrimTable(op)`, 42_trigger_func.md R181: does the primitive hold of previous value `p` and current
value `c`. -/
def primTable (op : Prim) (p c : Bool) : Bool :=
  match op with
  | .level => c
  | .not => !c
  | .rise => !p && c
  | .fall => p && !c
  | .riseFall => p != c
  | .notRise => !(!p && c)
  | .notFall => !(p && !c)
  | .notRiseFall => p == c

/-- The table used, R182 and R184: the transpose with `neg`. -/
def usedTable (op : Prim) (neg : Bool) (p c : Bool) : Bool :=
  if neg then primTable op c p else primTable op p c

/-- `Combine(func, old, bit)`, R183. -/
def combine (func : Combinator) (old bit : Bool) : Bool :=
  match func with
  | .and => old && bit
  | .nand => !(old && bit)
  | .or => old || bit
  | .nor => !(old || bit)
  | .xor => old != bit
  | .xnor => old == bit

/-- The index bit that carries the current value of a slot, R185. -/
def currentBit : EdgeSlot → Nat
  | .slot0 => 0
  | .slot1 => 2

/-- The index bit that carries the previous value of a slot, R185. -/
def previousBit : EdgeSlot → Nat
  | .slot0 => 1
  | .slot1 => 3

/-- `AddTriggerFunction`, R184. -/
def addTriggerFunction (op : Prim) (func : Combinator) (slot : EdgeSlot) (neg : Bool)
    (mask : Half) : Half :=
  BitVec.ofFnLE fun j : Fin 16 => combine func (mask.getLsbD j.val)
    (usedTable op neg (j.val.testBit (previousBit slot))
      (j.val.testBit (currentBit slot)))

/-- `TRG.FUNC op, func, slot, neg, target`, R187. -/
def execTrgFunc (op : Prim) (func : Combinator) (slot : EdgeSlot) (neg : Bool) (target : GlueSel)
    (s : State) : Outcome :=
  .next (unlessSent (commandWord (.trgFunc op func slot neg target))
    (fun s => storeLut
      (s.lut.setGlue target (addTriggerFunction op func slot neg (s.lut.glue target))) s) s)

/-- The table set of one edge channel, 43_trigger_compile.md R204. -/
def channelTable (ch : Nat) : TableSet := buildLutEntry (1 <<< ch) (1 <<< ch)

/-- `M3Q <- AddTriggerFunction(op, OR, slot, 0, M3Q)` where the mask has the channel, R201. -/
def foldEdge (op : Prim) (slot : EdgeSlot) (mask : Half) (ch : Nat) (f : LutFile) : LutFile :=
  if mask.getLsbD ch then { f with m3q := addTriggerFunction op .or slot false f.m3q } else f

/-- One turn of the channel scan of R201; the number is the slot the next channel found takes. -/
def compileChannel (p : TriggerSpec) (acc : LutFile × Nat) (ch : Nat) : LutFile × Nat :=
  if p.edges.getLsbD ch then
    if acc.2 = 0 then
      (foldEdge .fall .slot0 p.fallingMask ch (foldEdge .rise .slot0 p.risingMask ch
        { acc.1 with m0d := channelTable ch, m3q := 0 }), 1)
    else if acc.2 = 1 then
      (foldEdge .fall .slot1 p.fallingMask ch (foldEdge .rise .slot1 p.risingMask ch
        { acc.1 with m1d := channelTable ch }), 2)
    else acc
  else acc

/-- The lookup-table file TRG.COMPILE writes for an accepted specification, R201 and R207. -/
def compileFile (q : Config.Params) (p : TriggerSpec) : LutFile :=
  if p.useTrig then
    ((List.range 16).foldl (compileChannel p)
      ({ m0d := .zero, m1d := .zero, m2d := buildLutEntry p.simpleValue p.simpleMask,
         m3q := 0xFFFF, m3s := 0, m4 := q.m4Simple,
         param0 := q.paramSimple0, param1 := q.paramSimple1, param2 := q.paramSimple2 }, 0)).1
  else Registers.zero.lut

/-- `TRG.COMPILE`, R201. -/
def execTrgCompile (s : State) : Outcome :=
  .next (unlessSent (commandWord .trgCompile) (fun s =>
    match checkSpec s with
    | some e => raise e (s.spec.edges.setWidth 32) s
    | none => { s with lut := compileFile s.params s.spec, tphase := .compiled }) s)

/-- The fifteen tables of the file in the order in which R104 gives them the bits of a word. -/
def LutFile.tables (f : LutFile) : List Half :=
  [f.m0d.q0, f.m0d.q1, f.m0d.q2, f.m0d.q3, f.m1d.q0, f.m1d.q1, f.m1d.q2, f.m1d.q3,
    f.m2d.q0, f.m2d.q1, f.m2d.q2, f.m2d.q3, f.m3q, f.m3s, f.m4]

/-- `LutWord(a)`, R212: bit `b` is entry `a` of table `b`; bit 15 is 0. -/
def lutWord (f : LutFile) (a : Nat) : Half :=
  BitVec.ofFnLE fun b : Fin 16 => (f.tables.getD b.val 0).getLsbD a

/-- A 16-bit value on REGW, 20_memory.md R70: most significant byte first. -/
def regwBytes (w : Half) : List Byte := [w.extractLsb' 8 8, w.extractLsb' 0 8]

/-- The two transactions of LUT address `a`, R210. -/
def lutTransactions (q : Config.Params) (f : LutFile) (a : Nat) : List RegWrite :=
  [⟨q.regTriggerSelect, regwBytes (lutWord f a)⟩,
   ⟨q.regTriggerSelect2, [q.resetBit ||| q.lutWriteBit ||| BitVec.ofNat 8 a]⟩]

/-- The 33 transactions of TRG.XMIT, R210, in the order they are issued. -/
def xmitTransactions (q : Config.Params) (f : LutFile) : List RegWrite :=
  (List.range 16).flatMap (lutTransactions q f) ++
    [⟨q.regTriggerSelect, regwBytes f.param0 ++ regwBytes f.param1 ++ regwBytes f.param2⟩]

/-- `TRG.XMIT`, R210. -/
def execTrgXmit (s : State) : Outcome :=
  .next (gated (fun s =>
    if s.tphase = .compiled then
      { transmit (xmitTransactions s.params s.lut) s with tphase := .sent }
    else raise .sequence (commandWord .trgXmit) s) s)

end Sys2Proof.Machine
end

