-- ==== Sys2Proof/Machine/Dispatch.lean ====
section
/-! DEFINITION. One arm per instruction. -/

namespace Sys2Proof.Machine

def exec (i : Instr) (s : State) : Host.Outcome State Fault Refusal :=
  match i with
  | .sysNop => Sys2Proof.Machine.execSysNop s
  | .sysReset => Sys2Proof.Machine.execSysReset s
  | .sysInit => Sys2Proof.Machine.execSysInit s
  | .locInc lr => Sys2Proof.Machine.execLocInc lr s
  | .locDec lr => Sys2Proof.Machine.execLocDec lr s
  | .locBack lr n => Sys2Proof.Machine.execLocBack lr n s
  | .locCmp la lb => Sys2Proof.Machine.execLocCmp la lb s
  | .locMov la lb => Sys2Proof.Machine.execLocMov la lb s
  | .posDecode => Sys2Proof.Machine.execPosDecode s
  | .trgLutgen set => Sys2Proof.Machine.execTrgLutgen set s
  | .trgFunc op func slot neg target => Sys2Proof.Machine.execTrgFunc op func slot neg target s
  | .trgCompile => Sys2Proof.Machine.execTrgCompile s
  | .trgXmit => Sys2Proof.Machine.execTrgXmit s
  | .trgEval set => Sys2Proof.Machine.execTrgEval set s
  | .decSetup => Sys2Proof.Machine.execDecSetup s
  | .decStep => Sys2Proof.Machine.execDecStep s
  | .decDeint k => Sys2Proof.Machine.execDecDeint k s
  | .decReint k => Sys2Proof.Machine.execDecReint k s
  | .cluster r => Sys2Proof.Machine.execCluster r s

end Sys2Proof.Machine
end

