-- ==== Sys2Proof/Machine/Fetch.lean ====
section
/-! DEFINITION. Taking the next input, the illegal command word, and placing an instruction where a
step takes its next one from. -/

namespace Sys2Proof.Machine

/-- The state with the inputs that wait after the one being served. -/
def withInbox (rest : List Input) (s : State) : State := { s with inbox := rest }

/-- An illegal command word, 30_encoding.md R94 and 46_system.md R300: while an error is pending it is
ignored (the first recorded error is kept, 60_exceptions.md R326). -/
def takeIllegal (w : Word) (s : State) : State := raise .illegalCommand w s

/-- The command word is the next input. -/
def placeCommand (w : Word) (s : State) : State := withInbox (.command w :: s.inbox) s

/-- A pass of one full cluster whose record stands at row 0, cluster 0 of the sample memory, and
DEC.STEP as the next input: the next step decodes exactly that record (log 9). -/
def placeRecord (b : BitVec 128) (s : State) : State :=
  let t := placeCommand (commandWord .decStep) (clearError s)
  { t with
    mem := s.mem.writeCells ((List.range 16).zip (bytesOfRecord b))
    answers := .memory :: s.answers
    capstat := 0
    locs := { s.locs with start := .zero, iter := .zero, stop := ⟨0, 1, 0⟩ }
    dec := { s.dec with phase := .ready, tsValid := false, linesDone := 0, linesTotal := 1 } }

end Sys2Proof.Machine
end

