-- ==== Sys2Proof/Machine/RegPort.lean ====
section
/-! DEFINITION. The register port, 10_state.md R22 and R38, 46_system.md R304. -/

namespace Sys2Proof.Machine

/-- A field of a location register, R24. -/
inductive LocField where
  | raw
  | row
  | cluster
  | event
  deriving DecidableEq, Repr

/-- The registers of the port, R38. -/
inductive PortReg where
  | status
  | err
  | errinfo
  | config
  | spe
  | x0
  | x1
  | capstat
  | simpleValue
  | simpleMask
  | risingMask
  | fallingMask
  | loc (r : LocReg) (f : LocField)
  | lastTs
  | lastSample
  | evtRemain
  | linesDone
  | linesTotal
  | samplesOutLo
  | samplesOutHi
  | markersOut
  | posbufLo
  | posbufHi
  | poslen
  | modestat
  | table (sel : TableSel) (q : Fin 4)
  | glue (g : GlueSel)
  | param (i : Fin 3)
  | genValue
  | genMask
  deriving DecidableEq, Repr

/-- The four indices of a location register, R24. -/
def locPort (r : LocReg) (f : Nat) : PortReg :=
  match f with
  | 0 => .loc r .raw
  | 1 => .loc r .row
  | 2 => .loc r .cluster
  | _ => .loc r .event

/-- The index map, R38; `none` is an unassigned index. -/
def portReg (index : BitVec 8) : Option PortReg :=
  match index.toNat with
  | 0x00 => some .status
  | 0x01 => some .err
  | 0x02 => some .errinfo
  | 0x03 => some .config
  | 0x04 => some .spe
  | 0x05 => some .x0
  | 0x06 => some .x1
  | 0x07 => some .capstat
  | 0x08 => some .simpleValue
  | 0x09 => some .simpleMask
  | 0x0A => some .risingMask
  | 0x0B => some .fallingMask
  | 0x10 => some (locPort .start 0)
  | 0x11 => some (locPort .start 1)
  | 0x12 => some (locPort .start 2)
  | 0x13 => some (locPort .start 3)
  | 0x14 => some (locPort .stop 0)
  | 0x15 => some (locPort .stop 1)
  | 0x16 => some (locPort .stop 2)
  | 0x17 => some (locPort .stop 3)
  | 0x18 => some (locPort .trig 0)
  | 0x19 => some (locPort .trig 1)
  | 0x1A => some (locPort .trig 2)
  | 0x1B => some (locPort .trig 3)
  | 0x1C => some (locPort .arm 0)
  | 0x1D => some (locPort .arm 1)
  | 0x1E => some (locPort .arm 2)
  | 0x1F => some (locPort .arm 3)
  | 0x20 => some (locPort .iter 0)
  | 0x21 => some (locPort .iter 1)
  | 0x22 => some (locPort .iter 2)
  | 0x23 => some (locPort .iter 3)
  | 0x30 => some .lastTs
  | 0x31 => some .lastSample
  | 0x32 => some .evtRemain
  | 0x33 => some .linesDone
  | 0x34 => some .linesTotal
  | 0x35 => some .samplesOutLo
  | 0x36 => some .samplesOutHi
  | 0x37 => some .markersOut
  | 0x38 => some .posbufLo
  | 0x39 => some .posbufHi
  | 0x3A => some .poslen
  | 0x3B => some .modestat
  | 0x40 => some (.table .m0d 0)
  | 0x41 => some (.table .m0d 1)
  | 0x42 => some (.table .m0d 2)
  | 0x43 => some (.table .m0d 3)
  | 0x44 => some (.table .m1d 0)
  | 0x45 => some (.table .m1d 1)
  | 0x46 => some (.table .m1d 2)
  | 0x47 => some (.table .m1d 3)
  | 0x48 => some (.table .m2d 0)
  | 0x49 => some (.table .m2d 1)
  | 0x4A => some (.table .m2d 2)
  | 0x4B => some (.table .m2d 3)
  | 0x4C => some (.glue .m3q)
  | 0x4D => some (.glue .m3s)
  | 0x4E => some (.glue .m4)
  | 0x50 => some (.param 0)
  | 0x51 => some (.param 1)
  | 0x52 => some (.param 2)
  | 0x54 => some .genValue
  | 0x55 => some .genMask
  | _ => none

/-- The value of a field of a location, R24. -/
def Location.field (l : Location) : LocField → Word
  | .raw => l.pack.setWidth 32
  | .row => l.row.setWidth 32
  | .cluster => l.cluster.setWidth 32
  | .event => l.event.setWidth 32

/-- The value the host reads, zero-extended (R22). -/
def portValue (s : State) : PortReg → Word
  | .status => status s
  | .err => s.errs.code.setWidth 32
  | .errinfo => s.errs.info
  | .config => s.config.setWidth 32
  | .spe => (BitVec.ofNat 3 (spe s)).setWidth 32
  | .x0 => s.x0.setWidth 32
  | .x1 => s.x1.setWidth 32
  | .capstat => s.capstat.setWidth 32
  | .simpleValue => s.spec.simpleValue.setWidth 32
  | .simpleMask => s.spec.simpleMask.setWidth 32
  | .risingMask => s.spec.risingMask.setWidth 32
  | .fallingMask => s.spec.fallingMask.setWidth 32
  | .loc r f => (s.locs.get r).field f
  | .lastTs => s.dec.lastTs.setWidth 32
  | .lastSample => s.dec.lastSample.setWidth 32
  | .evtRemain => s.dec.evtRemain.setWidth 32
  | .linesDone => s.dec.linesDone.setWidth 32
  | .linesTotal => s.dec.linesTotal.setWidth 32
  | .samplesOutLo => s.dec.samplesOut.extractLsb' 0 32
  | .samplesOutHi => s.dec.samplesOut.extractLsb' 32 32
  | .markersOut => s.dec.markersOut.setWidth 32
  | .posbufLo => s.pos.posbufLo
  | .posbufHi => s.pos.posbufHi.setWidth 32
  | .poslen => s.pos.poslen.setWidth 32
  | .modestat => s.pos.modestat.setWidth 32
  | .table sel q => ((s.lut.table sel).get q).setWidth 32
  | .glue g => (s.lut.glue g).setWidth 32
  | .param i => (s.lut.param i).setWidth 32
  | .genValue => s.genValue.setWidth 32
  | .genMask => s.genMask.setWidth 32

/-- The column "host write" of R38. -/
def portWritable (s : State) : PortReg → Bool
  | .config => s.dec.phase == .idle && s.tphase == .empty
  | .x0 => true
  | .x1 => true
  | .capstat => s.dec.phase == .idle
  | .simpleValue => s.dec.phase == .idle && s.tphase == .empty
  | .simpleMask => s.dec.phase == .idle && s.tphase == .empty
  | .risingMask => s.dec.phase == .idle && s.tphase == .empty
  | .fallingMask => s.dec.phase == .idle && s.tphase == .empty
  | .loc _ _ => s.dec.phase == .idle
  | .posbufLo => s.dec.phase == .idle
  | .posbufHi => s.dec.phase == .idle
  | .poslen => s.dec.phase == .idle
  | .table _ _ => s.tphase != .sent
  | .glue _ => s.tphase != .sent
  | .param _ => s.tphase != .sent
  | .genValue => true
  | .genMask => true
  | .status => false
  | .err => false
  | .errinfo => false
  | .spe => false
  | .lastTs => false
  | .lastSample => false
  | .evtRemain => false
  | .linesDone => false
  | .linesTotal => false
  | .samplesOutLo => false
  | .samplesOutHi => false
  | .markersOut => false
  | .modestat => false

/-- Host write of a location field, R25 and R304. -/
def storeLoc (r : LocReg) (f : LocField) (v : Word) (s : State) : State :=
  let l := s.locs.get r
  match f with
  | .raw =>
      match breakDown v with
      | some l' => setLoc r l' s
      | none => raise .badLocation ((reduceRaw v).setWidth 32) s
  | .row => setLoc r { l with row := v.setWidth 15 } s
  | .cluster => setLoc r { l with cluster := v.setWidth 6 } s
  | .event =>
      if v.setWidth 3 = (7 : BitVec 3) then raise .badLocation v s
      else setLoc r { l with event := v.setWidth 3 } s

/-- The store of an accepted host write with its effects, R304; a register that is never writable
stores nothing. -/
def storeReg (r : PortReg) (v : Word) (s : State) : State :=
  match r with
  | .config =>
      if v.setWidth 2 = (3 : BitVec 2) then raise .badTier v s
      else { s with config := v.setWidth 2 }
  | .x0 => { s with x0 := v.setWidth 16 }
  | .x1 => { s with x1 := v.setWidth 16 }
  | .capstat => { s with capstat := v.setWidth 2 }
  | .simpleValue => { s with spec := { s.spec with simpleValue := v.setWidth 16 } }
  | .simpleMask => { s with spec := { s.spec with simpleMask := v.setWidth 16 } }
  | .risingMask => { s with spec := { s.spec with risingMask := v.setWidth 16 } }
  | .fallingMask => { s with spec := { s.spec with fallingMask := v.setWidth 16 } }
  | .loc r f => storeLoc r f v s
  | .posbufLo => { s with pos := { s.pos with posbufLo := v } }
  | .posbufHi => { s with pos := { s.pos with posbufHi := v.setWidth 24 } }
  | .poslen => { s with pos := { s.pos with poslen := v.setWidth 8 } }
  | .table sel q => storeLut (s.lut.setTable sel ((s.lut.table sel).set q (v.setWidth 16))) s
  | .glue g => storeLut (s.lut.setGlue g (v.setWidth 16)) s
  | .param i => storeLut (s.lut.setParam i (v.setWidth 16)) s
  | .genValue => { s with genValue := v.setWidth 16 }
  | .genMask => { s with genMask := v.setWidth 16 }
  | .status => s
  | .err => s
  | .errinfo => s
  | .spe => s
  | .lastTs => s
  | .lastSample => s
  | .evtRemain => s
  | .linesDone => s
  | .linesTotal => s
  | .samplesOutLo => s
  | .samplesOutHi => s
  | .markersOut => s
  | .modestat => s

/-- The value returned to the host by a register-port read (log 6). -/
def reply (v : Word) (s : State) : State := { s with replies := v :: s.replies }

/-- `RegRead(index)`, R22: an unassigned index returns 0 and raises `Programming.BadAccess`. -/
def portRead (index : BitVec 8) (s : State) : State :=
  match portReg index with
  | some r => reply (portValue s r) s
  | none => reply 0 (raise .badAccess (index.setWidth 32) s)

/-- `RegPortWrite(index, value)`, R22: ignored while an error is pending; access checks before value
checks (60_exceptions.md R324). -/
def portWrite (index : BitVec 8) (v : Word) (s : State) : State :=
  gated (fun s =>
    match portReg index with
    | some r =>
        if portWritable s r then storeReg r v s else raise .badAccess (index.setWidth 32) s
    | none => raise .badAccess (index.setWidth 32) s) s

end Sys2Proof.Machine
end

