-- ==== Sys2Proof/Machine/Step.lean ====
section
/-! DEFINITION. One step of the machine, 46_system.md R300 and R304: the oldest input is served. -/

namespace Sys2Proof.Machine

/-- One step. With nothing issued the block waits for the host (60_exceptions.md R333, log 1). -/
def step (s : State) : Host.Outcome State Fault Refusal :=
  match s.inbox with
  | [] => .next s
  | .command w :: rest =>
      match decode (.command w) with
      | .ok i => exec i (withInbox rest s)
      | .error _ => .next (takeIllegal w (withInbox rest s))
  | .portRead index :: rest => .next (portRead index (withInbox rest s))
  | .portWrite index v :: rest => .next (portWrite index v (withInbox rest s))
  | .capture cells :: rest => captureCells cells (withInbox rest s)

/-- The instruction of `nbits` bits `w` (numbered as spec/opcode_table.json numbers them) placed where
the next step takes it from: a command word at the head of the inputs, a record in the sample memory
with the pass that decodes it (log 9). -/
def State.withFetchWord (s : State) (nbits w : Nat) : State :=
  match imageOfTable nbits w with
  | .command c => placeCommand c s
  | .record b => placeRecord b s

end Sys2Proof.Machine
end

