-- ==== Sys2Proof/Safety.lean ====
section
/-! DEFINITION. The terms the statements use: what a good state is, when an operation is allowed, what a
legal command word is, and the reference functions the spec gives for reading results
(43_trigger_compile.md R205, 44_decoder.md R249). Nothing here is read by `step`. -/

namespace Sys2Proof.Machine

/-! ## Good states -/

/-- A location, 40_addresser.md R130: the event is 0 to 6. -/
abbrev Location.legal (l : Location) : Prop := l.event ≠ 7

/-- The end location of a pass, 44_decoder.md R234. -/
def passEnd (s : State) : Location :=
  if wrapped s then ⟨s.locs.stop.row, 0, 0⟩ else s.locs.stop

/-- The codes of 60_exceptions.md R322. -/
def errorCodes : List (BitVec 8) := [0x11, 0x21, 0x22, 0x31, 0x32, 0x33, 0x51, 0x52, 0x53]

/-- What every state between two steps satisfies. -/
structure Inv (s : State) : Prop where
  /-- 10_state.md R25: every location register holds a location. -/
  locs_legal : ∀ r, (s.locs.get r).legal
  /-- R30: the reserved tier is never stored. -/
  tier_legal : s.config ≠ 3
  /-- R33: `EVT_REMAIN` is 0 to 56. -/
  budget_bound : s.dec.evtRemain.toNat ≤ 56
  /-- 45_refinement.md R273: checking stops when the budget is used up. -/
  armed_budget : s.dec.armed = true → s.dec.evtRemain ≠ 0
  /-- R275, R277: a match disarms. -/
  armed_unmatched : s.dec.armed = true → s.dec.matched = false
  /-- R270: the refinement takes part only when `ARM_VALID` is set. -/
  armed_valid : s.dec.armed = true → s.dec.armValid = true
  /-- R270, for the marker. -/
  matched_valid : s.dec.matched = true → s.dec.armValid = true
  /-- R279: the marker count is 1 exactly when a marker was emitted. -/
  markers_count : s.dec.markersOut = if s.dec.matched then 1 else 0
  /-- 44_decoder.md R253: at most 32768 rows, and no more are done than the pass has. -/
  lines_bound : s.dec.linesDone.toNat ≤ s.dec.linesTotal.toNat ∧ s.dec.linesTotal.toNat ≤ 32768
  /-- R230: without a pass the bookkeeping is as SYS.INIT left it. -/
  idle_decoder : s.dec.phase = .idle → s.dec = Registers.zero.dec
  /-- R232: the inputs of a pass are frozen while it lasts. -/
  pass_shape : s.dec.phase ≠ .idle → s.locs.start = passStart s ∧ s.dec.linesTotal = passLines s
  /-- 10_state.md R27: between steps of a pass the cursor is at the start of the next row. -/
  ready_cursor : s.dec.phase = .ready →
    s.dec.linesDone ≠ s.dec.linesTotal ∧ s.locs.iter = ⟨currentRow s, 0, 0⟩
  /-- R249: a completed pass has its cursor at `End`. -/
  done_cursor : s.dec.phase = .done →
    s.dec.linesDone = s.dec.linesTotal ∧ s.locs.iter = passEnd s
  /-- 43_trigger_compile.md R200: an `EMPTY` file is all zero. -/
  empty_file : s.tphase = .empty → s.lut = Registers.zero.lut
  /-- 10_state.md R29: without an error `ERR` and `ERRINFO` are 0. -/
  no_error : s.errs.pending = false → s.errs.code = 0 ∧ s.errs.info = 0
  /-- R29: a pending error has one of the codes of R322. -/
  error_code : s.errs.pending = true → s.errs.code ∈ errorCodes
  /-- The sample memory is in its canonical form (log 3). -/
  mem_wf : Memory.wf s.mem
  /-- 00_scope.md R8: a chunk is at least one row. -/
  params_wf : s.params.wf

/-! ## Which operation is allowed -/

/-- The column "allowed when" of 60_exceptions.md R323. -/
def allowed (i : Instr) (s : State) : Bool :=
  match i with
  | .locInc _ => s.dec.phase == .idle
  | .locDec _ => s.dec.phase == .idle
  | .locBack _ _ => s.dec.phase == .idle
  | .locMov _ _ => s.dec.phase == .idle
  | .posDecode => s.dec.phase == .idle
  | .decSetup => s.dec.phase == .idle
  | .decStep => s.dec.phase == .ready
  | .trgLutgen _ => s.tphase == .empty || s.tphase == .compiled
  | .trgFunc _ _ _ _ _ => s.tphase == .empty || s.tphase == .compiled
  | .trgCompile => s.tphase == .empty || s.tphase == .compiled
  | .trgXmit => s.tphase == .compiled
  | .sysNop => true
  | .sysReset => true
  | .sysInit => true
  | .locCmp _ _ => true
  | .trgEval _ => true
  | .decDeint _ => true
  | .decReint _ => true
  | .cluster _ => true

/-- The state with the oldest input served and nothing else changed. -/
def served (s : State) : State := { s with inbox := s.inbox.tail }

/-- The state after the first error of code `code` with value `info` (60_exceptions.md R326). -/
def recorded (code : BitVec 8) (info : Word) (s : State) : State :=
  { s with errs := ⟨true, code, info⟩ }

/-- A row of the opcode map with the ranges of its operand fields: a legal command word satisfies one
(30_encoding.md R93 with R92), as arithmetic on the word's number. -/
def legalWord (w : Nat) : Prop :=
  w = 0x00000000 ∨ w = 0x01000000 ∨ w = 0x02000000 ∨
  (∃ lr, lr ≤ 4 ∧ w = 0x10000000 + lr) ∨
  (∃ lr, lr ≤ 4 ∧ w = 0x11000000 + lr) ∨
  (∃ lr n, lr ≤ 4 ∧ n ≤ 255 ∧ w = 0x12000000 + 256 * n + lr) ∨
  (∃ la lb, la ≤ 4 ∧ lb ≤ 4 ∧ w = 0x13000000 + 16 * lb + la) ∨
  (∃ la lb, la ≤ 4 ∧ lb ≤ 4 ∧ w = 0x14000000 + 16 * lb + la) ∨
  w = 0x18000000 ∨
  (∃ set, set ≤ 2 ∧ w = 0x20000000 + set) ∨
  (∃ op func slot neg target, op ≤ 7 ∧ func ≤ 5 ∧ slot ≤ 1 ∧ neg ≤ 1 ∧ target ≤ 2 ∧
    w = 0x21000000 + 256 * target + 128 * neg + 64 * slot + 8 * func + op) ∨
  w = 0x22000000 ∨ w = 0x23000000 ∨
  (∃ set, set ≤ 2 ∧ w = 0x24000000 + set) ∨
  w = 0x30000000 ∨ w = 0x31000000 ∨
  (∃ k, k ≤ 3 ∧ w = 0x32000000 + k) ∨
  (∃ k, k ≤ 3 ∧ w = 0x33000000 + k)

/-- 30_encoding.md R94: illegal as a word, or a sub-sample index that is not below SPE. -/
def illegalIn (s : State) (w : Word) : Prop :=
  ¬ legalWord w.toNat ∨
    ∃ k, k ≤ 3 ∧ spe s ≤ k ∧ (w.toNat = 0x32000000 + k ∨ w.toNat = 0x33000000 + k)

/-! ## Locations as event numbers -/

/-- The number of events from (0, 0, 0) to a location, 40_addresser.md R130 and R137. -/
def Location.position (l : Location) : Nat := l.row.toNat * Config.eventsPerRow + l.evIndex

/-- The number of locations, R130. -/
def locationCount : Nat := Config.rows * Config.eventsPerRow

/-- How many events back from `l` the location `floor` is met, in a circular memory. -/
def distanceBack (floor l : Location) : Nat :=
  (l.position + locationCount - floor.position) % locationCount

/-! ## What the compiled file means -/

/-- The glue index of 43_trigger_compile.md R205. -/
def glueIndex (f : LutFile) (prev cur : Half) : Nat :=
  (lutEval f.m0d cur).toNat + 2 * (lutEval f.m0d prev).toNat + 4 * (lutEval f.m1d cur).toNat +
    8 * (lutEval f.m1d prev).toNat

/-- `CompiledMatch(prev, cur)`, R205. -/
def compiledMatch (f : LutFile) (prev cur : Half) : Bool :=
  lutEval f.m2d cur && f.m3q.getLsbD (glueIndex f prev cur)

/-- The channels a mask names. -/
def channels (m : Half) : Finset (Fin 16) := Finset.univ.filter fun c => m.getLsbD c.val = true

/-- The image of a primitive for a slot and a `neg` value, the table of 42_trigger_func.md R186. -/
def primitiveImage (op : Prim) (slot : EdgeSlot) (neg : Bool) : Half :=
  match op, slot, neg with
  | .level, .slot0, false => 0xAAAA
  | .level, .slot1, false => 0xF0F0
  | .level, .slot0, true => 0xCCCC
  | .level, .slot1, true => 0xFF00
  | .not, .slot0, false => 0x5555
  | .not, .slot1, false => 0x0F0F
  | .not, .slot0, true => 0x3333
  | .not, .slot1, true => 0x00FF
  | .rise, .slot0, false => 0x2222
  | .rise, .slot1, false => 0x00F0
  | .rise, .slot0, true => 0x4444
  | .rise, .slot1, true => 0x0F00
  | .fall, .slot0, false => 0x4444
  | .fall, .slot1, false => 0x0F00
  | .fall, .slot0, true => 0x2222
  | .fall, .slot1, true => 0x00F0
  | .riseFall, .slot0, _ => 0x6666
  | .riseFall, .slot1, _ => 0x0FF0
  | .notRise, .slot0, false => 0xDDDD
  | .notRise, .slot1, false => 0xFF0F
  | .notRise, .slot0, true => 0xBBBB
  | .notRise, .slot1, true => 0xF0FF
  | .notFall, .slot0, false => 0xBBBB
  | .notFall, .slot1, false => 0xF0FF
  | .notFall, .slot0, true => 0xDDDD
  | .notFall, .slot1, true => 0xFF0F
  | .notRiseFall, .slot0, _ => 0x9999
  | .notRiseFall, .slot1, _ => 0xF00F

/-- The glue mask of the edge part by the masks that hold the channel of each slot, the table of
43_trigger_compile.md R204: `r0` and `f0` for a rising and a falling edge on slot 0, `r1` and `f1` on
slot 1. A slot 1 without slot 0 does not occur. -/
def edgeGlue (r0 f0 r1 f1 : Bool) : Half :=
  match r0, f0, r1, f1 with
  | false, false, _, _ => 0xFFFF
  | true, false, false, false => 0x2222
  | false, true, false, false => 0x4444
  | true, true, false, false => 0x6666
  | true, false, true, false => 0x22F2
  | true, false, false, true => 0x2F22
  | true, false, true, true => 0x2FF2
  | false, true, true, false => 0x44F4
  | false, true, false, true => 0x4F44
  | false, true, true, true => 0x4FF4
  | true, true, true, false => 0x66F6
  | true, true, false, true => 0x6F66
  | true, true, true, true => 0x6FF6

/-- `Match(prev, cur)` of 45_refinement.md R276, channel by channel: every channel of `SIMPLE_MASK` has
its level; and no edge channel is configured, or one of them has its edge (mode `any`), or each of them
has every edge configured for it (mode `all`). -/
def matchesSpec (mode : Config.EdgeMode) (p : TriggerSpec) (prev cur : Half) : Bool :=
  (List.range 16).all (fun c =>
    !p.simpleMask.getLsbD c || cur.getLsbD c == p.simpleValue.getLsbD c) &&
  ((List.range 16).all (fun c => !p.risingMask.getLsbD c && !p.fallingMask.getLsbD c) ||
    match mode with
    | .any => (List.range 16).any fun c =>
        (p.risingMask.getLsbD c && !prev.getLsbD c && cur.getLsbD c) ||
          (p.fallingMask.getLsbD c && prev.getLsbD c && !cur.getLsbD c)
    | .all => (List.range 16).all fun c =>
        (!p.risingMask.getLsbD c || (!prev.getLsbD c && cur.getLsbD c)) &&
          (!p.fallingMask.getLsbD c || (prev.getLsbD c && !cur.getLsbD c)))

/-! ## The register port by number -/

/-- The assigned indices of 10_state.md R38 with the value each reads. -/
def portTable (s : State) : List (Nat × Nat) :=
  [(0x00, (status s).toNat), (0x01, s.errs.code.toNat), (0x02, s.errs.info.toNat),
    (0x03, s.config.toNat), (0x04, 2 ^ s.config.toNat % 8), (0x05, s.x0.toNat), (0x06, s.x1.toNat),
    (0x07, s.capstat.toNat), (0x08, s.spec.simpleValue.toNat), (0x09, s.spec.simpleMask.toNat),
    (0x0A, s.spec.risingMask.toNat), (0x0B, s.spec.fallingMask.toNat)] ++
  locationTable 0x10 s.locs.start ++ locationTable 0x14 s.locs.stop ++
  locationTable 0x18 s.locs.trig ++ locationTable 0x1C s.locs.arm ++ locationTable 0x20 s.locs.iter ++
  [(0x30, s.dec.lastTs.toNat), (0x31, s.dec.lastSample.toNat), (0x32, s.dec.evtRemain.toNat),
    (0x33, s.dec.linesDone.toNat), (0x34, s.dec.linesTotal.toNat),
    (0x35, s.dec.samplesOut.toNat % 2 ^ 32), (0x36, s.dec.samplesOut.toNat / 2 ^ 32),
    (0x37, s.dec.markersOut.toNat), (0x38, s.pos.posbufLo.toNat), (0x39, s.pos.posbufHi.toNat),
    (0x3A, s.pos.poslen.toNat), (0x3B, s.pos.modestat.toNat),
    (0x40, s.lut.m0d.q0.toNat), (0x41, s.lut.m0d.q1.toNat), (0x42, s.lut.m0d.q2.toNat),
    (0x43, s.lut.m0d.q3.toNat), (0x44, s.lut.m1d.q0.toNat), (0x45, s.lut.m1d.q1.toNat),
    (0x46, s.lut.m1d.q2.toNat), (0x47, s.lut.m1d.q3.toNat), (0x48, s.lut.m2d.q0.toNat),
    (0x49, s.lut.m2d.q1.toNat), (0x4A, s.lut.m2d.q2.toNat), (0x4B, s.lut.m2d.q3.toNat),
    (0x4C, s.lut.m3q.toNat), (0x4D, s.lut.m3s.toNat), (0x4E, s.lut.m4.toNat),
    (0x50, s.lut.param0.toNat), (0x51, s.lut.param1.toNat), (0x52, s.lut.param2.toNat),
    (0x54, s.genValue.toNat), (0x55, s.genMask.toNat)]
where
  /-- RAW, ROW, CLUSTER and EVENT of one location register from its first index on, R24 and R25. -/
  locationTable (first : Nat) (l : Location) : List (Nat × Nat) :=
    [(first, l.row.toNat * 512 + l.cluster.toNat * 8 + l.event.toNat), (first + 1, l.row.toNat),
      (first + 2, l.cluster.toNat), (first + 3, l.event.toNat)]

/-- The column "host write" of R38, by index. -/
abbrev hostWritable (s : State) (i : Nat) : Prop :=
  i = 0x05 ∨ i = 0x06 ∨ i = 0x54 ∨ i = 0x55 ∨
  (s.dec.phase = .idle ∧ s.tphase = .empty ∧ (i = 0x03 ∨ (0x08 ≤ i ∧ i ≤ 0x0B))) ∨
  (s.dec.phase = .idle ∧ (i = 0x07 ∨ (0x10 ≤ i ∧ i ≤ 0x23) ∨ (0x38 ≤ i ∧ i ≤ 0x3A))) ∨
  (s.tphase ≠ .sent ∧ ((0x40 ≤ i ∧ i ≤ 0x4E) ∨ (0x50 ≤ i ∧ i ≤ 0x52)))

/-- The members of the lookup-table file, 10_state.md R35, by index. -/
def lutIndex (i : Nat) : Bool := (0x40 ≤ i && i ≤ 0x4E) || (0x50 ≤ i && i ≤ 0x52)

/-- The width of a writable register whose write has no check of the value and no second field (all but
`CONFIG` and the location registers), R23, R32 to R35, R37, by index. -/
def plainWidth (i : Nat) : Option Nat :=
  if i = 0x07 then some 2
  else if i = 0x38 then some 32
  else if i = 0x39 then some 24
  else if i = 0x3A then some 8
  else if i = 0x05 ∨ i = 0x06 ∨ (0x08 ≤ i ∧ i ≤ 0x0B) ∨ i = 0x54 ∨ i = 0x55 ∨ lutIndex i = true then
    some 16
  else none

/-! ## The items of a record and of a pass -/

/-- Items that are samples. -/
def OutItem.isSample : OutItem → Bool
  | .sample _ => true
  | .trigger => false

/-- Byte `i` of the sixteen bytes of a record, 30_encoding.md R100. -/
def recordByte (r : ClusterRecord) (i : Nat) : Byte := (recordBits r).extractLsb' (8 * i) 8

/-- `word(e)` in both orders, 20_memory.md R69. -/
def recordWord (order : Config.SampleOrder) (r : ClusterRecord) (e : Nat) : Half :=
  match order with
  | .little => recordByte r (3 + 2 * e) ++ recordByte r (2 + 2 * e)
  | .big => recordByte r (2 + 2 * e) ++ recordByte r (3 + 2 * e)

/-- Sub-sample `k` of a word that holds `n`, 44_decoder.md R245: bit `i` is bit `n*i + k`. -/
def subSample (n : Nat) (w : Half) (k : Nat) : Half :=
  BitVec.ofFnLE fun i : Fin 16 => decide (n * i.val < 16) && w.getLsbD (n * i.val + k)

/-- The samples a record puts on the stream, 44_decoder.md R242: the fill of its gap with the last
sample, then the sub-samples of the first `m` words in order. `expected` is the timestamp the record is
expected to carry (`none` for the first of a pass, R243). -/
def recordSamples (n : Nat) (order : Config.SampleOrder) (expected : Option Half) (last : Half)
    (r : ClusterRecord) (m : Nat) : List Half :=
  List.replicate (((r.ts - expected.getD r.ts).toNat) * n) last ++
    (List.range m).flatMap fun e => (List.range n).map fun k => subSample n (recordWord order r e) k

/-- The timestamp the decoder expects, R243. -/
def expectedTs (s : State) : Option Half := if s.dec.tsValid then some s.dec.lastTs else none

/-- The gap before a record, R242. -/
def recordGap (r : ClusterRecord) (s : State) : Nat := (r.ts - (expectedTs s).getD r.ts).toNat

/-- The samples that the record puts on the stream when it runs on the state. -/
def samplesOf (r : ClusterRecord) (s : State) : List Half :=
  recordSamples (2 ^ s.config.toNat) s.params.sampleOrder (expectedTs s) s.dec.lastSample r (eventsDue s)

/-- The number of a record's samples that come before event `e`. -/
def samplesBefore (r : ClusterRecord) (s : State) (e : Nat) : Nat :=
  (recordGap r s + e) * 2 ^ s.config.toNat

/-- The items of a record with the marker immediately before sample `i`, 45_refinement.md R278. -/
def markedAt (vs : List Half) (i : Nat) : List OutItem :=
  (vs.take i).map .sample ++ .trigger :: (vs.drop i).map .sample

/-! ## The refinement window over the events of a record -/

/-- `l` is the location `e` events after the cursor, in a circular memory. -/
def standsAt (s : State) (l : Location) (e : Nat) : Bool :=
  decide (l.legal ∧ l.position = (s.locs.iter.position + e) % locationCount)

/-- Checking is armed at event `a` (R274): `ARM` is met there while checking is not active, because it
was not or because its budget is used up (R273). -/
def armsAt (s : State) (a : Nat) : Bool :=
  standsAt s s.locs.arm a && (!s.dec.armed || decide (s.dec.evtRemain.toNat ≤ a + 1))

/-- Checking is active at event `e` while no marker was emitted, R273 and R274: the budget the record
found lasts beyond event `e`, or checking was armed at this event or an earlier one of the record. -/
def checksAt (s : State) (e : Nat) : Bool :=
  (s.dec.armed && decide (e + 1 < s.dec.evtRemain.toNat)) || (List.range (e + 1)).any (armsAt s)

/-- `EVT_REMAIN` at event `e` while no marker was emitted: 56 where checking is armed and one less per
event after that; else one less per event than the record found it, or that value where checking was not
active. -/
def budgetAt (s : State) (e : Nat) : Nat :=
  match (List.range (e + 1)).find? (armsAt s) with
  | some a => 56 - (e - a)
  | none => if s.dec.armed then s.dec.evtRemain.toNat - (e + 1) else s.dec.evtRemain.toNat

/-- The event whose explicit samples hold sample `i`, for a sample that is not a fill sample. -/
def eventOf (r : ClusterRecord) (s : State) (i : Nat) : Nat :=
  i / 2 ^ s.config.toNat - recordGap r s

/-- Sample `i` is looked at while no marker was emitted (R272, R275): a fill sample if checking is active
when the record starts, an explicit one if it is active at its event. -/
def checked (r : ClusterRecord) (s : State) (i : Nat) : Bool :=
  if i < samplesBefore r s 0 then s.dec.armed else checksAt s (eventOf r s i)

/-- Sample `i` is a software match while no marker was emitted, R275: it is looked at and matches the
specification against the sample before it, for the first one against `LAST_SAMPLE`. -/
def softwareMatch (r : ClusterRecord) (s : State) (i : Nat) : Bool :=
  checked r s i && matchesSpec s.params.edgeMode s.spec
    ((s.dec.lastSample :: samplesOf r s).getD i 0) ((samplesOf r s).getD i 0)

/-- The records of a row buffer with the events each is used for, R241. -/
def rowRecords (buf : List Byte) (nEv : Nat) : List (ClusterRecord × Nat) :=
  (List.range ((nEv + 6) / 7)).map fun c => (recordAt buf c, min 7 (nEv - 7 * c))

/-- Records executed one after the other as instructions. -/
def execRecords : List ClusterRecord → State → Outcome
  | [], s => .next s
  | r :: rest, s =>
      match exec (.cluster r) s with
      | .next t => execRecords rest t
      | .fault f => .fault f
      | .refused f => .refused f

/-- Row `i` of a pass over the memory, R235 and R238: its records and their events. -/
def passRow (s : State) (i : Nat) : List (ClusterRecord × Nat) :=
  rowRecords (s.mem.row (s.locs.start.row + BitVec.ofNat 15 i))
    (if wrapped s = false ∧ i + 1 = s.dec.linesTotal.toNat then s.locs.stop.evIndex else 448)

/-- Every record of a pass in the order of decoding, R238. -/
def passRecords (s : State) : List (ClusterRecord × Nat) :=
  (List.range s.dec.linesTotal.toNat).flatMap (passRow s)

/-- The sum of the gaps of the records, R242 and R249. -/
def gapSum : Option Half → List (ClusterRecord × Nat) → Nat
  | _, [] => 0
  | expected, (r, _) :: rest =>
      (r.ts - expected.getD r.ts).toNat + gapSum (some (r.ts + 7)) rest

/-- The number of events of a pass, R249. -/
def passEvents (s : State) : Nat :=
  if wrapped s then (Config.rows - 1) * Config.eventsPerRow
  else s.locs.stop.row.toNat * Config.eventsPerRow + s.locs.stop.evIndex

/-- A chunk of another size, 44_decoder.md R250. -/
def withChunk (n : Nat) (s : State) : State :=
  { s with params := { s.params with fetchChunkRows := n } }

end Sys2Proof.Machine
end

