-- ==== Sys2Proof/Certificates/Slice0/Obligations.lean ====
section
/-! DEFINITION. The statements for the provers, family by family. Each docstring cites the rule of spec/
the statement formalises. A next state written as a record of the old one is the whole frame: every
register, every flag, every byte of memory and every port not named in it is unchanged. -/

open Sys2Proof Sys2Proof.Machine

/-! ## Encoding -/

/-- 30_encoding.md R91 to R93, R100: decoding an encoded well-formed instruction gives it back, with
every operand at every value its field admits. -/
def Obligations.DecodeOfEncodeIsIdentity : Prop :=
  ∀ i : Instr, i.wf = true → decode (encode i) = .ok i

/-- R91 to R93, R100: what decodes is the encoding of a well-formed instruction, so every bit pattern
has at most one meaning. -/
def Obligations.EncodeOfDecodeIsIdentity : Prop :=
  ∀ (image : Image) (i : Instr), decode image = .ok i → i.wf = true ∧ encode i = image

/-- R93 with R92, R94: the words that decode are the rows of the opcode map with their operand fields in
range, and no others. -/
def Obligations.DecodedWordsAreTheOpcodeMap : Prop :=
  ∀ w : Word, (∃ i, decodeCommand w = .ok i) ↔ legalWord w.toNat

/-- 95_test_vectors.md 2.1: words of several families decode to the instructions they stand for, and
words it lists as illegal do not decode. -/
def Obligations.ListedWordsDecode : Prop :=
  decodeCommand 0x12001C03 = .ok (.locBack .arm 28) ∧
  decodeCommand 0x13000024 = .ok (.locCmp .iter .trig) ∧
  decodeCommand 0x210002AB = .ok (.trgFunc .fall .xnor .slot0 true .m4) ∧
  decodeCommand 0x210001E7 = .ok (.trgFunc .notRiseFall .xor .slot1 true .m3s) ∧
  decodeCommand 0x33000003 = .ok (.decReint 3) ∧
  decodeCommand 0x13000054 = .error .badOperand ∧
  decodeCommand 0x21000400 = .error .unnamedBit ∧
  decodeCommand 0x03000000 = .error .unknownOpcode

/-! ## Steps -/

/-- 46_system.md R300: a step whose next input is a legal command word runs the instruction it decodes
to, on the state with that input served. -/
def Obligations.StepRunsTheDecodedCommand : Prop :=
  ∀ (s : State) (w : Word) (rest : List Input) (i : Instr),
    s.inbox = .command w :: rest → decodeCommand w = .ok i →
    step s = exec i (served s) ∧ (served s).inbox = rest

/-- The model's reading (log 9) of 44_decoder.md R240 and R241: the record placed by the fetch interface
is the one the next step decodes, with its seven events, on a machine that has just been reset. -/
def Obligations.StepRunsThePlacedRecord : Prop :=
  ∀ (r : ClusterRecord) (n : Nat), encode (.cluster r) = .record (BitVec.ofNat 128 n) →
    ∃ t, step (State.reset.withFetchWord 128 n) = .next t ∧
      t.out.reverse = r.words.map OutItem.sample ∧ t.dec.lastTs = r.ts + 7 ∧
      t.locs.iter = ⟨0, 1, 0⟩ ∧ t.dec.phase = .done ∧ t.errs.pending = false

/-- 30_encoding.md R94: an illegal command word changes no state other than the error registers and
raises `Programming.IllegalCommand` with the word as its value. -/
def Obligations.IllegalCommandIsRecorded : Prop :=
  ∀ (s : State) (w : Word) (rest : List Input),
    s.inbox = .command w :: rest → s.errs.pending = false → illegalIn s w →
    step s = .next (recorded 0x51 w (served s))

/-- 60_exceptions.md R328: while an error is pending every command word but the three legal system
words and every register-port write is ignored, every read works as usual, and a read of an unassigned
index returns 0 and records nothing. -/
def Obligations.PendingErrorGate : Prop :=
  ∀ (s : State) (x : Input) (rest : List Input),
    s.inbox = x :: rest → s.errs.pending = true →
    (∀ w, x = .command w → w ≠ 0x00000000 → w ≠ 0x01000000 → w ≠ 0x02000000 →
      step s = .next (served s)) ∧
    (∀ index v, x = .portWrite index v → step s = .next (served s)) ∧
    (∀ index, x = .portRead index →
      step s = .next (reply
        (match portReg index with
          | some r => portValue s r
          | none => 0) (served s)))

/-- R323: which operation is allowed when. The operations of the table's first row never raise
`Programming.Sequence`; the others raise it, with the command word as its value and nothing else changed,
exactly in the phases the table excludes. -/
def Obligations.SequenceErrorsByPhase : Prop :=
  ∀ (i : Instr) (s : State), (∀ r, i ≠ .cluster r) → s.errs.pending = false →
    (allowed i s = false → exec i s = .next (recorded 0x52 (commandWord i) s)) ∧
    (allowed i s = true → ∀ t, exec i s = .next t →
      ¬ (t.errs.pending = true ∧ t.errs.code = 0x52))

/-- R321: a step that raises an error other than `Io.MemRead` has changed no register other than the
error registers, and has neither emitted nor transmitted anything. -/
def Obligations.ErrorsArePrecise : Prop :=
  ∀ s t : State, step s = .next t → s.errs.pending = false → t.errs.pending = true →
    t.errs.code ≠ 0x11 →
    t.toRegisters = { s.toRegisters with errs := t.errs } ∧
      t.mem = s.mem ∧ t.out = s.out ∧ t.regw = s.regw

/-- R326, R329: the recorded error stays until a step serves SYS.INIT or SYS.RESET, and either clears
it. -/
def Obligations.FirstErrorIsKept : Prop :=
  ∀ s t : State, step s = .next t → s.errs.pending = true →
    if s.inbox.head? = some (.command 0x01000000) ∨ s.inbox.head? = some (.command 0x02000000) then
      t.errs = ⟨false, 0, 0⟩
    else t.errs = s.errs

/-- No instruction stops: whatever the state, every instruction answers a next state
(46_system.md R300: a step always terminates; the errors of 60_exceptions.md R320 to R326 are register
effects). -/
def Obligations.EveryInstructionCompletes : Prop :=
  ∀ (i : Instr) (s : State), ∃ t, exec i s = .next t

/-! ## Invariants and whole-machine rules -/

/-- The machine right after reset is a good state (10_state.md R40, 70_reset_and_hazards.md R360). -/
def Obligations.ResetIsAGoodState : Prop := Inv State.reset

/-- The invariants of 10_state.md R25, R27, R29, R30, R33, 43_trigger_compile.md R200, 44_decoder.md
R230, R249, R253, 45_refinement.md R270, R273, R279 hold after every step from a state in which they
hold. That the memory keeps its canonical form is the model's own (log 3). -/
def Obligations.EveryStepKeepsGoodStates : Prop :=
  ∀ s t : State, Inv s → step s = .next t → Inv t

/-- R360: after reset every register reads 0 through the register port but `SPE`, which reads 1. -/
def Obligations.ResetRegistersReadZero : Prop :=
  ∀ (index : BitVec 8) (r : PortReg), portReg index = some r →
    portValue State.reset r = if index = 0x04 then 1 else 0

/-- 10_state.md R36: once the file is sent, no step but one that serves SYS.INIT or SYS.RESET changes it
or the phase. -/
def Obligations.SentFileIsImmutable : Prop :=
  ∀ s t : State, step s = .next t → s.tphase = .sent →
    s.inbox.head? ≠ some (.command 0x01000000) → s.inbox.head? ≠ some (.command 0x02000000) →
    t.lut = s.lut ∧ t.tphase = .sent

/-- 70_reset_and_hazards.md R370: while the file is not `EMPTY`, or a pass is set up or done, no step but
SYS.RESET changes the trigger specification or `CONFIG`. -/
def Obligations.SpecificationIsFrozen : Prop :=
  ∀ s t : State, step s = .next t → s.tphase ≠ .empty ∨ s.dec.phase ≠ .idle →
    s.inbox.head? ≠ some (.command 0x01000000) →
    t.spec = s.spec ∧ t.config = s.config

/-- 20_memory.md R60, R63, R65, R66: the block never writes the sample memory; the output stream is only
appended to, and by DEC.STEP alone; the REGW port is only appended to, and by TRG.XMIT alone. -/
def Obligations.PortsAreAppendOnlyAndMemoryIsRead : Prop :=
  ∀ s t : State, step s = .next t →
    ((∀ cells, s.inbox.head? ≠ some (.capture cells)) → ∀ a, t.mem.read a = s.mem.read a) ∧
    (∃ items, t.out = items ++ s.out ∧
      (s.inbox.head? ≠ some (.command 0x31000000) → items = [])) ∧
    (∃ txs, t.regw = txs ++ s.regw ∧
      (s.inbox.head? ≠ some (.command 0x23000000) → txs = []))

/-- The model's choice (log 2): the parameters of 00_scope.md R8 are never changed by a step. -/
def Obligations.ParametersAreConstant : Prop :=
  ∀ s t : State, step s = .next t → t.params = s.params

/-! ## System operations -/

/-- 46_system.md R301: SYS.NOP changes no state, reads no memory, emits nothing, raises no error, also
while an error is pending; the all-zero word is that legal command. -/
def Obligations.NopChangesNothing : Prop :=
  decodeCommand 0x00000000 = .ok .sysNop ∧ ∀ s : State, exec .sysNop s = .next s

/-- R302: after SYS.RESET every register reads 0 (`SPE` 1), and memory, ports and parameters are as
before. -/
def Obligations.ResetClearsEveryRegister : Prop :=
  ∀ s : State, ∃ t, exec .sysReset s = .next t ∧ t.toEnvironment = s.toEnvironment ∧
    ∀ r, portValue t r = if r = .spe then 1 else 0

/-- R303: SYS.INIT keeps `CONFIG`, the trigger specification, `X0`, `X1`, `GEN_VALUE` and `GEN_MASK`; of
the other registers every one reads 0 but `SPE` and `USE_TRIG`, which follow what is kept. -/
def Obligations.InitKeepsTheConfiguration : Prop :=
  ∀ s : State, ∃ t, exec .sysInit s = .next t ∧ t.toEnvironment = s.toEnvironment ∧
    ∀ r, portValue t r =
      if r ∈ [.config, .spe, .simpleValue, .simpleMask, .risingMask, .fallingMask, .x0, .x1,
        .genValue, .genMask] then portValue s r
      else if r = .status then
        (if s.spec.simpleMask = 0 ∧ s.spec.risingMask = 0 ∧ s.spec.fallingMask = 0 then 0 else 0x400)
      else 0

/-! ## Locations -/

/-- 40_addresser.md R134: LOC.INC moves a location register to the next location, with carry from event
to cluster to row, circular; in raw terms one slot, or two past a reserved one. -/
def Obligations.LocIncMovesToTheNextLocation : Prop :=
  ∀ (s : State) (lr : LocReg), s.errs.pending = false → s.dec.phase = .idle →
    (s.locs.get lr).legal →
    ∃ l, exec (.locInc lr) s = .next { s with locs := s.locs.set lr l } ∧
      (l.event.toNat, l.cluster.toNat, l.row.toNat) =
        (let a := s.locs.get lr
         if a.event.toNat < 6 then (a.event.toNat + 1, a.cluster.toNat, a.row.toNat)
         else if a.cluster.toNat < 63 then (0, a.cluster.toNat + 1, a.row.toNat)
         else (0, 0, (a.row.toNat + 1) % 32768)) ∧
      l.pack = (s.locs.get lr).pack + (if (s.locs.get lr).event = 6 then 2 else 1)

/-- R135: LOC.DEC moves a location register to the previous location, circular, and undoes `Inc` and is
undone by it. -/
def Obligations.LocDecMovesToThePreviousLocation : Prop :=
  ∀ (s : State) (lr : LocReg), s.errs.pending = false → s.dec.phase = .idle →
    (s.locs.get lr).legal →
    ∃ l, exec (.locDec lr) s = .next { s with locs := s.locs.set lr l } ∧
      (l.event.toNat, l.cluster.toNat, l.row.toNat) =
        (let a := s.locs.get lr
         if 0 < a.event.toNat then (a.event.toNat - 1, a.cluster.toNat, a.row.toNat)
         else if 0 < a.cluster.toNat then (6, a.cluster.toNat - 1, a.row.toNat)
         else (6, 63, (a.row.toNat + 32767) % 32768)) ∧
      l.inc = s.locs.get lr ∧ (s.locs.get lr).inc.dec = s.locs.get lr

/-- R139: LOC.BACK walks back event by event, `n` events or until it meets `START`, whichever comes
first, circular. -/
def Obligations.LocBackWalksToTheFloor : Prop :=
  ∀ (s : State) (lr : LocReg) (n : Nat), s.errs.pending = false → s.dec.phase = .idle →
    (s.locs.get lr).legal → s.locs.start.legal →
    ∃ l, exec (.locBack lr n) s = .next { s with locs := s.locs.set lr l } ∧ l.legal ∧
      (l.position + min n (distanceBack s.locs.start (s.locs.get lr))) % locationCount =
        (s.locs.get lr).position

/-- R136 with R147: LOC.CMP sets `EQ` exactly when the two locations have equal row, cluster and event,
equivalently when their raw offsets are equal, in every phase. -/
def Obligations.LocCmpComparesLocations : Prop :=
  ∀ (s : State) (la lb : LocReg), s.errs.pending = false →
    ∃ eq, exec (.locCmp la lb) s = .next { s with eqFlag := eq } ∧
      (eq = true ↔ (s.locs.get la).row = (s.locs.get lb).row ∧
        (s.locs.get la).cluster = (s.locs.get lb).cluster ∧
        (s.locs.get la).event = (s.locs.get lb).event) ∧
      (eq = true ↔ (s.locs.get la).pack = (s.locs.get lb).pack)

/-- R148: LOC.MOV copies the source location, all of it, and nothing else. -/
def Obligations.LocMovCopiesTheLocation : Prop :=
  ∀ (s : State) (la lb : LocReg), s.errs.pending = false → s.dec.phase = .idle →
    ∃ t, exec (.locMov la lb) s = .next t ∧ t = { s with locs := t.locs } ∧
      ∀ r, t.locs.get r = if r = la then s.locs.get lb else s.locs.get r

/-- R140 to R142: POS.DECODE parses the two little-endian counters and the status byte, adjusts each
counter (one slot down, and one more off a reserved slot), and loads `TRIG`, `STOP`, `MODESTAT`. -/
def Obligations.PosDecodeLoadsAdjustedPositions : Prop :=
  ∀ s : State, s.errs.pending = false → s.dec.phase = .idle → s.pos.poslen = 7 →
    ∃ lt ls st, exec .posDecode s = .next { s with
        locs := { s.locs with trig := lt, stop := ls }, pos := { s.pos with modestat := st } } ∧
      (let adjusted (p : Nat) : Nat :=
        let q := (p + 16777215) % 16777216
        if q % 8 = 7 then q - 1 else q
       lt.pack.toNat = adjusted (s.pos.posbufLo.toNat % 16777216) ∧
       ls.pack.toNat =
        adjusted (s.pos.posbufLo.toNat / 16777216 + 256 * (s.pos.posbufHi.toNat % 65536)) ∧
       st.toNat = s.pos.posbufHi.toNat / 65536 ∧ lt.legal ∧ ls.legal)

/-- R140: a response that is not 7 bytes long raises `Protocol.BadLength` and loads nothing. -/
def Obligations.PosDecodeRejectsAWrongLength : Prop :=
  ∀ s : State, s.errs.pending = false → s.dec.phase = .idle → s.pos.poslen ≠ 7 →
    exec .posDecode s = .next (recorded 0x21 (s.pos.poslen.setWidth 32) s)

/-! ## Trigger compiler -/

/-- 41_trigger_lutgen.md R161 to R163: after TRG.LUTGEN the table set is true of a sample exactly when
the sample agrees with `GEN_VALUE` on `GEN_MASK`, quad by quad and over all sixteen channels; nothing else
changes but `TPHASE` out of `EMPTY`. -/
def Obligations.LutgenDecidesTheMaskedValue : Prop :=
  ∀ (s : State) (set : TableSel), s.errs.pending = false → s.tphase ≠ .sent →
    ∃ tables : TableSet, exec (.trgLutgen set) s = .next { s with
        lut := s.lut.setTable set tables, tphase := .compiled } ∧
      (∀ v, lutEval tables v = ((v &&& s.genMask) == (s.genValue &&& s.genMask))) ∧
      ∀ (q : Fin 4) (j : BitVec 4), (tables.get q).getLsbD j.toNat =
        ((j &&& s.genMask.extractLsb' (4 * q.val) 4) ==
          (s.genValue.extractLsb' (4 * q.val) 4 &&& s.genMask.extractLsb' (4 * q.val) 4))

/-- R164: TRG.EVAL sets `HIT` exactly when each of the four tables is 1 at the sample's nibble, in every
phase. -/
def Obligations.EvalSetsHit : Prop :=
  ∀ (s : State) (set : TableSel), s.errs.pending = false →
    ∃ hit, exec (.trgEval set) s = .next { s with hitFlag := hit } ∧
      (hit = true ↔ ∀ q : Fin 4,
        ((s.lut.table set).get q).getLsbD (s.x0.toNat / 16 ^ q.val % 16) = true)

/-- R184 with R183 and R186: TRG.FUNC folds the image of the primitive into the target glue mask by the
combinator, all sixteen entries from the old mask; nothing else changes but `TPHASE` out of `EMPTY`. -/
def Obligations.FuncFoldsThePrimitive : Prop :=
  ∀ (s : State) (op : Prim) (func : Combinator) (slot : EdgeSlot) (neg : Bool) (target : GlueSel),
    s.errs.pending = false → s.tphase ≠ .sent →
    exec (.trgFunc op func slot neg target) s = .next { s with
      lut := s.lut.setGlue target
        (let old := s.lut.glue target
         let image := primitiveImage op slot neg
         match func with
         | .and => old &&& image
         | .nand => ~~~ (old &&& image)
         | .or => old ||| image
         | .nor => ~~~ (old ||| image)
         | .xor => old ^^^ image
         | .xnor => ~~~ (old ^^^ image))
      tphase := .compiled }

/-- 43_trigger_compile.md R202: a specification with more than two edge channels raises
`Config.TooManyEdges`, one with two at a fast tier `Config.FastEdges`, each with the union of the masks as
its value; the file and every flag are unchanged. -/
def Obligations.CompileChecksTheSpecification : Prop :=
  ∀ s : State, s.errs.pending = false → s.tphase ≠ .sent →
    let u := s.spec.risingMask ||| s.spec.fallingMask
    ((channels u).card > 2 →
      exec .trgCompile s = .next (recorded 0x31 (u.setWidth 32) s)) ∧
    ((channels u).card = 2 → s.config ∈ s.params.fastTiers →
      exec .trgCompile s = .next (recorded 0x32 (u.setWidth 32) s)) ∧
    ((channels u).card ≤ 2 → ¬ (s.config ∈ s.params.fastTiers ∧ (channels u).card = 2) →
      ∃ f, exec .trgCompile s = .next { s with lut := f, tphase := .compiled })

/-- R205 (marked by the spec as derived): for every specification that is accepted and not empty, the compiled file fires on a pair of
samples exactly when the match of 45_refinement.md R276 in mode `any` holds of them, channel by channel;
and exactly when the refinement's own `Match` does. -/
def Obligations.CompiledFileMatchesTheSpecification : Prop :=
  ∀ s : State, s.errs.pending = false → s.tphase ≠ .sent →
    (channels (s.spec.risingMask ||| s.spec.fallingMask)).card ≤
      (if s.config ∈ s.params.fastTiers then 1 else 2) →
    s.spec.simpleMask ||| s.spec.risingMask ||| s.spec.fallingMask ≠ 0 →
    ∃ f, exec .trgCompile s = .next { s with lut := f, tphase := .compiled } ∧
      ∀ prev cur, compiledMatch f prev cur = matchesSpec .any s.spec prev cur ∧
        compiledMatch f prev cur = triggerMatch .any s.spec prev cur

/-- R203, R204, R206: what the members of a compiled file are. The level tables decide the level part;
the lowest edge channel takes slot 0 and the other slot 1; `M3Q` is the row of the table of R204
(marked by the spec as derived) for the masks that hold each of them; the constant members come from the parameters. -/
def Obligations.CompileFillsTheMembers : Prop :=
  ∀ s : State, s.errs.pending = false → s.tphase ≠ .sent →
    (channels (s.spec.risingMask ||| s.spec.fallingMask)).card ≤
      (if s.config ∈ s.params.fastTiers then 1 else 2) →
    s.spec.simpleMask ||| s.spec.risingMask ||| s.spec.fallingMask ≠ 0 →
    ∃ f, exec .trgCompile s = .next { s with lut := f, tphase := .compiled } ∧
      f.m3s = 0 ∧ f.m4 = s.params.m4Simple ∧ f.param0 = s.params.paramSimple0 ∧
      f.param1 = s.params.paramSimple1 ∧ f.param2 = s.params.paramSimple2 ∧
      (∀ v, lutEval f.m2d v = ((v &&& s.spec.simpleMask) ==
        (s.spec.simpleValue &&& s.spec.simpleMask))) ∧
      (channels (s.spec.risingMask ||| s.spec.fallingMask) = ∅ →
        f.m0d = ⟨0, 0, 0, 0⟩ ∧ f.m1d = ⟨0, 0, 0, 0⟩ ∧ f.m3q = 0xFFFF) ∧
      (∀ c, channels (s.spec.risingMask ||| s.spec.fallingMask) = {c} →
        (∀ v, lutEval f.m0d v = v.getLsbD c.val) ∧ f.m1d = ⟨0, 0, 0, 0⟩ ∧
        f.m3q = edgeGlue (s.spec.risingMask.getLsbD c.val) (s.spec.fallingMask.getLsbD c.val)
          false false) ∧
      (∀ c d, c < d → channels (s.spec.risingMask ||| s.spec.fallingMask) = {c, d} →
        (∀ v, lutEval f.m0d v = v.getLsbD c.val) ∧ (∀ v, lutEval f.m1d v = v.getLsbD d.val) ∧
        f.m3q = edgeGlue (s.spec.risingMask.getLsbD c.val) (s.spec.fallingMask.getLsbD c.val)
          (s.spec.risingMask.getLsbD d.val) (s.spec.fallingMask.getLsbD d.val))

/-- R207: with all three masks zero TRG.COMPILE clears the whole file, whatever `SIMPLE_VALUE`. -/
def Obligations.CompileOfAnEmptySpecificationClears : Prop :=
  ∀ s : State, s.errs.pending = false → s.tphase ≠ .sent →
    s.spec.simpleMask = 0 → s.spec.risingMask = 0 → s.spec.fallingMask = 0 →
    ∃ t, exec .trgCompile s = .next t ∧ t = { s with lut := t.lut, tphase := .compiled } ∧
      (∀ sel q, (t.lut.table sel).get q = 0) ∧ (∀ g, t.lut.glue g = 0) ∧ ∀ i, t.lut.param i = 0

/-- R210 with R212 and 20_memory.md R70: TRG.XMIT issues exactly 33 transactions, for each of the sixteen
addresses in ascending order the table word (most significant byte first) and the strobe, then the
parameter block; it reads and changes nothing else but `TPHASE`. -/
def Obligations.XmitSendsTheFile : Prop :=
  ∀ s : State, s.errs.pending = false → s.tphase = .compiled →
    ∃ txs : List RegWrite, exec .trgXmit s = .next { s with regw := txs.reverse ++ s.regw, tphase := .sent } ∧
      txs.length = 33 ∧
      (∀ a, a < 16 → ∃ hi lo : Byte,
        txs[2 * a]? = some ⟨s.params.regTriggerSelect, [hi, lo]⟩ ∧
        txs[2 * a + 1]? = some ⟨s.params.regTriggerSelect2,
          [s.params.resetBit ||| s.params.lutWriteBit ||| BitVec.ofNat 8 a]⟩ ∧
        (let w : Half := hi ++ lo
         (∀ q : Fin 4, w.getLsbD q.val = (s.lut.m0d.get q).getLsbD a ∧
           w.getLsbD (4 + q.val) = (s.lut.m1d.get q).getLsbD a ∧
           w.getLsbD (8 + q.val) = (s.lut.m2d.get q).getLsbD a) ∧
         w.getLsbD 12 = s.lut.m3q.getLsbD a ∧ w.getLsbD 13 = s.lut.m3s.getLsbD a ∧
         w.getLsbD 14 = s.lut.m4.getLsbD a ∧ w.getLsbD 15 = false)) ∧
      ∃ b0 b1 b2 b3 b4 b5 : Byte,
        txs[32]? = some ⟨s.params.regTriggerSelect, [b0, b1, b2, b3, b4, b5]⟩ ∧
        b0 ++ b1 = s.lut.param0 ∧ b2 ++ b3 = s.lut.param1 ∧ b4 ++ b5 = s.lut.param2

/-! ## Decoder -/

/-- 44_decoder.md R232 to R234: DEC.SETUP of a capture that has not wrapped starts at (0, 0, 0) and covers
the rows to `STOP.row`; of one that has, at the row after `STOP.row`, and covers 32767 rows; all
bookkeeping of the pass is cleared. The arm position is stated apart. -/
def Obligations.SetupStartsThePass : Prop :=
  ∀ s : State, s.errs.pending = false → s.dec.phase = .idle →
    ∃ start arm armValid total, exec .decSetup s = .next { s with
        locs := { s.locs with start := start, iter := start, arm := arm }
        dec := {
          phase := .ready, armed := false, matched := false, tsValid := false,
          armValid := armValid, lastTs := 0, lastSample := 0, evtRemain := 0, linesDone := 0,
          linesTotal := total, samplesOut := 0, markersOut := 0 } } ∧
      start.cluster = 0 ∧ start.event = 0 ∧
      (s.capstat.getLsbD 0 = false →
        start.row = 0 ∧ total.toNat = s.locs.stop.row.toNat + 1) ∧
      (s.capstat.getLsbD 0 = true →
        start.row.toNat = (s.locs.stop.row.toNat + 1) % 32768 ∧ total.toNat = 32767)

/-- R232 with 45_refinement.md R270, R271: the refinement takes part exactly when a trigger is configured
and the capture reported one; then the arm position is the trigger position moved back by 28 events, or
`START` where the walk meets it first; otherwise it is `START`. -/
def Obligations.SetupPlacesTheArmPosition : Prop :=
  ∀ s : State, s.errs.pending = false → s.dec.phase = .idle → s.locs.trig.legal →
    ∃ t, exec .decSetup s = .next t ∧
      (t.dec.armValid = true ↔ s.capstat.getLsbD 1 = true ∧
        (s.spec.simpleMask ≠ 0 ∨ s.spec.risingMask ≠ 0 ∨ s.spec.fallingMask ≠ 0)) ∧
      (t.dec.armValid = false → t.locs.arm = t.locs.start) ∧
      (t.dec.armValid = true → t.locs.arm.legal ∧
        (t.locs.arm.position + min 28 (distanceBack t.locs.start s.locs.trig)) % locationCount =
          s.locs.trig.position)

/-- R246 with R245: DEC.DEINT puts sub-sample `k` of `X0` into `X1`: bit `i` is bit `SPE*i + k`, bits from
`16/SPE` on are 0. -/
def Obligations.DeintExtractsTheSubSample : Prop :=
  ∀ (s : State) (k : Nat), s.errs.pending = false → k < 2 ^ s.config.toNat →
    ∃ v : Half, exec (.decDeint k) s = .next { s with x1 := v } ∧
      ∀ i, i < 16 → v.getLsbD i =
        (decide (2 ^ s.config.toNat * i < 16) && s.x0.getLsbD (2 ^ s.config.toNat * i + k))

/-- R247 with R245: DEC.REINT sets in `X1` the bits `SPE*i + k` for which bit `i` of `X0` is 1 and
`i < 16/SPE`, and keeps the rest. -/
def Obligations.ReintAccumulatesTheSubSample : Prop :=
  ∀ (s : State) (k : Nat), s.errs.pending = false → k < 2 ^ s.config.toNat →
    ∃ v : Half, exec (.decReint k) s = .next { s with x1 := v } ∧
      (∀ i, 2 ^ s.config.toNat * i < 16 →
        v.getLsbD (2 ^ s.config.toNat * i + k) =
          (s.x1.getLsbD (2 ^ s.config.toNat * i + k) || s.x0.getLsbD i)) ∧
      ∀ b, b % 2 ^ s.config.toNat ≠ k → v.getLsbD b = s.x1.getLsbD b

/-- R245, the source's property: at every tier, de-interleaving a word and re-interleaving its sub-samples
gives the word back. -/
def Obligations.DeintThenReintRoundTrips : Prop :=
  ∀ (n : Nat) (w : Half), n = 1 ∨ n = 2 ∨ n = 4 →
    ((List.range n).map fun k => reint n (deint n w k) k).foldl (· ||| ·) 0 = w

/-- R242, R243, 45_refinement.md R273, R274: what one cluster record does to the bookkeeping of the pass.
The expected timestamp becomes `ts + 7`; the sample count rises by the gap and the events used, times SPE;
the cursor advances by the events used; nothing changes but unit D's bookkeeping, the cursor and the
stream. Where the refinement takes part and the record gets no marker, `ARMED` and `EVT_REMAIN` are those
of the window at its last event: set with 56 at `ARM`, one less per event, cleared at 0. Where it takes no
part or a marker was emitted before, the flags and the budget stay. A record of which no event is due is
not looked at: that a record run outside a pass is such a one, and how many events are due, is the model's
choice (log 8). -/
def Obligations.RecordAdvancesThePass : Prop :=
  ∀ (r : ClusterRecord) (s : State),
    (eventsDue s = 0 → exec (.cluster r) s = .next s) ∧
    (eventsDue s ≠ 0 → s.locs.iter.legal →
      ∃ t items, exec (.cluster r) s = .next t ∧
        t = { s with
          locs := { s.locs with iter := t.locs.iter }, dec := t.dec, out := items ++ s.out } ∧
        t.dec.tsValid = true ∧ t.dec.lastTs = r.ts + 7 ∧
        t.dec.samplesOut = s.dec.samplesOut +
          BitVec.ofNat 64 ((recordGap r s + eventsDue s) * 2 ^ s.config.toNat) ∧
        t.locs.iter.position = (s.locs.iter.position + eventsDue s) % locationCount ∧
        t.dec.phase = s.dec.phase ∧ t.dec.armValid = s.dec.armValid ∧
        t.dec.linesDone = s.dec.linesDone ∧ t.dec.linesTotal = s.dec.linesTotal ∧
        (s.dec.armValid = true → s.dec.matched = false →
          (s.dec.armed = true → s.dec.evtRemain ≠ 0) →
          (∀ i, i < (samplesOf r s).length → softwareMatch r s i = false) →
          (∀ e, e < eventsDue s → standsAt s s.locs.trig e = false) →
          t.dec.matched = false ∧ t.dec.armed = checksAt s (eventsDue s - 1) ∧
            t.dec.evtRemain.toNat = budgetAt s (eventsDue s - 1)) ∧
        (s.dec.armed = false → s.dec.armValid = false ∨ s.dec.matched = true →
          t.dec.armed = false ∧ t.dec.matched = s.dec.matched ∧
            t.dec.evtRemain = s.dec.evtRemain ∧ t.dec.markersOut = s.dec.markersOut))

/-- R242, R244 with 20_memory.md R69, 45_refinement.md R278, R279: the `Sample` items of a record are its
fill samples and then its sub-samples in order, the words in either byte order, whatever the trigger
configuration; the last of them is left in `LAST_SAMPLE`. Among them stands at most one `Trigger` item,
none when a marker was already emitted or the refinement takes no part; the marker flag and count follow
it. -/
def Obligations.RecordEmitsItsSamplesAndAtMostOneMarker : Prop :=
  ∀ (r : ClusterRecord) (s : State), eventsDue s ≠ 0 →
    (s.dec.armed = true → s.dec.matched = false ∧ s.dec.armValid = true) →
    ∃ (t : State) (items : List OutItem),
      exec (.cluster r) s = .next t ∧ t.out = items.reverse ++ s.out ∧
      items.filter OutItem.isSample = (samplesOf r s).map OutItem.sample ∧
      (samplesOf r s).getLast? = some t.dec.lastSample ∧
      items.count .trigger = (if t.dec.matched = true ∧ s.dec.matched = false then 1 else 0) ∧
      (s.dec.matched = true → t.dec.matched = true) ∧
      (s.dec.armValid = false → t.dec.matched = s.dec.matched) ∧
      t.dec.markersOut = s.dec.markersOut + BitVec.ofNat 2 (items.count .trigger)

/-- 45_refinement.md R272, R277, R278: where the location of any event due of a record is the hardware
trigger position and no sample before that event is a software match, the marker stands immediately
before the event's first sample, behind the fill of the record's gap and the events before. -/
def Obligations.ForcedMarkerStandsAtTheTriggerPosition : Prop :=
  ∀ (r : ClusterRecord) (s : State) (e : Nat), e < eventsDue s → s.locs.iter.legal →
    s.dec.armValid = true → s.dec.matched = false → (s.dec.armed = true → s.dec.evtRemain ≠ 0) →
    standsAt s s.locs.trig e = true →
    (∀ i, i < samplesBefore r s e → softwareMatch r s i = false) →
    ∃ t, exec (.cluster r) s = .next t ∧ t.dec.matched = true ∧ t.dec.armed = false ∧
      t.dec.evtRemain.toNat = budgetAt s e ∧ t.dec.markersOut = s.dec.markersOut + 1 ∧
      t.out.reverse = s.out.reverse ++ markedAt (samplesOf r s) (samplesBefore r s e)

/-- R273 to R276, R278, R280: the first sample of a record that is looked at and matches the
specification, a fill sample or a sub-sample of any event, gets the marker immediately before it, and
checking ends; provided the trigger position is not met at its event or before. A sample is looked at
while checking is active: since before the record, or from the event at `ARM` on, while the budget
lasts. -/
def Obligations.SoftwareMatchPlacesTheMarker : Prop :=
  ∀ (r : ClusterRecord) (s : State) (i : Nat), i < (samplesOf r s).length → eventsDue s ≠ 0 →
    s.locs.iter.legal → s.dec.armValid = true → s.dec.matched = false →
    (s.dec.armed = true → s.dec.evtRemain ≠ 0) →
    softwareMatch r s i = true → (∀ j, j < i → softwareMatch r s j = false) →
    (∀ e, e < eventsDue s → standsAt s s.locs.trig e = true → i < samplesBefore r s e) →
    ∃ t, exec (.cluster r) s = .next t ∧ t.dec.matched = true ∧ t.dec.armed = false ∧
      t.dec.evtRemain.toNat =
        (if i < samplesBefore r s 0 then s.dec.evtRemain.toNat else budgetAt s (eventOf r s i)) ∧
      t.dec.markersOut = s.dec.markersOut + 1 ∧
      t.out.reverse = s.out.reverse ++ markedAt (samplesOf r s) i

/-- R240, R241 with 30_encoding.md R90: one DEC.STEP of a chunk of one row fetches that row, runs its
records as instructions one after the other, counts the row, and ends the pass after the last. The row is
what the memory holds or, where the environment supplies other bytes (20_memory.md R80), those bytes; the
list of answers is the model's form of that choice (log 4). -/
def Obligations.DecStepRunsTheRecordsOfARow : Prop :=
  ∀ (s : State) (buf : List Byte) (rest : List MemAnswer),
    s.errs.pending = false → s.dec.phase = .ready → s.params.fetchChunkRows = 1 →
    s.dec.linesDone ≠ s.dec.linesTotal → s.locs.iter = ⟨currentRow s, 0, 0⟩ →
    (s.answers = [] ∧ rest = [] ∧ buf = s.mem.row (currentRow s)) ∨
      (s.answers = .memory :: rest ∧ buf = s.mem.row (currentRow s)) ∨
      s.answers = .supplied buf :: rest →
    ∃ u, execRecords ((rowRecords buf (rowEvents s)).map (·.1)) { s with answers := rest } = .next u ∧
      exec .decStep s = .next { u with dec := { u.dec with
        linesDone := s.dec.linesDone + 1
        phase := if s.dec.linesDone + 1 = s.dec.linesTotal then .done else .ready } }

/-- R240: a row whose read fails raises `Io.MemRead` with the row number; nothing else changes, the pass
stays `READY`. -/
def Obligations.DecStepRecordsAFailedRead : Prop :=
  ∀ (s : State) (rest : List MemAnswer), s.errs.pending = false → s.dec.phase = .ready →
    1 ≤ s.params.fetchChunkRows → s.answers = .ioError :: rest →
    s.dec.linesDone ≠ s.dec.linesTotal →
    exec .decStep s = .next (recorded 0x11
      (BitVec.ofNat 32 ((s.locs.start.row.toNat + s.dec.linesDone.toNat) % 32768))
      { s with answers := rest })

/-- R250 (marked by the spec as derived) with 20_memory.md R74: the chunk size does not show. A chunk of `a + b` rows leaves what a chunk
of `a` rows and then, if the pass goes on, a chunk of `b` rows leave. -/
def Obligations.ChunkSizeDoesNotShow : Prop :=
  ∀ (s : State) (a b n : Nat), s.errs.pending = false → s.dec.phase = .ready →
    ∃ t u, exec .decStep (withChunk (a + b) s) = .next t ∧
      exec .decStep (withChunk a s) = .next u ∧
      (if u.errs.pending = false ∧ u.dec.phase = .ready then
        ∃ v, exec .decStep (withChunk b u) = .next v ∧ withChunk n v = withChunk n t
      else withChunk n u = withChunk n t)

/-- R249, the count property (its formula is marked by the spec as derived): a pass set up and decoded over a memory that answers every read emits
`(E + G) * SPE` samples, `E` the events between its two ends and `G` the sum of the gaps of its records,
and leaves the cursor at `End`. -/
def Obligations.CompletedPassHasTheSampleCount : Prop :=
  ∀ s p : State, s.errs.pending = false → s.dec.phase = .idle → s.locs.stop.legal →
    s.answers = [] → exec .decSetup s = .next p →
    p.dec.linesTotal.toNat ≤ p.params.fetchChunkRows →
    ∃ t, exec .decStep p = .next t ∧ t.dec.phase = .done ∧ t.errs.pending = false ∧
      t.dec.samplesOut.toNat =
        (passEvents s + gapSum none (passRecords p)) * 2 ^ s.config.toNat ∧
      t.locs.iter = passEnd s ∧ t.dec.linesDone = t.dec.linesTotal

/-! ## Register port -/

/-- 46_system.md R304, 10_state.md R22, R38: a read of an assigned index returns the value of the register
the index map gives it, index by index, and changes nothing; a read of an unassigned index returns 0 and
raises `Programming.BadAccess`. `portReg` and `portValue`, which other statements use, name the same
registers. -/
def Obligations.PortReadReturnsTheRegister : Prop :=
  ∀ (s : State) (index : BitVec 8) (rest : List Input), s.inbox = .portRead index :: rest →
    (∀ v, (index.toNat, v) ∈ portTable s → ∃ w : Word, w.toNat = v ∧
      step s = .next { served s with replies := w :: s.replies }) ∧
    (∀ r, portReg index = some r →
      step s = .next { served s with replies := portValue s r :: s.replies }) ∧
    (index.toNat ∉ (portTable s).map (·.1) → s.errs.pending = false →
      step s = .next (recorded 0x53 (index.setWidth 32) { served s with replies := 0 :: s.replies }))

/-- 10_state.md R28: the bits of `STATUS`. -/
def Obligations.StatusCollectsTheFlags : Prop :=
  ∀ s : State, portReg 0x00 = some .status ∧
    (portValue s .status).toNat % 4 =
      (match s.dec.phase with | .idle => 0 | .ready => 1 | .done => 2) ∧
    (portValue s .status).toNat / 4 % 4 =
      (match s.tphase with | .empty => 0 | .compiled => 1 | .sent => 2) ∧
    (portValue s .status).getLsbD 4 = s.errs.pending ∧
    (portValue s .status).getLsbD 5 = s.dec.armed ∧
    (portValue s .status).getLsbD 6 = s.dec.matched ∧
    (portValue s .status).getLsbD 7 = s.dec.tsValid ∧
    (portValue s .status).getLsbD 8 = s.eqFlag ∧
    (portValue s .status).getLsbD 9 = s.hitFlag ∧
    ((portValue s .status).getLsbD 10 = true ↔
      s.spec.simpleMask ≠ 0 ∨ s.spec.risingMask ≠ 0 ∨ s.spec.fallingMask ≠ 0) ∧
    (portValue s .status).getLsbD 11 = s.dec.armValid ∧
    (portValue s .status).toNat < 4096

/-- R22 with R38: a write to a register that is read-only or whose condition does not hold, or to an
unassigned index, changes no register and raises `Programming.BadAccess` with the index. -/
def Obligations.PortWriteIsRefusedOutsideItsCondition : Prop :=
  ∀ (s : State) (index : BitVec 8) (v : Word) (rest : List Input),
    s.inbox = .portWrite index v :: rest → s.errs.pending = false → ¬ hostWritable s index.toNat →
    step s = .next (recorded 0x53 (index.setWidth 32) (served s))

/-- R22, R36, R38, R304: a write whose condition holds to a register of width `n` is accepted and stores
the low `n` bits in the register the index map gives the index; every other index reads as before, but
`STATUS`, of which `USE_TRIG` follows the masks and `TPHASE` becomes `COMPILED` on a write to a member of
the lookup-table file; memory and ports are unchanged. -/
def Obligations.PortWriteStoresTheLowBits : Prop :=
  ∀ (s : State) (index : BitVec 8) (v : Word) (rest : List Input) (n : Nat),
    s.inbox = .portWrite index v :: rest → s.errs.pending = false →
    hostWritable s index.toNat → plainWidth index.toNat = some n →
    ∃ t, step s = .next t ∧ (index.toNat, v.toNat % 2 ^ n) ∈ portTable t ∧
      (∀ i w, i ≠ index.toNat → i ≠ 0x00 → ((i, w) ∈ portTable t ↔ (i, w) ∈ portTable s)) ∧
      t.toEnvironment = (served s).toEnvironment ∧ t.dec = s.dec ∧ t.errs = s.errs ∧
      t.eqFlag = s.eqFlag ∧ t.hitFlag = s.hitFlag ∧
      t.tphase = if lutIndex index.toNat then .compiled else s.tphase

/-- R30, R31: a write of `CONFIG` while both units are at rest stores the tier and `SPE` follows; the
reserved tier is refused with `Config.BadTier`. -/
def Obligations.ConfigWriteChecksTheTier : Prop :=
  ∀ (s : State) (v : Word) (rest : List Input), s.inbox = .portWrite 0x03 v :: rest →
    s.errs.pending = false → s.dec.phase = .idle → s.tphase = .empty →
    (v.toNat % 4 = 3 → step s = .next (recorded 0x33 v (served s))) ∧
    (v.toNat % 4 ≠ 3 → ∃ tier : BitVec 2, tier.toNat = v.toNat % 4 ∧
      step s = .next { served s with config := tier } ∧
      (portValue { served s with config := tier } .spe).toNat = 2 ^ (v.toNat % 4))

/-- R25 with 40_addresser.md R132: a host write of a location's `RAW` stores the location of the value
reduced modulo 2^24, so that it reads back that value; a reserved slot is refused with
`Protocol.BadLocation` and the reduced value. -/
def Obligations.RawWriteStoresTheLocation : Prop :=
  ∀ (s : State) (lr : LocReg) (v : Word) (rest : List Input),
    s.inbox = .portWrite (0x10 + 4 * lr.code.setWidth 8) v :: rest → s.errs.pending = false →
    s.dec.phase = .idle →
    (v.toNat % 8 = 7 →
      step s = .next (recorded 0x22 (BitVec.ofNat 32 (v.toNat % 16777216)) (served s))) ∧
    (v.toNat % 8 ≠ 7 → ∃ l : Location,
      step s = .next { served s with locs := s.locs.set lr l } ∧
      (l.row.toNat, l.cluster.toNat, l.event.toNat) =
        (v.toNat % 16777216 / 512, v.toNat % 512 / 8, v.toNat % 8) ∧
      l.pack.toNat = v.toNat % 16777216)

/-- R25, R304: a host write of `ROW` or `CLUSTER` replaces the field by the value's low bits; of `EVENT`
likewise, unless the low three bits are 7, which is refused with `Protocol.BadLocation` and the written
value. -/
def Obligations.FieldWriteReplacesTheField : Prop :=
  ∀ (s : State) (lr : LocReg) (f : BitVec 8) (v : Word) (rest : List Input),
    s.inbox = .portWrite (0x10 + 4 * lr.code.setWidth 8 + f) v :: rest → s.errs.pending = false →
    s.dec.phase = .idle →
    (f = 1 → ∃ row : BitVec 15, row.toNat = v.toNat % 32768 ∧
      step s = .next { served s with locs := s.locs.set lr { s.locs.get lr with row := row } }) ∧
    (f = 2 → ∃ cluster : BitVec 6, cluster.toNat = v.toNat % 64 ∧
      step s = .next { served s with
        locs := s.locs.set lr { s.locs.get lr with cluster := cluster } }) ∧
    (f = 3 → v.toNat % 8 ≠ 7 → ∃ event : BitVec 3, event.toNat = v.toNat % 8 ∧
      step s = .next { served s with locs := s.locs.set lr { s.locs.get lr with event := event } }) ∧
    (f = 3 → v.toNat % 8 = 7 → step s = .next (recorded 0x22 v (served s)))

/-! ## Sample memory -/

/-- 20_memory.md R61, R80 (the form of the event is the model's, log 5): a byte the capture device stores
reads back, every other byte of the memory is as before, and the memory stays in its canonical form. -/
def Obligations.CaptureStoresOneByte : Prop :=
  ∀ (s : State) (a : Nat) (b : Byte) (rest : List Input), Memory.wf s.mem → a < 33554432 →
    s.inbox = .capture [(a, b)] :: rest →
    ∃ m : Memory, step s = .next { served s with mem := m } ∧ Memory.wf m ∧ m.read a = b ∧
      ∀ a', a' ≠ a → m.read a' = s.mem.read a'

/-- 20_memory.md R60 (the form is the model's, log 5): the one stop of the machine is a capture event that
names a byte outside the sample memory. -/
def Obligations.OnlyAForeignAddressStops : Prop :=
  ∀ s : State, (∀ f, step s = .fault f →
      ∃ cells rest a b, s.inbox = .capture cells :: rest ∧ (a, b) ∈ cells ∧ 33554432 ≤ a ∧
        f = .noSuchAddress a) ∧
    ∀ x, step s ≠ .refused x

/-- 20_memory.md R62, R69, 40_addresser.md R138 with R100: the word of event `e` of a record in a row
buffer is the little-endian pair of bytes of the memory at `WordAddr`, its timestamp the pair at `TsAddr`;
as a sample word it is that pair in the order `CLUSTER_SAMPLE_ORDER`. -/
def Obligations.RecordWordsComeFromTheirAddresses : Prop :=
  ∀ (m : Memory) (l : Location), l.legal →
    let r := recordAt (m.row l.row) l.cluster.toNat
    r.ts = m.read (l.tsAddr + 1) ++ m.read l.tsAddr ∧
      r.words[l.event.toNat]? = some (m.read (l.wordAddr + 1) ++ m.read l.wordAddr) ∧
      recordWord .little r l.event.toNat = m.read (l.wordAddr + 1) ++ m.read l.wordAddr ∧
      recordWord .big r l.event.toNat = m.read l.wordAddr ++ m.read (l.wordAddr + 1)
end

