-- ==== Sys2Proof/Laws/State.lean ====
section
/-! SUPPORT. What each named update of the state does to each field, so that no later proof unfolds a
record update. -/

namespace Sys2Proof.Machine

/-! ## `emit` -/

@[simp] theorem emit_locs (item : OutItem) (s : State) :
    (emit item s).locs = s.locs := rfl
@[simp] theorem emit_dec (item : OutItem) (s : State) :
    (emit item s).dec = s.dec := rfl
@[simp] theorem emit_errs (item : OutItem) (s : State) :
    (emit item s).errs = s.errs := rfl
@[simp] theorem emit_pos (item : OutItem) (s : State) :
    (emit item s).pos = s.pos := rfl
@[simp] theorem emit_spec (item : OutItem) (s : State) :
    (emit item s).spec = s.spec := rfl
@[simp] theorem emit_lut (item : OutItem) (s : State) :
    (emit item s).lut = s.lut := rfl
@[simp] theorem emit_tphase (item : OutItem) (s : State) :
    (emit item s).tphase = s.tphase := rfl
@[simp] theorem emit_config (item : OutItem) (s : State) :
    (emit item s).config = s.config := rfl
@[simp] theorem emit_capstat (item : OutItem) (s : State) :
    (emit item s).capstat = s.capstat := rfl
@[simp] theorem emit_x0 (item : OutItem) (s : State) :
    (emit item s).x0 = s.x0 := rfl
@[simp] theorem emit_x1 (item : OutItem) (s : State) :
    (emit item s).x1 = s.x1 := rfl
@[simp] theorem emit_genValue (item : OutItem) (s : State) :
    (emit item s).genValue = s.genValue := rfl
@[simp] theorem emit_genMask (item : OutItem) (s : State) :
    (emit item s).genMask = s.genMask := rfl
@[simp] theorem emit_eqFlag (item : OutItem) (s : State) :
    (emit item s).eqFlag = s.eqFlag := rfl
@[simp] theorem emit_hitFlag (item : OutItem) (s : State) :
    (emit item s).hitFlag = s.hitFlag := rfl
@[simp] theorem emit_mem (item : OutItem) (s : State) :
    (emit item s).mem = s.mem := rfl
@[simp] theorem emit_answers (item : OutItem) (s : State) :
    (emit item s).answers = s.answers := rfl
@[simp] theorem emit_inbox (item : OutItem) (s : State) :
    (emit item s).inbox = s.inbox := rfl
@[simp] theorem emit_out (item : OutItem) (s : State) :
    (emit item s).out = item :: s.out := rfl
@[simp] theorem emit_regw (item : OutItem) (s : State) :
    (emit item s).regw = s.regw := rfl
@[simp] theorem emit_replies (item : OutItem) (s : State) :
    (emit item s).replies = s.replies := rfl
@[simp] theorem emit_params (item : OutItem) (s : State) :
    (emit item s).params = s.params := rfl

/-! ## `transmit` -/

@[simp] theorem transmit_locs (txs : List RegWrite) (s : State) :
    (transmit txs s).locs = s.locs := rfl
@[simp] theorem transmit_dec (txs : List RegWrite) (s : State) :
    (transmit txs s).dec = s.dec := rfl
@[simp] theorem transmit_errs (txs : List RegWrite) (s : State) :
    (transmit txs s).errs = s.errs := rfl
@[simp] theorem transmit_pos (txs : List RegWrite) (s : State) :
    (transmit txs s).pos = s.pos := rfl
@[simp] theorem transmit_spec (txs : List RegWrite) (s : State) :
    (transmit txs s).spec = s.spec := rfl
@[simp] theorem transmit_lut (txs : List RegWrite) (s : State) :
    (transmit txs s).lut = s.lut := rfl
@[simp] theorem transmit_tphase (txs : List RegWrite) (s : State) :
    (transmit txs s).tphase = s.tphase := rfl
@[simp] theorem transmit_config (txs : List RegWrite) (s : State) :
    (transmit txs s).config = s.config := rfl
@[simp] theorem transmit_capstat (txs : List RegWrite) (s : State) :
    (transmit txs s).capstat = s.capstat := rfl
@[simp] theorem transmit_x0 (txs : List RegWrite) (s : State) :
    (transmit txs s).x0 = s.x0 := rfl
@[simp] theorem transmit_x1 (txs : List RegWrite) (s : State) :
    (transmit txs s).x1 = s.x1 := rfl
@[simp] theorem transmit_genValue (txs : List RegWrite) (s : State) :
    (transmit txs s).genValue = s.genValue := rfl
@[simp] theorem transmit_genMask (txs : List RegWrite) (s : State) :
    (transmit txs s).genMask = s.genMask := rfl
@[simp] theorem transmit_eqFlag (txs : List RegWrite) (s : State) :
    (transmit txs s).eqFlag = s.eqFlag := rfl
@[simp] theorem transmit_hitFlag (txs : List RegWrite) (s : State) :
    (transmit txs s).hitFlag = s.hitFlag := rfl
@[simp] theorem transmit_mem (txs : List RegWrite) (s : State) :
    (transmit txs s).mem = s.mem := rfl
@[simp] theorem transmit_answers (txs : List RegWrite) (s : State) :
    (transmit txs s).answers = s.answers := rfl
@[simp] theorem transmit_inbox (txs : List RegWrite) (s : State) :
    (transmit txs s).inbox = s.inbox := rfl
@[simp] theorem transmit_out (txs : List RegWrite) (s : State) :
    (transmit txs s).out = s.out := rfl
@[simp] theorem transmit_regw (txs : List RegWrite) (s : State) :
    (transmit txs s).regw = txs.reverse ++ s.regw := rfl
@[simp] theorem transmit_replies (txs : List RegWrite) (s : State) :
    (transmit txs s).replies = s.replies := rfl
@[simp] theorem transmit_params (txs : List RegWrite) (s : State) :
    (transmit txs s).params = s.params := rfl

/-! ## `setLoc` -/

@[simp] theorem setLoc_locs (r : LocReg) (l : Location) (s : State) :
    (setLoc r l s).locs = s.locs.set r l := rfl
@[simp] theorem setLoc_dec (r : LocReg) (l : Location) (s : State) :
    (setLoc r l s).dec = s.dec := rfl
@[simp] theorem setLoc_errs (r : LocReg) (l : Location) (s : State) :
    (setLoc r l s).errs = s.errs := rfl
@[simp] theorem setLoc_pos (r : LocReg) (l : Location) (s : State) :
    (setLoc r l s).pos = s.pos := rfl
@[simp] theorem setLoc_spec (r : LocReg) (l : Location) (s : State) :
    (setLoc r l s).spec = s.spec := rfl
@[simp] theorem setLoc_lut (r : LocReg) (l : Location) (s : State) :
    (setLoc r l s).lut = s.lut := rfl
@[simp] theorem setLoc_tphase (r : LocReg) (l : Location) (s : State) :
    (setLoc r l s).tphase = s.tphase := rfl
@[simp] theorem setLoc_config (r : LocReg) (l : Location) (s : State) :
    (setLoc r l s).config = s.config := rfl
@[simp] theorem setLoc_capstat (r : LocReg) (l : Location) (s : State) :
    (setLoc r l s).capstat = s.capstat := rfl
@[simp] theorem setLoc_x0 (r : LocReg) (l : Location) (s : State) :
    (setLoc r l s).x0 = s.x0 := rfl
@[simp] theorem setLoc_x1 (r : LocReg) (l : Location) (s : State) :
    (setLoc r l s).x1 = s.x1 := rfl
@[simp] theorem setLoc_genValue (r : LocReg) (l : Location) (s : State) :
    (setLoc r l s).genValue = s.genValue := rfl
@[simp] theorem setLoc_genMask (r : LocReg) (l : Location) (s : State) :
    (setLoc r l s).genMask = s.genMask := rfl
@[simp] theorem setLoc_eqFlag (r : LocReg) (l : Location) (s : State) :
    (setLoc r l s).eqFlag = s.eqFlag := rfl
@[simp] theorem setLoc_hitFlag (r : LocReg) (l : Location) (s : State) :
    (setLoc r l s).hitFlag = s.hitFlag := rfl
@[simp] theorem setLoc_mem (r : LocReg) (l : Location) (s : State) :
    (setLoc r l s).mem = s.mem := rfl
@[simp] theorem setLoc_answers (r : LocReg) (l : Location) (s : State) :
    (setLoc r l s).answers = s.answers := rfl
@[simp] theorem setLoc_inbox (r : LocReg) (l : Location) (s : State) :
    (setLoc r l s).inbox = s.inbox := rfl
@[simp] theorem setLoc_out (r : LocReg) (l : Location) (s : State) :
    (setLoc r l s).out = s.out := rfl
@[simp] theorem setLoc_regw (r : LocReg) (l : Location) (s : State) :
    (setLoc r l s).regw = s.regw := rfl
@[simp] theorem setLoc_replies (r : LocReg) (l : Location) (s : State) :
    (setLoc r l s).replies = s.replies := rfl
@[simp] theorem setLoc_params (r : LocReg) (l : Location) (s : State) :
    (setLoc r l s).params = s.params := rfl

/-! ## `storeLut` -/

@[simp] theorem storeLut_locs (f : LutFile) (s : State) :
    (storeLut f s).locs = s.locs := rfl
@[simp] theorem storeLut_dec (f : LutFile) (s : State) :
    (storeLut f s).dec = s.dec := rfl
@[simp] theorem storeLut_errs (f : LutFile) (s : State) :
    (storeLut f s).errs = s.errs := rfl
@[simp] theorem storeLut_pos (f : LutFile) (s : State) :
    (storeLut f s).pos = s.pos := rfl
@[simp] theorem storeLut_spec (f : LutFile) (s : State) :
    (storeLut f s).spec = s.spec := rfl
@[simp] theorem storeLut_lut (f : LutFile) (s : State) :
    (storeLut f s).lut = f := rfl
@[simp] theorem storeLut_tphase (f : LutFile) (s : State) :
    (storeLut f s).tphase = if s.tphase = .empty then .compiled else s.tphase := rfl
@[simp] theorem storeLut_config (f : LutFile) (s : State) :
    (storeLut f s).config = s.config := rfl
@[simp] theorem storeLut_capstat (f : LutFile) (s : State) :
    (storeLut f s).capstat = s.capstat := rfl
@[simp] theorem storeLut_x0 (f : LutFile) (s : State) :
    (storeLut f s).x0 = s.x0 := rfl
@[simp] theorem storeLut_x1 (f : LutFile) (s : State) :
    (storeLut f s).x1 = s.x1 := rfl
@[simp] theorem storeLut_genValue (f : LutFile) (s : State) :
    (storeLut f s).genValue = s.genValue := rfl
@[simp] theorem storeLut_genMask (f : LutFile) (s : State) :
    (storeLut f s).genMask = s.genMask := rfl
@[simp] theorem storeLut_eqFlag (f : LutFile) (s : State) :
    (storeLut f s).eqFlag = s.eqFlag := rfl
@[simp] theorem storeLut_hitFlag (f : LutFile) (s : State) :
    (storeLut f s).hitFlag = s.hitFlag := rfl
@[simp] theorem storeLut_mem (f : LutFile) (s : State) :
    (storeLut f s).mem = s.mem := rfl
@[simp] theorem storeLut_answers (f : LutFile) (s : State) :
    (storeLut f s).answers = s.answers := rfl
@[simp] theorem storeLut_inbox (f : LutFile) (s : State) :
    (storeLut f s).inbox = s.inbox := rfl
@[simp] theorem storeLut_out (f : LutFile) (s : State) :
    (storeLut f s).out = s.out := rfl
@[simp] theorem storeLut_regw (f : LutFile) (s : State) :
    (storeLut f s).regw = s.regw := rfl
@[simp] theorem storeLut_replies (f : LutFile) (s : State) :
    (storeLut f s).replies = s.replies := rfl
@[simp] theorem storeLut_params (f : LutFile) (s : State) :
    (storeLut f s).params = s.params := rfl

/-! ## `clearError` -/

@[simp] theorem clearError_locs (s : State) :
    (clearError s).locs = s.locs := rfl
@[simp] theorem clearError_dec (s : State) :
    (clearError s).dec = s.dec := rfl
@[simp] theorem clearError_errs (s : State) :
    (clearError s).errs = ⟨false, 0, 0⟩ := rfl
@[simp] theorem clearError_pos (s : State) :
    (clearError s).pos = s.pos := rfl
@[simp] theorem clearError_spec (s : State) :
    (clearError s).spec = s.spec := rfl
@[simp] theorem clearError_lut (s : State) :
    (clearError s).lut = s.lut := rfl
@[simp] theorem clearError_tphase (s : State) :
    (clearError s).tphase = s.tphase := rfl
@[simp] theorem clearError_config (s : State) :
    (clearError s).config = s.config := rfl
@[simp] theorem clearError_capstat (s : State) :
    (clearError s).capstat = s.capstat := rfl
@[simp] theorem clearError_x0 (s : State) :
    (clearError s).x0 = s.x0 := rfl
@[simp] theorem clearError_x1 (s : State) :
    (clearError s).x1 = s.x1 := rfl
@[simp] theorem clearError_genValue (s : State) :
    (clearError s).genValue = s.genValue := rfl
@[simp] theorem clearError_genMask (s : State) :
    (clearError s).genMask = s.genMask := rfl
@[simp] theorem clearError_eqFlag (s : State) :
    (clearError s).eqFlag = s.eqFlag := rfl
@[simp] theorem clearError_hitFlag (s : State) :
    (clearError s).hitFlag = s.hitFlag := rfl
@[simp] theorem clearError_mem (s : State) :
    (clearError s).mem = s.mem := rfl
@[simp] theorem clearError_answers (s : State) :
    (clearError s).answers = s.answers := rfl
@[simp] theorem clearError_inbox (s : State) :
    (clearError s).inbox = s.inbox := rfl
@[simp] theorem clearError_out (s : State) :
    (clearError s).out = s.out := rfl
@[simp] theorem clearError_regw (s : State) :
    (clearError s).regw = s.regw := rfl
@[simp] theorem clearError_replies (s : State) :
    (clearError s).replies = s.replies := rfl
@[simp] theorem clearError_params (s : State) :
    (clearError s).params = s.params := rfl

/-! ## `reply` -/

@[simp] theorem reply_locs (v : Word) (s : State) :
    (reply v s).locs = s.locs := rfl
@[simp] theorem reply_dec (v : Word) (s : State) :
    (reply v s).dec = s.dec := rfl
@[simp] theorem reply_errs (v : Word) (s : State) :
    (reply v s).errs = s.errs := rfl
@[simp] theorem reply_pos (v : Word) (s : State) :
    (reply v s).pos = s.pos := rfl
@[simp] theorem reply_spec (v : Word) (s : State) :
    (reply v s).spec = s.spec := rfl
@[simp] theorem reply_lut (v : Word) (s : State) :
    (reply v s).lut = s.lut := rfl
@[simp] theorem reply_tphase (v : Word) (s : State) :
    (reply v s).tphase = s.tphase := rfl
@[simp] theorem reply_config (v : Word) (s : State) :
    (reply v s).config = s.config := rfl
@[simp] theorem reply_capstat (v : Word) (s : State) :
    (reply v s).capstat = s.capstat := rfl
@[simp] theorem reply_x0 (v : Word) (s : State) :
    (reply v s).x0 = s.x0 := rfl
@[simp] theorem reply_x1 (v : Word) (s : State) :
    (reply v s).x1 = s.x1 := rfl
@[simp] theorem reply_genValue (v : Word) (s : State) :
    (reply v s).genValue = s.genValue := rfl
@[simp] theorem reply_genMask (v : Word) (s : State) :
    (reply v s).genMask = s.genMask := rfl
@[simp] theorem reply_eqFlag (v : Word) (s : State) :
    (reply v s).eqFlag = s.eqFlag := rfl
@[simp] theorem reply_hitFlag (v : Word) (s : State) :
    (reply v s).hitFlag = s.hitFlag := rfl
@[simp] theorem reply_mem (v : Word) (s : State) :
    (reply v s).mem = s.mem := rfl
@[simp] theorem reply_answers (v : Word) (s : State) :
    (reply v s).answers = s.answers := rfl
@[simp] theorem reply_inbox (v : Word) (s : State) :
    (reply v s).inbox = s.inbox := rfl
@[simp] theorem reply_out (v : Word) (s : State) :
    (reply v s).out = s.out := rfl
@[simp] theorem reply_regw (v : Word) (s : State) :
    (reply v s).regw = s.regw := rfl
@[simp] theorem reply_replies (v : Word) (s : State) :
    (reply v s).replies = v :: s.replies := rfl
@[simp] theorem reply_params (v : Word) (s : State) :
    (reply v s).params = s.params := rfl

/-! ## `withInbox` -/

@[simp] theorem withInbox_locs (rest : List Input) (s : State) :
    (withInbox rest s).locs = s.locs := rfl
@[simp] theorem withInbox_dec (rest : List Input) (s : State) :
    (withInbox rest s).dec = s.dec := rfl
@[simp] theorem withInbox_errs (rest : List Input) (s : State) :
    (withInbox rest s).errs = s.errs := rfl
@[simp] theorem withInbox_pos (rest : List Input) (s : State) :
    (withInbox rest s).pos = s.pos := rfl
@[simp] theorem withInbox_spec (rest : List Input) (s : State) :
    (withInbox rest s).spec = s.spec := rfl
@[simp] theorem withInbox_lut (rest : List Input) (s : State) :
    (withInbox rest s).lut = s.lut := rfl
@[simp] theorem withInbox_tphase (rest : List Input) (s : State) :
    (withInbox rest s).tphase = s.tphase := rfl
@[simp] theorem withInbox_config (rest : List Input) (s : State) :
    (withInbox rest s).config = s.config := rfl
@[simp] theorem withInbox_capstat (rest : List Input) (s : State) :
    (withInbox rest s).capstat = s.capstat := rfl
@[simp] theorem withInbox_x0 (rest : List Input) (s : State) :
    (withInbox rest s).x0 = s.x0 := rfl
@[simp] theorem withInbox_x1 (rest : List Input) (s : State) :
    (withInbox rest s).x1 = s.x1 := rfl
@[simp] theorem withInbox_genValue (rest : List Input) (s : State) :
    (withInbox rest s).genValue = s.genValue := rfl
@[simp] theorem withInbox_genMask (rest : List Input) (s : State) :
    (withInbox rest s).genMask = s.genMask := rfl
@[simp] theorem withInbox_eqFlag (rest : List Input) (s : State) :
    (withInbox rest s).eqFlag = s.eqFlag := rfl
@[simp] theorem withInbox_hitFlag (rest : List Input) (s : State) :
    (withInbox rest s).hitFlag = s.hitFlag := rfl
@[simp] theorem withInbox_mem (rest : List Input) (s : State) :
    (withInbox rest s).mem = s.mem := rfl
@[simp] theorem withInbox_answers (rest : List Input) (s : State) :
    (withInbox rest s).answers = s.answers := rfl
@[simp] theorem withInbox_inbox (rest : List Input) (s : State) :
    (withInbox rest s).inbox = rest := rfl
@[simp] theorem withInbox_out (rest : List Input) (s : State) :
    (withInbox rest s).out = s.out := rfl
@[simp] theorem withInbox_regw (rest : List Input) (s : State) :
    (withInbox rest s).regw = s.regw := rfl
@[simp] theorem withInbox_replies (rest : List Input) (s : State) :
    (withInbox rest s).replies = s.replies := rfl
@[simp] theorem withInbox_params (rest : List Input) (s : State) :
    (withInbox rest s).params = s.params := rfl

/-! ## `rowDone` -/

@[simp] theorem rowDone_locs (s : State) :
    (rowDone s).locs = s.locs := rfl
@[simp] theorem rowDone_dec (s : State) :
    (rowDone s).dec = { s.dec with linesDone := s.dec.linesDone + 1 } := rfl
@[simp] theorem rowDone_errs (s : State) :
    (rowDone s).errs = s.errs := rfl
@[simp] theorem rowDone_pos (s : State) :
    (rowDone s).pos = s.pos := rfl
@[simp] theorem rowDone_spec (s : State) :
    (rowDone s).spec = s.spec := rfl
@[simp] theorem rowDone_lut (s : State) :
    (rowDone s).lut = s.lut := rfl
@[simp] theorem rowDone_tphase (s : State) :
    (rowDone s).tphase = s.tphase := rfl
@[simp] theorem rowDone_config (s : State) :
    (rowDone s).config = s.config := rfl
@[simp] theorem rowDone_capstat (s : State) :
    (rowDone s).capstat = s.capstat := rfl
@[simp] theorem rowDone_x0 (s : State) :
    (rowDone s).x0 = s.x0 := rfl
@[simp] theorem rowDone_x1 (s : State) :
    (rowDone s).x1 = s.x1 := rfl
@[simp] theorem rowDone_genValue (s : State) :
    (rowDone s).genValue = s.genValue := rfl
@[simp] theorem rowDone_genMask (s : State) :
    (rowDone s).genMask = s.genMask := rfl
@[simp] theorem rowDone_eqFlag (s : State) :
    (rowDone s).eqFlag = s.eqFlag := rfl
@[simp] theorem rowDone_hitFlag (s : State) :
    (rowDone s).hitFlag = s.hitFlag := rfl
@[simp] theorem rowDone_mem (s : State) :
    (rowDone s).mem = s.mem := rfl
@[simp] theorem rowDone_answers (s : State) :
    (rowDone s).answers = s.answers := rfl
@[simp] theorem rowDone_inbox (s : State) :
    (rowDone s).inbox = s.inbox := rfl
@[simp] theorem rowDone_out (s : State) :
    (rowDone s).out = s.out := rfl
@[simp] theorem rowDone_regw (s : State) :
    (rowDone s).regw = s.regw := rfl
@[simp] theorem rowDone_replies (s : State) :
    (rowDone s).replies = s.replies := rfl
@[simp] theorem rowDone_params (s : State) :
    (rowDone s).params = s.params := rfl

/-! ## `placeMarker` -/

@[simp] theorem placeMarker_locs (s : State) :
    (placeMarker s).locs = s.locs := rfl
@[simp] theorem placeMarker_dec (s : State) :
    (placeMarker s).dec = { s.dec with markersOut := s.dec.markersOut + 1, matched := true, armed := false } := rfl
@[simp] theorem placeMarker_errs (s : State) :
    (placeMarker s).errs = s.errs := rfl
@[simp] theorem placeMarker_pos (s : State) :
    (placeMarker s).pos = s.pos := rfl
@[simp] theorem placeMarker_spec (s : State) :
    (placeMarker s).spec = s.spec := rfl
@[simp] theorem placeMarker_lut (s : State) :
    (placeMarker s).lut = s.lut := rfl
@[simp] theorem placeMarker_tphase (s : State) :
    (placeMarker s).tphase = s.tphase := rfl
@[simp] theorem placeMarker_config (s : State) :
    (placeMarker s).config = s.config := rfl
@[simp] theorem placeMarker_capstat (s : State) :
    (placeMarker s).capstat = s.capstat := rfl
@[simp] theorem placeMarker_x0 (s : State) :
    (placeMarker s).x0 = s.x0 := rfl
@[simp] theorem placeMarker_x1 (s : State) :
    (placeMarker s).x1 = s.x1 := rfl
@[simp] theorem placeMarker_genValue (s : State) :
    (placeMarker s).genValue = s.genValue := rfl
@[simp] theorem placeMarker_genMask (s : State) :
    (placeMarker s).genMask = s.genMask := rfl
@[simp] theorem placeMarker_eqFlag (s : State) :
    (placeMarker s).eqFlag = s.eqFlag := rfl
@[simp] theorem placeMarker_hitFlag (s : State) :
    (placeMarker s).hitFlag = s.hitFlag := rfl
@[simp] theorem placeMarker_mem (s : State) :
    (placeMarker s).mem = s.mem := rfl
@[simp] theorem placeMarker_answers (s : State) :
    (placeMarker s).answers = s.answers := rfl
@[simp] theorem placeMarker_inbox (s : State) :
    (placeMarker s).inbox = s.inbox := rfl
@[simp] theorem placeMarker_out (s : State) :
    (placeMarker s).out = .trigger :: s.out := rfl
@[simp] theorem placeMarker_regw (s : State) :
    (placeMarker s).regw = s.regw := rfl
@[simp] theorem placeMarker_replies (s : State) :
    (placeMarker s).replies = s.replies := rfl
@[simp] theorem placeMarker_params (s : State) :
    (placeMarker s).params = s.params := rfl

/-! ## `served` -/

@[simp] theorem served_locs (s : State) :
    (served s).locs = s.locs := rfl
@[simp] theorem served_dec (s : State) :
    (served s).dec = s.dec := rfl
@[simp] theorem served_errs (s : State) :
    (served s).errs = s.errs := rfl
@[simp] theorem served_pos (s : State) :
    (served s).pos = s.pos := rfl
@[simp] theorem served_spec (s : State) :
    (served s).spec = s.spec := rfl
@[simp] theorem served_lut (s : State) :
    (served s).lut = s.lut := rfl
@[simp] theorem served_tphase (s : State) :
    (served s).tphase = s.tphase := rfl
@[simp] theorem served_config (s : State) :
    (served s).config = s.config := rfl
@[simp] theorem served_capstat (s : State) :
    (served s).capstat = s.capstat := rfl
@[simp] theorem served_x0 (s : State) :
    (served s).x0 = s.x0 := rfl
@[simp] theorem served_x1 (s : State) :
    (served s).x1 = s.x1 := rfl
@[simp] theorem served_genValue (s : State) :
    (served s).genValue = s.genValue := rfl
@[simp] theorem served_genMask (s : State) :
    (served s).genMask = s.genMask := rfl
@[simp] theorem served_eqFlag (s : State) :
    (served s).eqFlag = s.eqFlag := rfl
@[simp] theorem served_hitFlag (s : State) :
    (served s).hitFlag = s.hitFlag := rfl
@[simp] theorem served_mem (s : State) :
    (served s).mem = s.mem := rfl
@[simp] theorem served_answers (s : State) :
    (served s).answers = s.answers := rfl
@[simp] theorem served_inbox (s : State) :
    (served s).inbox = s.inbox.tail := rfl
@[simp] theorem served_out (s : State) :
    (served s).out = s.out := rfl
@[simp] theorem served_regw (s : State) :
    (served s).regw = s.regw := rfl
@[simp] theorem served_replies (s : State) :
    (served s).replies = s.replies := rfl
@[simp] theorem served_params (s : State) :
    (served s).params = s.params := rfl

/-! ## `recorded` -/

@[simp] theorem recorded_locs (code : BitVec 8) (info : Word) (s : State) :
    (recorded code info s).locs = s.locs := rfl
@[simp] theorem recorded_dec (code : BitVec 8) (info : Word) (s : State) :
    (recorded code info s).dec = s.dec := rfl
@[simp] theorem recorded_errs (code : BitVec 8) (info : Word) (s : State) :
    (recorded code info s).errs = ⟨true, code, info⟩ := rfl
@[simp] theorem recorded_pos (code : BitVec 8) (info : Word) (s : State) :
    (recorded code info s).pos = s.pos := rfl
@[simp] theorem recorded_spec (code : BitVec 8) (info : Word) (s : State) :
    (recorded code info s).spec = s.spec := rfl
@[simp] theorem recorded_lut (code : BitVec 8) (info : Word) (s : State) :
    (recorded code info s).lut = s.lut := rfl
@[simp] theorem recorded_tphase (code : BitVec 8) (info : Word) (s : State) :
    (recorded code info s).tphase = s.tphase := rfl
@[simp] theorem recorded_config (code : BitVec 8) (info : Word) (s : State) :
    (recorded code info s).config = s.config := rfl
@[simp] theorem recorded_capstat (code : BitVec 8) (info : Word) (s : State) :
    (recorded code info s).capstat = s.capstat := rfl
@[simp] theorem recorded_x0 (code : BitVec 8) (info : Word) (s : State) :
    (recorded code info s).x0 = s.x0 := rfl
@[simp] theorem recorded_x1 (code : BitVec 8) (info : Word) (s : State) :
    (recorded code info s).x1 = s.x1 := rfl
@[simp] theorem recorded_genValue (code : BitVec 8) (info : Word) (s : State) :
    (recorded code info s).genValue = s.genValue := rfl
@[simp] theorem recorded_genMask (code : BitVec 8) (info : Word) (s : State) :
    (recorded code info s).genMask = s.genMask := rfl
@[simp] theorem recorded_eqFlag (code : BitVec 8) (info : Word) (s : State) :
    (recorded code info s).eqFlag = s.eqFlag := rfl
@[simp] theorem recorded_hitFlag (code : BitVec 8) (info : Word) (s : State) :
    (recorded code info s).hitFlag = s.hitFlag := rfl
@[simp] theorem recorded_mem (code : BitVec 8) (info : Word) (s : State) :
    (recorded code info s).mem = s.mem := rfl
@[simp] theorem recorded_answers (code : BitVec 8) (info : Word) (s : State) :
    (recorded code info s).answers = s.answers := rfl
@[simp] theorem recorded_inbox (code : BitVec 8) (info : Word) (s : State) :
    (recorded code info s).inbox = s.inbox := rfl
@[simp] theorem recorded_out (code : BitVec 8) (info : Word) (s : State) :
    (recorded code info s).out = s.out := rfl
@[simp] theorem recorded_regw (code : BitVec 8) (info : Word) (s : State) :
    (recorded code info s).regw = s.regw := rfl
@[simp] theorem recorded_replies (code : BitVec 8) (info : Word) (s : State) :
    (recorded code info s).replies = s.replies := rfl
@[simp] theorem recorded_params (code : BitVec 8) (info : Word) (s : State) :
    (recorded code info s).params = s.params := rfl

/-! ## `withChunk` -/

@[simp] theorem withChunk_locs (n : Nat) (s : State) :
    (withChunk n s).locs = s.locs := rfl
@[simp] theorem withChunk_dec (n : Nat) (s : State) :
    (withChunk n s).dec = s.dec := rfl
@[simp] theorem withChunk_errs (n : Nat) (s : State) :
    (withChunk n s).errs = s.errs := rfl
@[simp] theorem withChunk_pos (n : Nat) (s : State) :
    (withChunk n s).pos = s.pos := rfl
@[simp] theorem withChunk_spec (n : Nat) (s : State) :
    (withChunk n s).spec = s.spec := rfl
@[simp] theorem withChunk_lut (n : Nat) (s : State) :
    (withChunk n s).lut = s.lut := rfl
@[simp] theorem withChunk_tphase (n : Nat) (s : State) :
    (withChunk n s).tphase = s.tphase := rfl
@[simp] theorem withChunk_config (n : Nat) (s : State) :
    (withChunk n s).config = s.config := rfl
@[simp] theorem withChunk_capstat (n : Nat) (s : State) :
    (withChunk n s).capstat = s.capstat := rfl
@[simp] theorem withChunk_x0 (n : Nat) (s : State) :
    (withChunk n s).x0 = s.x0 := rfl
@[simp] theorem withChunk_x1 (n : Nat) (s : State) :
    (withChunk n s).x1 = s.x1 := rfl
@[simp] theorem withChunk_genValue (n : Nat) (s : State) :
    (withChunk n s).genValue = s.genValue := rfl
@[simp] theorem withChunk_genMask (n : Nat) (s : State) :
    (withChunk n s).genMask = s.genMask := rfl
@[simp] theorem withChunk_eqFlag (n : Nat) (s : State) :
    (withChunk n s).eqFlag = s.eqFlag := rfl
@[simp] theorem withChunk_hitFlag (n : Nat) (s : State) :
    (withChunk n s).hitFlag = s.hitFlag := rfl
@[simp] theorem withChunk_mem (n : Nat) (s : State) :
    (withChunk n s).mem = s.mem := rfl
@[simp] theorem withChunk_answers (n : Nat) (s : State) :
    (withChunk n s).answers = s.answers := rfl
@[simp] theorem withChunk_inbox (n : Nat) (s : State) :
    (withChunk n s).inbox = s.inbox := rfl
@[simp] theorem withChunk_out (n : Nat) (s : State) :
    (withChunk n s).out = s.out := rfl
@[simp] theorem withChunk_regw (n : Nat) (s : State) :
    (withChunk n s).regw = s.regw := rfl
@[simp] theorem withChunk_replies (n : Nat) (s : State) :
    (withChunk n s).replies = s.replies := rfl
@[simp] theorem withChunk_params (n : Nat) (s : State) :
    (withChunk n s).params = { s.params with fetchChunkRows := n } := rfl

/-! ## `raise` -/

@[simp] theorem raise_locs (e : ErrCode) (info : Word) (s : State) :
    (raise e info s).locs = s.locs := by
  unfold raise; split <;> rfl
@[simp] theorem raise_dec (e : ErrCode) (info : Word) (s : State) :
    (raise e info s).dec = s.dec := by
  unfold raise; split <;> rfl
@[simp] theorem raise_errs (e : ErrCode) (info : Word) (s : State) :
    (raise e info s).errs = if s.errs.pending then s.errs else ⟨true, e.code, info⟩ := by
  unfold raise; split <;> rfl
@[simp] theorem raise_pos (e : ErrCode) (info : Word) (s : State) :
    (raise e info s).pos = s.pos := by
  unfold raise; split <;> rfl
@[simp] theorem raise_spec (e : ErrCode) (info : Word) (s : State) :
    (raise e info s).spec = s.spec := by
  unfold raise; split <;> rfl
@[simp] theorem raise_lut (e : ErrCode) (info : Word) (s : State) :
    (raise e info s).lut = s.lut := by
  unfold raise; split <;> rfl
@[simp] theorem raise_tphase (e : ErrCode) (info : Word) (s : State) :
    (raise e info s).tphase = s.tphase := by
  unfold raise; split <;> rfl
@[simp] theorem raise_config (e : ErrCode) (info : Word) (s : State) :
    (raise e info s).config = s.config := by
  unfold raise; split <;> rfl
@[simp] theorem raise_capstat (e : ErrCode) (info : Word) (s : State) :
    (raise e info s).capstat = s.capstat := by
  unfold raise; split <;> rfl
@[simp] theorem raise_x0 (e : ErrCode) (info : Word) (s : State) :
    (raise e info s).x0 = s.x0 := by
  unfold raise; split <;> rfl
@[simp] theorem raise_x1 (e : ErrCode) (info : Word) (s : State) :
    (raise e info s).x1 = s.x1 := by
  unfold raise; split <;> rfl
@[simp] theorem raise_genValue (e : ErrCode) (info : Word) (s : State) :
    (raise e info s).genValue = s.genValue := by
  unfold raise; split <;> rfl
@[simp] theorem raise_genMask (e : ErrCode) (info : Word) (s : State) :
    (raise e info s).genMask = s.genMask := by
  unfold raise; split <;> rfl
@[simp] theorem raise_eqFlag (e : ErrCode) (info : Word) (s : State) :
    (raise e info s).eqFlag = s.eqFlag := by
  unfold raise; split <;> rfl
@[simp] theorem raise_hitFlag (e : ErrCode) (info : Word) (s : State) :
    (raise e info s).hitFlag = s.hitFlag := by
  unfold raise; split <;> rfl
@[simp] theorem raise_mem (e : ErrCode) (info : Word) (s : State) :
    (raise e info s).mem = s.mem := by
  unfold raise; split <;> rfl
@[simp] theorem raise_answers (e : ErrCode) (info : Word) (s : State) :
    (raise e info s).answers = s.answers := by
  unfold raise; split <;> rfl
@[simp] theorem raise_inbox (e : ErrCode) (info : Word) (s : State) :
    (raise e info s).inbox = s.inbox := by
  unfold raise; split <;> rfl
@[simp] theorem raise_out (e : ErrCode) (info : Word) (s : State) :
    (raise e info s).out = s.out := by
  unfold raise; split <;> rfl
@[simp] theorem raise_regw (e : ErrCode) (info : Word) (s : State) :
    (raise e info s).regw = s.regw := by
  unfold raise; split <;> rfl
@[simp] theorem raise_replies (e : ErrCode) (info : Word) (s : State) :
    (raise e info s).replies = s.replies := by
  unfold raise; split <;> rfl
@[simp] theorem raise_params (e : ErrCode) (info : Word) (s : State) :
    (raise e info s).params = s.params := by
  unfold raise; split <;> rfl

/-! ## Registers selected by an operand -/

@[simp] theorem locations_get_set (ls : Locations) (r r' : LocReg) (l : Location) :
    (ls.set r l).get r' = if r' = r then l else ls.get r' := by
  cases r <;> cases r' <;> rfl

@[simp] theorem lutFile_table_setTable (f : LutFile) (a b : TableSel) (t : TableSet) :
    (f.setTable a t).table b = if b = a then t else f.table b := by
  cases a <;> cases b <;> rfl

@[simp] theorem lutFile_glue_setTable (f : LutFile) (a : TableSel) (g : GlueSel) (t : TableSet) :
    (f.setTable a t).glue g = f.glue g := by
  cases a <;> cases g <;> rfl

@[simp] theorem lutFile_param_setTable (f : LutFile) (a : TableSel) (i : Fin 3) (t : TableSet) :
    (f.setTable a t).param i = f.param i := by
  cases a <;> rfl

@[simp] theorem lutFile_glue_setGlue (f : LutFile) (a b : GlueSel) (v : Half) :
    (f.setGlue a v).glue b = if b = a then v else f.glue b := by
  cases a <;> cases b <;> rfl

@[simp] theorem lutFile_table_setGlue (f : LutFile) (a : GlueSel) (b : TableSel) (v : Half) :
    (f.setGlue a v).table b = f.table b := by
  cases a <;> cases b <;> rfl

@[simp] theorem lutFile_param_setGlue (f : LutFile) (a : GlueSel) (i : Fin 3) (v : Half) :
    (f.setGlue a v).param i = f.param i := by
  cases a <;> rfl

@[simp] theorem lutFile_param_setParam (f : LutFile) (i j : Fin 3) (v : Half) :
    (f.setParam i v).param j = if j = i then v else f.param j := by
  fin_cases i <;> fin_cases j <;> rfl

@[simp] theorem lutFile_table_setParam (f : LutFile) (i : Fin 3) (b : TableSel) (v : Half) :
    (f.setParam i v).table b = f.table b := by
  fin_cases i <;> cases b <;> rfl

@[simp] theorem lutFile_glue_setParam (f : LutFile) (i : Fin 3) (g : GlueSel) (v : Half) :
    (f.setParam i v).glue g = f.glue g := by
  fin_cases i <;> cases g <;> rfl

@[simp] theorem tableSet_get_set (t : TableSet) (p q : Fin 4) (v : Half) :
    (t.set p v).get q = if q = p then v else t.get q := by
  fin_cases p <;> fin_cases q <;> rfl

end Sys2Proof.Machine
end

