-- ==== Sys2Proof/Laws/Location.lean ====
section
/-! SUPPORT. The addresser: what `Inc`, `Dec`, `Pack`, `BreakDown`, `Back` and `Adjust` of
40_addresser.md do, in numbers. -/

namespace Sys2Proof.Machine

theorem Location.ext_toNat {a b : Location} (hr : a.row.toNat = b.row.toNat)
    (hc : a.cluster.toNat = b.cluster.toNat) (he : a.event.toNat = b.event.toNat) : a = b := by
  obtain ⟨r, c, e⟩ := a
  obtain ⟨r', c', e'⟩ := b
  simp only [Location.mk.injEq]
  exact ⟨BitVec.eq_of_toNat_eq hr, BitVec.eq_of_toNat_eq hc, BitVec.eq_of_toNat_eq he⟩

/-- A legal event is 0 to 6. -/
theorem Location.legal_iff (l : Location) : l.legal ↔ l.event.toNat < 7 := by
  have h := l.event.isLt
  constructor
  · intro hl
    have : l.event.toNat ≠ 7 := fun e => hl (BitVec.eq_of_toNat_eq e)
    omega
  · intro hl e
    simp [e] at hl

theorem Location.position_eq (l : Location) :
    l.position = l.row.toNat * 448 + l.cluster.toNat * 7 + l.event.toNat := by
  simp only [Location.position, Location.evIndex, Config.eventsPerRow, Config.eventsPerCluster]
  omega

/-- A location is a number below `locationCount`. -/
theorem Location.position_lt {l : Location} (hl : l.legal) : l.position < locationCount := by
  have h1 := l.row.isLt
  have h2 := l.cluster.isLt
  have h3 := (Location.legal_iff l).mp hl
  simp only [Location.position_eq, locationCount, Config.rows, Config.eventsPerRow]
  omega

/-- A location is determined by its position. -/
theorem Location.position_inj {a b : Location} (ha : a.legal) (hb : b.legal)
    (h : a.position = b.position) : a = b := by
  have h2 := a.cluster.isLt
  have h3 := (Location.legal_iff a).mp ha
  have h5 := b.cluster.isLt
  have h6 := (Location.legal_iff b).mp hb
  simp only [Location.position_eq] at h
  apply Location.ext_toNat <;> omega

theorem Location.pack_toNat (l : Location) :
    l.pack.toNat = l.row.toNat * 512 + l.cluster.toNat * 8 + l.event.toNat := by
  have h1 := l.row.isLt
  have h2 := l.cluster.isLt
  have h3 := l.event.isLt
  simp only [Location.pack, BitVec.toNat_ofNat]
  omega

/-- R136: equal raw offsets are equal locations. -/
theorem Location.pack_inj {a b : Location} (h : a.pack = b.pack) : a = b := by
  have := congrArg BitVec.toNat h
  have h2 := a.cluster.isLt
  have h3 := a.event.isLt
  have h5 := b.cluster.isLt
  have h6 := b.event.isLt
  simp only [Location.pack_toNat] at this
  apply Location.ext_toNat <;> omega

theorem Location.ofRaw_row (raw : BitVec 24) : (Location.ofRaw raw).row.toNat = raw.toNat / 512 := by
  have := raw.isLt
  simp only [Location.ofRaw, BitVec.toNat_ofNat]
  omega

theorem Location.ofRaw_cluster (raw : BitVec 24) :
    (Location.ofRaw raw).cluster.toNat = raw.toNat % 512 / 8 := by
  simp only [Location.ofRaw, BitVec.toNat_ofNat]
  omega

theorem Location.ofRaw_event (raw : BitVec 24) :
    (Location.ofRaw raw).event.toNat = raw.toNat % 8 := by
  simp only [Location.ofRaw, BitVec.toNat_ofNat]
  omega

/-- R133: `Pack(BreakDown(raw)) = raw`. -/
@[simp] theorem Location.pack_ofRaw (raw : BitVec 24) : (Location.ofRaw raw).pack = raw := by
  apply BitVec.eq_of_toNat_eq
  rw [Location.pack_toNat, Location.ofRaw_row, Location.ofRaw_cluster, Location.ofRaw_event]
  omega

/-- R131: a raw offset names a location exactly when its slot is not reserved. -/
theorem Location.ofRaw_legal (raw : BitVec 24) :
    (Location.ofRaw raw).legal ↔ reservedSlot raw = false := by
  rw [Location.legal_iff, Location.ofRaw_event]
  simp only [reservedSlot, beq_eq_false_iff_ne]
  omega

/-- R132 whole: what `BreakDown` answers. -/
theorem breakDown_cases (v : Word) :
    (v.toNat % 8 = 7 ∧ breakDown v = none) ∨
      (v.toNat % 8 ≠ 7 ∧ breakDown v = some (.ofRaw (reduceRaw v)) ∧
        (Location.ofRaw (reduceRaw v)).legal) := by
  have h : (reduceRaw v).toNat = v.toNat % 16777216 := by
    simp only [reduceRaw, BitVec.toNat_ofNat]
    omega
  simp only [breakDown, Location.ofRaw_legal, reservedSlot, h]
  by_cases h7 : v.toNat % 16777216 % 8 = 7
  · simp
    omega
  · simp
    omega

/-! ## Neighbours -/

/-- R134: the fields of the next location. -/
theorem Location.inc_toNat {l : Location} (hl : l.legal) :
    (l.inc.event.toNat, l.inc.cluster.toNat, l.inc.row.toNat) =
      if l.event.toNat < 6 then (l.event.toNat + 1, l.cluster.toNat, l.row.toNat)
      else if l.cluster.toNat < 63 then (0, l.cluster.toNat + 1, l.row.toNat)
      else (0, 0, (l.row.toNat + 1) % 32768) := by
  have h1 := l.row.isLt
  have h2 := l.cluster.isLt
  have h3 := (Location.legal_iff l).mp hl
  have e1 : l.event + 1 = 7 ↔ ¬ l.event.toNat < 6 := by
    rw [← BitVec.toNat_inj]
    simp [BitVec.toNat_add]
    omega
  have e2 : l.cluster + 1 = 0 ↔ ¬ l.cluster.toNat < 63 := by
    rw [← BitVec.toNat_inj]
    simp [BitVec.toNat_add]
    omega
  unfold Location.inc
  simp only [e1, e2]
  split_ifs <;> simp [BitVec.toNat_add] <;> omega

/-- R135: the fields of the previous location. -/
theorem Location.dec_toNat {l : Location} (hl : l.legal) :
    (l.dec.event.toNat, l.dec.cluster.toNat, l.dec.row.toNat) =
      if 0 < l.event.toNat then (l.event.toNat - 1, l.cluster.toNat, l.row.toNat)
      else if 0 < l.cluster.toNat then (6, l.cluster.toNat - 1, l.row.toNat)
      else (6, 63, (l.row.toNat + 32767) % 32768) := by
  have h1 := l.row.isLt
  have h2 := l.cluster.isLt
  have h3 := (Location.legal_iff l).mp hl
  have e1 : l.event ≠ 0 ↔ 0 < l.event.toNat := by
    rw [Ne, ← BitVec.toNat_inj]
    simp
  have e2 : l.cluster ≠ 0 ↔ 0 < l.cluster.toNat := by
    rw [Ne, ← BitVec.toNat_inj]
    simp
  unfold Location.dec
  simp only [e1, e2]
  split_ifs <;> simp [BitVec.toNat_sub] <;> omega

theorem Location.inc_legal {l : Location} (hl : l.legal) : l.inc.legal := by
  have := Location.inc_toNat hl
  have h3 := (Location.legal_iff l).mp hl
  rw [Location.legal_iff]
  split_ifs at this <;> simp only [Prod.mk.injEq] at this <;> omega

theorem Location.dec_legal {l : Location} (hl : l.legal) : l.dec.legal := by
  have := Location.dec_toNat hl
  have h3 := (Location.legal_iff l).mp hl
  rw [Location.legal_iff]
  split_ifs at this <;> simp only [Prod.mk.injEq] at this <;> omega

/-- `Inc` counts positions up, circularly. -/
theorem Location.inc_position {l : Location} (hl : l.legal) :
    l.inc.position = (l.position + 1) % locationCount := by
  have := Location.inc_toNat hl
  have h1 := l.row.isLt
  have h2 := l.cluster.isLt
  have h3 := (Location.legal_iff l).mp hl
  simp only [Location.position_eq, locationCount, Config.rows, Config.eventsPerRow]
  split_ifs at this <;> simp only [Prod.mk.injEq] at this <;> omega

/-- `Dec` counts positions down, circularly. -/
theorem Location.dec_position {l : Location} (hl : l.legal) :
    (l.dec.position + 1) % locationCount = l.position := by
  have := Location.dec_toNat hl
  have h1 := l.row.isLt
  have h2 := l.cluster.isLt
  have h3 := (Location.legal_iff l).mp hl
  simp only [Location.position_eq, locationCount, Config.rows, Config.eventsPerRow]
  split_ifs at this <;> simp only [Prod.mk.injEq] at this <;> omega

/-- R136: `Eq` is equality. -/
theorem Location.same_iff (a b : Location) : a.same b = true ↔ a = b := by
  obtain ⟨r, c, e⟩ := a
  obtain ⟨r', c', e'⟩ := b
  simp [Location.same, and_assoc]

theorem Location.back_legal {floor l : Location} (hl : l.legal) (n : Nat) :
    (Location.back floor n l).legal := by
  induction n generalizing l with
  | zero => exact hl
  | succ n ih =>
    simp only [Location.back]
    split
    · exact hl
    · exact ih (Location.dec_legal hl)

/-- R139 whole: `Back` goes back `n` events, or as many as lead to the floor. -/
theorem Location.back_position {floor l : Location} (hf : floor.legal) (hl : l.legal) (n : Nat) :
    ((Location.back floor n l).position + min n (distanceBack floor l)) % locationCount =
      l.position := by
  have hlp := Location.position_lt hl
  have hfp := Location.position_lt hf
  simp only [locationCount, Config.rows, Config.eventsPerRow, distanceBack] at *
  induction n generalizing l with
  | zero => simp only [Location.back]; omega
  | succ n ih =>
    simp only [Location.back]
    split
    · rename_i h
      rw [(Location.same_iff _ _).mp h]
      omega
    · rename_i h
      have hne : l.position ≠ floor.position := fun e =>
        h ((Location.same_iff _ _).mpr (Location.position_inj hl hf e))
      have hd := Location.dec_position hl
      have hdp := Location.position_lt (Location.dec_legal hl)
      simp only [locationCount, Config.rows, Config.eventsPerRow] at hd hdp
      have := ih (Location.dec_legal hl) hdp
      omega

/-- What `Adjust` does to a counter, R142. -/
theorem adjust_toNat (p : BitVec 24) :
    (adjust p).toNat = (let q := (p.toNat + 16777215) % 16777216
      if q % 8 = 7 then q - 1 else q) := by
  have h := p.isLt
  have h1 : (p - 1).toNat = (p.toNat + 16777215) % 16777216 := by
    simp [BitVec.toNat_sub]
    omega
  simp only [adjust, reservedSlot, h1, beq_iff_eq]
  split
  · rw [BitVec.toNat_sub, h1]
    simp
    omega
  · exact h1

/-- R142: the adjusted counter names a location. -/
theorem adjust_legal (p : BitVec 24) : (Location.ofRaw (adjust p)).legal := by
  rw [Location.legal_iff, Location.ofRaw_event, adjust_toNat]
  simp only
  split <;> omega

end Sys2Proof.Machine
end

