-- ==== Sys2Proof/Laws/Memory.lean ====
section
/-! SUPPORT. The sample memory: read after write, and the canonical form of 20_memory.md's model (log 3). -/

namespace Sys2Proof.Machine

theorem Memory.read_eq_zero_of_forall_lt {m : Memory} {a : Nat} (h : ∀ c ∈ m, a < c.1) :
    m.read a = 0 := by
  induction m with
  | nil => rfl
  | cons c rest ih =>
    obtain ⟨k, b⟩ := c
    have hk := h (k, b) (by simp)
    have : k ≠ a := by simp at hk; omega
    simp only [Memory.read, this, if_false]
    exact ih fun c hc => h c (by simp [hc])

/-- Reading a list that starts with an entry. -/
theorem Memory.read_cons (k : Nat) (v : Byte) (rest : Memory) (a : Nat) :
    Memory.read ((k, v) :: rest) a = if k = a then v else rest.read a := rfl

theorem Memory.read_write {m : Memory} (hm : m.Pairwise (fun c d => c.1 < d.1)) (a : Nat) (b : Byte)
    (a' : Nat) : (m.write a b).read a' = if a' = a then b else m.read a' := by
  induction m with
  | nil =>
    unfold Memory.write
    split
    · rename_i hb
      rw [hb]
      split <;> rfl
    · rw [Memory.read_cons]
      simp only [eq_comm]
  | cons c rest ih =>
    obtain ⟨k, v⟩ := c
    rw [List.pairwise_cons] at hm
    have hrest := ih hm.2
    have hz : ∀ x, x ≤ k → Memory.read rest x = 0 := fun x hx =>
      Memory.read_eq_zero_of_forall_lt fun c hc => lt_of_le_of_lt hx (hm.1 c hc)
    have hz' : a < k → Memory.read ((k, v) :: rest) a = 0 := fun h => by
      rw [Memory.read_cons, if_neg (by omega), hz a (by omega)]
    unfold Memory.write
    split
    · rename_i hak
      split
      · rename_i hb
        split
        · rename_i h
          rw [h, hb, hz' hak]
        · rfl
      · rw [Memory.read_cons]
        simp only [eq_comm]
    · split
      · rename_i hak
        subst hak
        split
        · rename_i hb
          split
          · rename_i h
            rw [h, hb, hz a (le_refl a)]
          · rename_i h
            rw [Memory.read_cons, if_neg (fun e => h e.symm)]
        · rw [Memory.read_cons, Memory.read_cons]
          by_cases h : a' = a
          · rw [if_pos h, if_pos h.symm]
          · rw [if_neg h, if_neg (fun e => h e.symm), if_neg (fun e => h e.symm)]
      · rename_i hak
        rw [Memory.read_cons, Memory.read_cons, hrest]
        by_cases hk : k = a'
        · rw [if_pos hk, if_pos hk, if_neg (by omega)]
        · rw [if_neg hk, if_neg hk]

theorem Memory.mem_write {m : Memory} {a : Nat} {b : Byte} {c : Host.Cell} (h : c ∈ m.write a b) :
    c ∈ m ∨ (c = (a, b) ∧ b ≠ 0) := by
  induction m with
  | nil =>
    simp only [Memory.write] at h
    split at h <;> simp_all
  | cons d rest ih =>
    obtain ⟨k, v⟩ := d
    simp only [Memory.write] at h
    split at h
    · split at h
      · exact .inl h
      · simp only [List.mem_cons] at h ⊢
        tauto
    · split at h
      · split at h
        · exact .inl (List.mem_cons_of_mem _ h)
        · simp only [List.mem_cons] at h ⊢
          tauto
      · simp only [List.mem_cons] at h ⊢
        rcases h with h | h
        · exact .inl (.inl h)
        · rcases ih h with h | h
          · exact .inl (.inr h)
          · exact .inr h

theorem Memory.pairwise_write {m : Memory} (hm : m.Pairwise (fun c d => c.1 < d.1)) (a : Nat)
    (b : Byte) : (m.write a b).Pairwise (fun c d => c.1 < d.1) := by
  induction m with
  | nil =>
    simp only [Memory.write]
    split <;> simp
  | cons d rest ih =>
    obtain ⟨k, v⟩ := d
    have hcons := hm
    rw [List.pairwise_cons] at hm
    simp only [Memory.write]
    split
    · split
      · exact hcons
      · rw [List.pairwise_cons]
        refine ⟨fun c hc => ?_, hcons⟩
        rcases List.mem_cons.mp hc with rfl | hc
        · simpa
        · have := hm.1 c hc
          simp at this ⊢
          omega
    · split
      · split
        · exact hm.2
        · rw [List.pairwise_cons]
          refine ⟨fun c hc => ?_, hm.2⟩
          have := hm.1 c hc
          simp at this ⊢
          omega
      · rw [List.pairwise_cons]
        refine ⟨fun c hc => ?_, ih hm.2⟩
        rcases Memory.mem_write hc with h | ⟨rfl, -⟩
        · exact hm.1 c h
        · simp
          omega

/-- A write inside the memory keeps the canonical form. -/
theorem Memory.wf_write {m : Memory} (hm : m.wf) {a : Nat} (ha : a < Config.memBytes) (b : Byte) :
    (m.write a b).wf := by
  refine ⟨Memory.pairwise_write hm.1 a b, fun c hc => ?_⟩
  rcases Memory.mem_write hc with h | ⟨rfl, hb⟩
  · exact hm.2 c h
  · exact ⟨hb, ha⟩

/-- Writes inside the memory keep the canonical form. -/
theorem Memory.wf_writeCells {m : Memory} (hm : m.wf) {cells : List Host.Cell}
    (h : ∀ c ∈ cells, c.1 < Config.memBytes) : (m.writeCells cells).wf := by
  induction cells generalizing m with
  | nil => exact hm
  | cons c rest ih =>
    exact ih (Memory.wf_write hm (h c (by simp)) c.2) fun d hd => h d (by simp [hd])

/-- Equal canonical memories are those that read the same everywhere. -/
theorem Memory.ext_of_read {m n : Memory} (hm : m.wf) (hn : n.wf) (h : ∀ a, m.read a = n.read a) :
    m = n := by
  induction m generalizing n with
  | nil =>
    cases n with
    | nil => rfl
    | cons c rest =>
      have := h c.1
      simp only [Memory.read, if_true] at this
      exact absurd this.symm (hn.2 c (by simp)).1
  | cons c rest ih =>
    obtain ⟨k, v⟩ := c
    have hm' := List.pairwise_cons.mp hm.1
    cases n with
    | nil =>
      have := h k
      simp only [Memory.read, if_true] at this
      exact absurd this (hm.2 (k, v) (by simp)).1
    | cons d rest' =>
      obtain ⟨l, w⟩ := d
      have hn' := List.pairwise_cons.mp hn.1
      have hk : k = l := by
        rcases lt_trichotomy k l with hlt | heq | hgt
        · have h1 := h k
          rw [Memory.read_eq_zero_of_forall_lt (m := (l, w) :: rest') (a := k)] at h1
          · simp only [Memory.read, if_true] at h1
            exact absurd h1 (hm.2 (k, v) (by simp)).1
          · intro c hc
            rcases List.mem_cons.mp hc with rfl | hc
            · exact hlt
            · exact lt_trans hlt (hn'.1 c hc)
        · exact heq
        · have h1 := h l
          rw [Memory.read_eq_zero_of_forall_lt (m := (k, v) :: rest) (a := l)] at h1
          · simp only [Memory.read, if_true] at h1
            exact absurd h1.symm (hn.2 (l, w) (by simp)).1
          · intro c hc
            rcases List.mem_cons.mp hc with rfl | hc
            · exact hgt
            · exact lt_trans hgt (hm'.1 c hc)
      subst hk
      have hv : v = w := by simpa [Memory.read] using h k
      subst hv
      have := ih (n := rest') ⟨hm'.2, fun c hc => hm.2 c (by simp [hc])⟩
        ⟨hn'.2, fun c hc => hn.2 c (by simp [hc])⟩ fun a => by
          by_cases ha : k = a
          · subst ha
            rw [Memory.read_eq_zero_of_forall_lt (m := rest) hm'.1,
              Memory.read_eq_zero_of_forall_lt (m := rest') hn'.1]
          · simpa [Memory.read, ha] using h a
      rw [this]

@[simp] theorem Memory.length_bytes (m : Memory) (addr n : Nat) : (m.bytes addr n).length = n := by
  induction n generalizing addr with
  | zero => rfl
  | succ n ih => simp [Memory.bytes, ih]

/-- Byte `i` of a run of bytes. -/
theorem Memory.getD_bytes (m : Memory) (addr n i : Nat) (h : i < n) :
    (m.bytes addr n).getD i 0 = m.read (addr + i) := by
  induction n generalizing addr i with
  | zero => omega
  | succ n ih =>
    cases i with
    | zero => simp [Memory.bytes]
    | succ i =>
      have := ih (addr + 1) i (by omega)
      simp only [Memory.bytes, List.getD_cons_succ, this]
      congr 1
      omega

end Sys2Proof.Machine
end

