-- ==== Sys2Proof/Laws/Tables.lean ====
section
/-! SUPPORT. The tables of the trigger compiler and the sub-samples, entry by entry. -/

namespace Sys2Proof.Machine

/-- Entry `j` of a generated table, 41_trigger_lutgen.md R161. -/
theorem lutTable_getLsbD (value mask : Half) (q j : Nat) (hj : j < 16) :
    (lutTable value mask q).getLsbD j = true ↔ ∀ ch, ch < 4 →
      mask.getLsbD (4 * q + ch) = true → value.getLsbD (4 * q + ch) = j.testBit ch := by
  unfold lutTable
  rw [BitVec.getLsbD_eq_getElem hj, BitVec.getElem_ofFnLE, List.all_eq_true]
  simp only [List.mem_range]
  refine forall_congr' fun ch => imp_congr_right fun _ => ?_
  cases mask.getLsbD (4 * q + ch) <;> simp

/-- R163: what `LutEval` of a generated table set decides. -/
theorem lutEval_buildLutEntry (value mask v : Half) :
    lutEval (buildLutEntry value mask) v = ((v &&& mask) == (value &&& mask)) := by
  have nib : ∀ q ch, ch < 4 → (v.extractLsb' (4 * q) 4).toNat.testBit ch = v.getLsbD (4 * q + ch) := by
    intro q ch h
    rw [← BitVec.getLsbD, BitVec.getLsbD_extractLsb']
    simp [h]
  have ent : ∀ q, (lutTable value mask q).getLsbD (v.extractLsb' (4 * q) 4).toNat = true ↔
      ∀ ch, ch < 4 → mask.getLsbD (4 * q + ch) = true →
        value.getLsbD (4 * q + ch) = v.getLsbD (4 * q + ch) := by
    intro q
    rw [lutTable_getLsbD _ _ _ _ (v.extractLsb' (4 * q) 4).isLt]
    refine forall_congr' fun ch => imp_congr_right fun h => ?_
    rw [nib q ch h]
  rw [Bool.eq_iff_iff]
  simp only [lutEval, buildLutEntry, Bool.and_eq_true, beq_iff_eq]
  have e0 := ent 0
  have e1 := ent 1
  have e2 := ent 2
  have e3 := ent 3
  simp only [Nat.mul_zero, Nat.mul_one, Nat.reduceMul] at e0 e1 e2 e3
  rw [e0, e1, e2, e3]
  constructor
  · rintro ⟨⟨⟨h0, h1⟩, h2⟩, h3⟩
    apply BitVec.eq_of_getLsbD_eq
    intro i hi
    rw [BitVec.getLsbD_and, BitVec.getLsbD_and]
    have key : mask.getLsbD i = true → value.getLsbD i = v.getLsbD i := by
      intro hm
      by_cases c0 : i < 4
      · have := h0 i c0
        rw [Nat.zero_add] at this
        exact this hm
      · by_cases c1 : i < 8
        · have := h1 (i - 4) (by omega)
          rw [Nat.add_sub_cancel' (by omega)] at this
          exact this hm
        · by_cases c2 : i < 12
          · have := h2 (i - 8) (by omega)
            rw [Nat.add_sub_cancel' (by omega)] at this
            exact this hm
          · have := h3 (i - 12) (by omega)
            rw [Nat.add_sub_cancel' (by omega)] at this
            exact this hm
    cases hm : mask.getLsbD i
    · simp
    · rw [key hm]
  · intro h
    have key : ∀ i, mask.getLsbD i = true → value.getLsbD i = v.getLsbD i := by
      intro i hm
      have := congrArg (fun x => x.getLsbD i) h
      simp only [BitVec.getLsbD_and, hm, Bool.and_true] at this
      exact this.symm
    exact ⟨⟨⟨fun ch _ => key _, fun ch _ => key _⟩, fun ch _ => key _⟩, fun ch _ => key _⟩

/-- Entry `j` of the new glue mask, 42_trigger_func.md R184. -/
theorem addTriggerFunction_getLsbD (op : Prim) (func : Combinator) (slot : EdgeSlot) (neg : Bool)
    (mask : Half) (j : Nat) (hj : j < 16) :
    (addTriggerFunction op func slot neg mask).getLsbD j =
      combine func (mask.getLsbD j)
        (usedTable op neg (j.testBit (previousBit slot)) (j.testBit (currentBit slot))) := by
  unfold addTriggerFunction
  rw [BitVec.getLsbD_eq_getElem hj, BitVec.getElem_ofFnLE]

/-- R186: the image of a primitive, entry by entry. -/
theorem primitiveImage_getLsbD (op : Prim) (slot : EdgeSlot) (neg : Bool) :
    ∀ j, j < 16 → (primitiveImage op slot neg).getLsbD j =
      usedTable op neg (j.testBit (previousBit slot)) (j.testBit (currentBit slot)) := by
  cases op <;> cases slot <;> cases neg <;> decide

/-- Bit `i` of a sub-sample, 44_decoder.md R245. -/
theorem deint_getLsbD (n : Nat) (w : Half) (k i : Nat) (hi : i < 16) :
    (deint n w k).getLsbD i = (decide (i < 16 / n) && w.getLsbD (n * i + k)) := by
  unfold deint
  rw [BitVec.getLsbD_eq_getElem hi, BitVec.getElem_ofFnLE]

/-- Bit `b` of a re-interleaved sub-sample, R245. -/
theorem reint_getLsbD (n : Nat) (v : Half) (k b : Nat) (hb : b < 16) :
    (reint n v k).getLsbD b = (decide (b % n = k) && v.getLsbD (b / n)) := by
  unfold reint
  rw [BitVec.getLsbD_eq_getElem hb, BitVec.getElem_ofFnLE]

/-- Bit `b` of a lookup-table word, 43_trigger_compile.md R212. -/
theorem lutWord_getLsbD (f : LutFile) (a b : Nat) (hb : b < 16) :
    (lutWord f a).getLsbD b = (f.tables.getD b 0).getLsbD a := by
  unfold lutWord
  rw [BitVec.getLsbD_eq_getElem hb, BitVec.getElem_ofFnLE]

/-- `SPE` is 1, 2 or 4 at the tiers that can be stored, 10_state.md R31. -/
theorem spe_eq (s : State) : spe s = 2 ^ s.config.toNat := by
  simp [spe, Nat.shiftLeft_eq]

theorem spe_cases {s : State} (h : s.config ≠ 3) : spe s = 1 ∨ spe s = 2 ∨ spe s = 4 := by
  rw [spe_eq]
  have h1 := s.config.isLt
  have h2 : s.config.toNat ≠ 3 := fun e => h (BitVec.eq_of_toNat_eq e)
  have h3 : s.config.toNat = 0 ∨ s.config.toNat = 1 ∨ s.config.toNat = 2 := by omega
  rcases h3 with h3 | h3 | h3 <;> simp [h3]

/-- `SPE` is 1, 2, 4 or, for the reserved tier, 8. -/
theorem spe_mem (s : State) : spe s ∈ [1, 2, 4, 8] := by
  rw [spe_eq]
  have := s.config.isLt
  generalize s.config.toNat = c at *
  interval_cases c <;> decide

theorem spe_pos (s : State) : 0 < spe s := by
  rw [spe_eq]
  exact Nat.two_pow_pos _

/-- 44_decoder.md R245: the sub-sample by its bits is `Deint`. -/
theorem subSample_eq_deint {n : Nat} (hn : n ∈ [1, 2, 4, 8]) (w : Half) (k : Nat) :
    subSample n w k = deint n w k := by
  have h : ∀ i : Fin 16, n * i.val < 16 ↔ i.val < 16 / n := by
    intro i
    simp only [List.mem_cons, List.not_mem_nil, or_false] at hn
    rcases hn with rfl | rfl | rfl | rfl <;> omega
  simp only [subSample, deint, decide_eq_decide.mpr (h _)]

/-- 20_memory.md R69: a word of the record by its bytes is the stored word in the sample order. -/
theorem recordWord_eq_sampleWord (order : Config.SampleOrder) (r : ClusterRecord) {e : Nat}
    (he : e < 7) : recordWord order r e = sampleWord order (r.words.getD e 0) := by
  have hlo : recordByte r (2 + 2 * e) = (r.words.getD e 0).extractLsb' 0 8 := by
    apply BitVec.eq_of_getLsbD_eq
    intro i hi
    interval_cases e <;>
      simp [recordByte, recordBits, ClusterRecord.words, hi] <;> grind
  have hhi : recordByte r (3 + 2 * e) = (r.words.getD e 0).extractLsb' 8 8 := by
    apply BitVec.eq_of_getLsbD_eq
    intro i hi
    interval_cases e <;>
      simp [recordByte, recordBits, ClusterRecord.words, hi] <;> grind
  cases order
  · simp only [recordWord, sampleWord, hlo, hhi]
    apply BitVec.eq_of_getLsbD_eq
    intro i hi
    simp only [BitVec.getLsbD_append, BitVec.getLsbD_extractLsb']
    grind
  · simp only [recordWord, sampleWord, hlo, hhi]

end Sys2Proof.Machine
end

