-- ==== Sys2Proof/Laws/Pass.lean ====
section
/-! SUPPORT. What the operations of a decode pass (44_decoder.md, 45_refinement.md) can do: each is said
once, as a frame (`OnlyPass`), as what it puts on the stream (`Emits`) and as the bookkeeping it keeps
(`RefineInv`). -/

namespace Sys2Proof.Machine

/-! ## The frame -/

/-- `t` differs from `s` only in the cursor, the stream and the bookkeeping of samples, markers and
timestamps. -/
def OnlyPass (s t : State) : Prop :=
  ∃ (iter : Location) (d : Decoder) (out : List OutItem),
    t = { s with locs := { s.locs with iter := iter }, dec := d, out := out } ∧
    d.phase = s.dec.phase ∧ d.armValid = s.dec.armValid ∧ d.linesDone = s.dec.linesDone ∧
    d.linesTotal = s.dec.linesTotal

theorem OnlyPass.refl (s : State) : OnlyPass s s := ⟨_, _, _, rfl, rfl, rfl, rfl, rfl⟩

theorem OnlyPass.trans {s t u : State} (h : OnlyPass s t) (h' : OnlyPass t u) : OnlyPass s u := by
  obtain ⟨i, d, o, rfl, h1, h2, h3, h4⟩ := h
  obtain ⟨i', d', o', rfl, h1', h2', h3', h4'⟩ := h'
  exact ⟨i', d', o', rfl, h1'.trans h1, h2'.trans h2, h3'.trans h3, h4'.trans h4⟩

theorem OnlyPass.spe {s t : State} (h : OnlyPass s t) : spe t = spe s := by
  obtain ⟨i, d, o, rfl, -⟩ := h
  rfl

theorem OnlyPass.params {s t : State} (h : OnlyPass s t) : t.params = s.params := by
  obtain ⟨i, d, o, rfl, -⟩ := h
  rfl

theorem OnlyPass.armValid {s t : State} (h : OnlyPass s t) : t.dec.armValid = s.dec.armValid := by
  obtain ⟨i, d, o, rfl, -, h, -⟩ := h
  exact h

/-- A change of the bookkeeping alone is such a change. -/
theorem OnlyPass.ofDec (s : State) (d : Decoder) (h1 : d.phase = s.dec.phase)
    (h2 : d.armValid = s.dec.armValid) (h3 : d.linesDone = s.dec.linesDone)
    (h4 : d.linesTotal = s.dec.linesTotal) : OnlyPass s { s with dec := d } :=
  ⟨s.locs.iter, d, s.out, rfl, h1, h2, h3, h4⟩

theorem placeMarker_onlyPass (s : State) : OnlyPass s (placeMarker s) :=
  ⟨s.locs.iter, _, _, rfl, rfl, rfl, rfl, rfl⟩

theorem budgetStep_onlyPass (s : State) : OnlyPass s (budgetStep s) := by
  unfold budgetStep
  split
  · exact .ofDec _ _ rfl rfl rfl rfl
  · exact .refl s

theorem armStep_onlyPass (s : State) : OnlyPass s (armStep s) := by
  unfold armStep
  split
  · exact .ofDec _ _ rfl rfl rfl rfl
  · exact .refl s

theorem forceStep_onlyPass (s : State) : OnlyPass s (forceStep s) := by
  unfold forceStep
  split
  · exact placeMarker_onlyPass s
  · exact .refl s

theorem locationCheck_onlyPass (s : State) : OnlyPass s (locationCheck s) := by
  unfold locationCheck
  split
  · exact ((budgetStep_onlyPass s).trans (armStep_onlyPass _)).trans (forceStep_onlyPass _)
  · exact .refl s

theorem softwareCheck_onlyPass (v : Half) (s : State) : OnlyPass s (softwareCheck v s) := by
  unfold softwareCheck
  split
  · exact placeMarker_onlyPass s
  · exact .refl s

theorem emitSample_onlyPass (v : Half) (s : State) : OnlyPass s (emitSample v s) :=
  (softwareCheck_onlyPass v s).trans
    ⟨(softwareCheck v s).locs.iter, _, _, rfl, rfl, rfl, rfl, rfl⟩

theorem emitFill_onlyPass (n : Nat) (s : State) : OnlyPass s (emitFill n s) := by
  induction n generalizing s with
  | zero => exact .refl s
  | succ n ih => exact (emitSample_onlyPass _ s).trans (ih _)

theorem emitSamples_onlyPass (vs : List Half) (s : State) : OnlyPass s (emitSamples vs s) := by
  induction vs generalizing s with
  | nil => exact .refl s
  | cons v rest ih => exact (emitSample_onlyPass v s).trans (ih _)

theorem setIter_onlyPass (l : Location) (s : State) : OnlyPass s (setLoc .iter l s) :=
  ⟨l, s.dec, s.out, rfl, rfl, rfl, rfl, rfl⟩

theorem runEvent_onlyPass (w : Half) (s : State) : OnlyPass s (runEvent w s) :=
  ((locationCheck_onlyPass s).trans (emitSamples_onlyPass _ _)).trans (setIter_onlyPass _ _)

theorem runEvents_onlyPass (ws : List Half) (s : State) : OnlyPass s (runEvents ws s) := by
  induction ws generalizing s with
  | nil => exact .refl s
  | cons w rest ih => exact (runEvent_onlyPass w s).trans (ih _)

theorem expectTs_onlyPass (ts : Half) (s : State) : OnlyPass s (expectTs ts s) := by
  unfold expectTs
  split
  · exact .refl s
  · exact .ofDec _ _ rfl rfl rfl rfl

theorem runRecord_onlyPass (r : ClusterRecord) (m : Nat) (s : State) :
    OnlyPass s (runRecord r m s) :=
  (((expectTs_onlyPass r.ts s).trans (emitFill_onlyPass _ _)).trans
    (.ofDec _ _ rfl rfl rfl rfl)).trans (runEvents_onlyPass _ _)

theorem decodeClusters_onlyPass (buf : List Byte) (fuel c nEv : Nat) (s : State) :
    OnlyPass s (decodeClusters buf fuel c nEv s) := by
  induction fuel generalizing c nEv s with
  | zero => exact .refl s
  | succ n ih =>
    unfold decodeClusters
    split
    · exact .refl s
    · exact (runRecord_onlyPass _ _ s).trans (ih _ _ _)

/-- R241: decoding a row changes only the cursor, the stream and the bookkeeping. -/
theorem decodeRow_onlyPass (buf : List Byte) (nEv : Nat) (s : State) :
    OnlyPass s (decodeRow buf nEv s) := decodeClusters_onlyPass _ _ _ _ s

/-! ## The cursor and the timestamp -/

theorem placeMarker_iter (s : State) : (placeMarker s).locs = s.locs := rfl

theorem softwareCheck_iter (v : Half) (s : State) : (softwareCheck v s).locs = s.locs := by
  unfold softwareCheck
  split <;> rfl

theorem locationCheck_iter (s : State) : (locationCheck s).locs = s.locs := by
  unfold locationCheck
  split
  · have h1 : ∀ s, (forceStep s).locs = s.locs := by
      intro s
      unfold forceStep
      split <;> rfl
    have h2 : ∀ s, (armStep s).locs = s.locs := by
      intro s
      unfold armStep
      split <;> rfl
    have h3 : ∀ s, (budgetStep s).locs = s.locs := by
      intro s
      unfold budgetStep
      split <;> rfl
    rw [h1, h2, h3]
  · rfl

theorem emitSample_iter (v : Half) (s : State) : (emitSample v s).locs = s.locs :=
  softwareCheck_iter v s

theorem emitFill_iter (n : Nat) (s : State) : (emitFill n s).locs = s.locs := by
  induction n generalizing s with
  | zero => rfl
  | succ n ih => exact (ih _).trans (emitSample_iter _ s)

theorem emitSamples_iter (vs : List Half) (s : State) : (emitSamples vs s).locs = s.locs := by
  induction vs generalizing s with
  | nil => rfl
  | cons v rest ih => exact (ih _).trans (emitSample_iter v s)

theorem runEvent_iter (w : Half) (s : State) :
    (runEvent w s).locs = { s.locs with iter := s.locs.iter.inc } := by
  have : ∀ vs : List Half, (emitSamples vs (locationCheck s)).locs = s.locs := fun vs =>
    (emitSamples_iter vs _).trans (locationCheck_iter s)
  simp only [runEvent, setLoc, Locations.set, this]

theorem runEvents_iter (ws : List Half) (s : State) (h : s.locs.iter.legal) :
    (runEvents ws s).locs.iter.legal ∧
      (runEvents ws s).locs.iter.position = (s.locs.iter.position + ws.length) % locationCount := by
  induction ws generalizing s with
  | nil =>
    refine ⟨h, ?_⟩
    simp only [runEvents, List.length_nil, Nat.add_zero]
    exact (Nat.mod_eq_of_lt (Location.position_lt h)).symm
  | cons w rest ih =>
    have hi : (runEvent w s).locs.iter = s.locs.iter.inc := by rw [runEvent_iter]
    have := ih (runEvent w s) (by rw [hi]; exact Location.inc_legal h)
    refine ⟨this.1, ?_⟩
    rw [runEvents, this.2, hi, Location.inc_position h, Nat.mod_add_mod, List.length_cons,
      Nat.add_assoc, Nat.add_comm 1]

/-- `LAST_TS` and `TS_VALID` are not touched by a sample. -/
theorem emitSample_ts (v : Half) (s : State) :
    (emitSample v s).dec.lastTs = s.dec.lastTs ∧ (emitSample v s).dec.tsValid = s.dec.tsValid := by
  simp only [emitSample, softwareCheck]
  split <;> exact ⟨rfl, rfl⟩

theorem emitFill_ts (n : Nat) (s : State) :
    (emitFill n s).dec.lastTs = s.dec.lastTs ∧ (emitFill n s).dec.tsValid = s.dec.tsValid := by
  induction n generalizing s with
  | zero => exact ⟨rfl, rfl⟩
  | succ n ih =>
    have h1 := ih (emitSample s.dec.lastSample s)
    have h2 := emitSample_ts s.dec.lastSample s
    exact ⟨h1.1.trans h2.1, h1.2.trans h2.2⟩

theorem emitSamples_ts (vs : List Half) (s : State) :
    (emitSamples vs s).dec.lastTs = s.dec.lastTs ∧
      (emitSamples vs s).dec.tsValid = s.dec.tsValid := by
  induction vs generalizing s with
  | nil => exact ⟨rfl, rfl⟩
  | cons v rest ih =>
    have h1 := ih (emitSample v s)
    have h2 := emitSample_ts v s
    exact ⟨h1.1.trans h2.1, h1.2.trans h2.2⟩

theorem locationCheck_ts (s : State) :
    (locationCheck s).dec.lastTs = s.dec.lastTs ∧ (locationCheck s).dec.tsValid = s.dec.tsValid := by
  unfold locationCheck
  split
  · have h1 : ∀ s, (forceStep s).dec.lastTs = s.dec.lastTs ∧
        (forceStep s).dec.tsValid = s.dec.tsValid := by
      intro s
      unfold forceStep
      split <;> exact ⟨rfl, rfl⟩
    have h2 : ∀ s, (armStep s).dec.lastTs = s.dec.lastTs ∧
        (armStep s).dec.tsValid = s.dec.tsValid := by
      intro s
      unfold armStep
      split <;> exact ⟨rfl, rfl⟩
    have h3 : ∀ s, (budgetStep s).dec.lastTs = s.dec.lastTs ∧
        (budgetStep s).dec.tsValid = s.dec.tsValid := by
      intro s
      unfold budgetStep
      split <;> exact ⟨rfl, rfl⟩
    rw [(h1 _).1, (h1 _).2, (h2 _).1, (h2 _).2, (h3 _).1, (h3 _).2]
    exact ⟨rfl, rfl⟩
  · exact ⟨rfl, rfl⟩

theorem runEvents_ts (ws : List Half) (s : State) :
    (runEvents ws s).dec.lastTs = s.dec.lastTs ∧ (runEvents ws s).dec.tsValid = s.dec.tsValid := by
  induction ws generalizing s with
  | nil => exact ⟨rfl, rfl⟩
  | cons w rest ih =>
    have h1 := ih (runEvent w s)
    have h2 := emitSamples_ts (subSamples (spe s) (sampleWord s.params.sampleOrder w)) (locationCheck s)
    have h3 := locationCheck_ts s
    exact ⟨h1.1.trans (h2.1.trans h3.1), h1.2.trans (h2.2.trans h3.2)⟩

/-- R243: after a record the expected timestamp is its own plus 7. -/
theorem runRecord_ts (r : ClusterRecord) (m : Nat) (s : State) :
    (runRecord r m s).dec.lastTs = r.ts + 7 ∧ (runRecord r m s).dec.tsValid = true := by
  have h := runEvents_ts (r.words.take m)
  have h2 := emitFill_ts (gapOf r.ts (expectTs r.ts s) * spe (expectTs r.ts s)) (expectTs r.ts s)
  have h3 : (expectTs r.ts s).dec.tsValid = true := by
    unfold expectTs
    split
    · assumption
    · rfl
  simp only [runRecord]
  refine ⟨(h _).1.trans rfl, (h _).2.trans ?_⟩
  exact h2.2.trans h3

theorem runRecord_iter (r : ClusterRecord) (m : Nat) (s : State) (hm : m ≤ 7)
    (h : s.locs.iter.legal) :
    (runRecord r m s).locs.iter.legal ∧
      (runRecord r m s).locs.iter.position = (s.locs.iter.position + m) % locationCount := by
  have e : (expectTs r.ts s).locs = s.locs := by
    unfold expectTs
    split <;> rfl
  have h2 := emitFill_iter (gapOf r.ts (expectTs r.ts s) * spe (expectTs r.ts s)) (expectTs r.ts s)
  rw [e] at h2
  have hl : (r.words.take m).length = m := by
    simp [ClusterRecord.words]
    omega
  have key : ∀ u : State, u.locs = s.locs → (runEvents (r.words.take m) u).locs.iter.legal ∧
      (runEvents (r.words.take m) u).locs.iter.position =
        (s.locs.iter.position + m) % locationCount := by
    intro u hu
    have := runEvents_iter (r.words.take m) u (by rw [hu]; exact h)
    rwa [hu, hl] at this
  exact key _ h2

/-! ## The refinement's bookkeeping -/

/-- What 45_refinement.md keeps of the flags and the budget of a pass (R273 to R279). -/
structure RefineInv (d : Decoder) : Prop where
  budget_bound : d.evtRemain.toNat ≤ 56
  armed_budget : d.armed = true → d.evtRemain ≠ 0
  armed_unmatched : d.armed = true → d.matched = false
  armed_valid : d.armed = true → d.armValid = true
  matched_valid : d.matched = true → d.armValid = true
  markers_count : d.markersOut = if d.matched then 1 else 0

theorem placeMarker_refineInv {s : State} (h : RefineInv s.dec) (hv : s.dec.armValid = true)
    (hm : s.dec.matched = false) : RefineInv (placeMarker s).dec where
  budget_bound := h.budget_bound
  armed_budget := nofun
  armed_unmatched := nofun
  armed_valid := nofun
  matched_valid := fun _ => hv
  markers_count := by
    have := h.markers_count
    rw [hm] at this
    show s.dec.markersOut + 1 = 1
    rw [this]
    rfl

theorem budgetStep_refineInv {s : State} (h : RefineInv s.dec) : RefineInv (budgetStep s).dec := by
  unfold budgetStep
  split
  · rename_i ha
    have h0 : 0 < s.dec.evtRemain.toNat := by
      have := h.armed_budget ha
      rcases Nat.eq_zero_or_pos s.dec.evtRemain.toNat with h0 | h0
      · exact absurd (BitVec.eq_of_toNat_eq h0) this
      · exact h0
    exact {
      budget_bound := by
        have := h.budget_bound
        show (s.dec.evtRemain - 1).toNat ≤ 56
        have := s.dec.evtRemain.isLt
        simp [BitVec.toNat_sub]
        omega
      armed_budget := fun hne => by simpa using hne
      armed_unmatched := fun _ => h.armed_unmatched ha
      armed_valid := fun _ => h.armed_valid ha
      matched_valid := h.matched_valid
      markers_count := h.markers_count }
  · exact h

theorem armStep_refineInv {s : State} (h : RefineInv s.dec) (hv : s.dec.armValid = true) :
    RefineInv (armStep s).dec := by
  unfold armStep
  split
  · rename_i ha
    simp only [Bool.and_eq_true, Bool.not_eq_true'] at ha
    exact {
      budget_bound := show (BitVec.ofNat 6 Config.armWindowEvents).toNat ≤ 56 by decide
      armed_budget := fun _ => show BitVec.ofNat 6 Config.armWindowEvents ≠ 0 by decide
      armed_unmatched := fun _ => ha.1.2
      armed_valid := fun _ => hv
      matched_valid := h.matched_valid
      markers_count := h.markers_count }
  · exact h

theorem forceStep_refineInv {s : State} (h : RefineInv s.dec) (hv : s.dec.armValid = true) :
    RefineInv (forceStep s).dec := by
  unfold forceStep
  split
  · rename_i ha
    simp only [Bool.and_eq_true, Bool.not_eq_true'] at ha
    exact placeMarker_refineInv h hv ha.1
  · exact h

theorem locationCheck_refineInv {s : State} (h : RefineInv s.dec) :
    RefineInv (locationCheck s).dec := by
  unfold locationCheck
  split
  · rename_i hv
    have h1 := (budgetStep_onlyPass s).armValid.trans hv
    have h2 := (armStep_onlyPass (budgetStep s)).armValid.trans h1
    exact forceStep_refineInv (armStep_refineInv (budgetStep_refineInv h) h1) h2
  · exact h

theorem softwareCheck_refineInv {s : State} (h : RefineInv s.dec) (v : Half) :
    RefineInv (softwareCheck v s).dec := by
  unfold softwareCheck
  split
  · rename_i ha
    simp only [Bool.and_eq_true, Bool.not_eq_true'] at ha
    exact placeMarker_refineInv h (h.armed_valid ha.1.1) ha.1.2
  · exact h

/-- The flags and the budget of `d'` are those of `d`. -/
theorem RefineInv.congr {d d' : Decoder} (h : RefineInv d) (h1 : d'.evtRemain = d.evtRemain)
    (h2 : d'.armed = d.armed) (h3 : d'.matched = d.matched) (h4 : d'.armValid = d.armValid)
    (h5 : d'.markersOut = d.markersOut) : RefineInv d' := by
  obtain ⟨a, b, c, e, f, g⟩ := h
  exact ⟨by rw [h1]; exact a, by rw [h1, h2]; exact b, by rw [h2, h3]; exact c,
    by rw [h2, h4]; exact e, by rw [h3, h4]; exact f, by rw [h3, h5]; exact g⟩

theorem emitSample_refineInv {s : State} (h : RefineInv s.dec) (v : Half) :
    RefineInv (emitSample v s).dec :=
  (softwareCheck_refineInv h v).congr rfl rfl rfl rfl rfl

theorem emitFill_refineInv (n : Nat) {s : State} (h : RefineInv s.dec) :
    RefineInv (emitFill n s).dec := by
  induction n generalizing s with
  | zero => exact h
  | succ n ih => exact ih (emitSample_refineInv h _)

theorem emitSamples_refineInv (vs : List Half) {s : State} (h : RefineInv s.dec) :
    RefineInv (emitSamples vs s).dec := by
  induction vs generalizing s with
  | nil => exact h
  | cons v rest ih => exact ih (emitSample_refineInv h v)

theorem runEvents_refineInv (ws : List Half) {s : State} (h : RefineInv s.dec) :
    RefineInv (runEvents ws s).dec := by
  induction ws generalizing s with
  | nil => exact h
  | cons w rest ih =>
    exact ih ((emitSamples_refineInv _ (locationCheck_refineInv h)).congr rfl rfl rfl rfl rfl)

theorem runRecord_refineInv (r : ClusterRecord) (m : Nat) {s : State} (h : RefineInv s.dec) :
    RefineInv (runRecord r m s).dec := by
  have h1 : RefineInv (expectTs r.ts s).dec := by
    unfold expectTs
    split
    · exact h
    · exact h.congr rfl rfl rfl rfl rfl
  exact runEvents_refineInv _
    ((emitFill_refineInv _ h1).congr rfl rfl rfl rfl rfl)

theorem decodeRow_refineInv (buf : List Byte) (nEv : Nat) {s : State} (h : RefineInv s.dec) :
    RefineInv (decodeRow buf nEv s).dec := by
  unfold decodeRow
  generalize Config.clustersPerRow = fuel
  generalize 0 = c
  induction fuel generalizing c nEv s with
  | zero => exact h
  | succ n ih =>
    unfold decodeClusters
    split
    · exact h
    · exact ih _ (runRecord_refineInv _ _ h) _

end Sys2Proof.Machine
end

