-- ==== Sys2Proof/Laws/Stream.lean ====
section
/-! SUPPORT. What a decode pass puts on the output stream (44_decoder.md R242 to R244, 45_refinement.md
R278 and R279), and where its cursor ends. -/

namespace Sys2Proof.Machine

/-! ## Rows -/

theorem decodeClusters_iter (buf : List Byte) (fuel c nEv : Nat) (s : State)
    (h : s.locs.iter.legal) (hn : nEv ≤ 7 * fuel) :
    (decodeClusters buf fuel c nEv s).locs.iter.legal ∧
      (decodeClusters buf fuel c nEv s).locs.iter.position =
        (s.locs.iter.position + nEv) % locationCount := by
  induction fuel generalizing c nEv s with
  | zero =>
    obtain rfl : nEv = 0 := by omega
    exact ⟨h, by
      rw [decodeClusters, Nat.add_zero, Nat.mod_eq_of_lt (Location.position_lt h)]⟩
  | succ n ih =>
    unfold decodeClusters
    split
    · rename_i h0
      rw [h0, Nat.add_zero]
      exact ⟨h, (Nat.mod_eq_of_lt (Location.position_lt h)).symm⟩
    · have hm : min Config.eventsPerCluster nEv ≤ 7 := Nat.min_le_left _ _
      have h1 := runRecord_iter (recordAt buf c) (min Config.eventsPerCluster nEv) s hm h
      have h2 := ih (c + 1) (nEv - min Config.eventsPerCluster nEv) _ h1.1 (by
        simp only [Config.eventsPerCluster]
        omega)
      refine ⟨h2.1, ?_⟩
      rw [h2.2, h1.2, Nat.mod_add_mod, Nat.add_assoc, Nat.add_sub_cancel' (Nat.min_le_right _ _)]

/-- R241: a row of `nEv` events moves the cursor that many events on. -/
theorem decodeRow_iter (buf : List Byte) (nEv : Nat) (s : State) (h : s.locs.iter.legal)
    (hn : nEv ≤ 448) :
    (decodeRow buf nEv s).locs.iter.legal ∧
      (decodeRow buf nEv s).locs.iter.position =
        (s.locs.iter.position + nEv) % locationCount :=
  decodeClusters_iter buf 64 0 nEv s h hn

/-! ## The stream -/

/-- From `s` to `t` the stream receives the samples `vs` in order and, among them, one marker exactly
when a match happens in between. -/
def Emits (vs : List Half) (s t : State) : Prop :=
  ∃ items : List OutItem, t.out = items.reverse ++ s.out ∧
    items.filter OutItem.isSample = vs.map OutItem.sample ∧
    items.count .trigger = (if t.dec.matched = true ∧ s.dec.matched = false then 1 else 0) ∧
    (s.dec.matched = true → t.dec.matched = true) ∧
    (s.dec.armValid = false → t.dec.matched = s.dec.matched) ∧
    t.dec.markersOut = s.dec.markersOut + BitVec.ofNat 2 (items.count .trigger) ∧
    t.dec.samplesOut = s.dec.samplesOut + BitVec.ofNat 64 vs.length ∧
    t.dec.lastSample = vs.getLastD s.dec.lastSample

/-- The flags under which the refinement behaves: armed only without a match and when it takes part. -/
def Checking (s : State) : Prop :=
  s.dec.armed = true → s.dec.matched = false ∧ s.dec.armValid = true

/-- Nothing emitted, nothing changed of what the stream concerns. -/
theorem Emits.ofEq {s t : State} (h1 : t.out = s.out) (h2 : t.dec.matched = s.dec.matched)
    (h3 : t.dec.markersOut = s.dec.markersOut) (h4 : t.dec.samplesOut = s.dec.samplesOut)
    (h5 : t.dec.lastSample = s.dec.lastSample) : Emits [] s t := by
  refine ⟨[], h1, rfl, ?_, fun h => h2.trans h, fun _ => h2, ?_, ?_, h5⟩
  · rw [h2]
    cases s.dec.matched <;> rfl
  · rw [h3]
    simp
  · rw [h4]
    simp

theorem Emits.trans {vs vs' : List Half} {s t u : State} (ha : t.dec.armValid = s.dec.armValid)
    (h : Emits vs s t) (h' : Emits vs' t u) : Emits (vs ++ vs') s u := by
  obtain ⟨is, o, f, c, m, n, k, q, l⟩ := h
  obtain ⟨is', o', f', c', m', n', k', q', l'⟩ := h'
  refine ⟨is ++ is', ?_, ?_, ?_, fun h => m' (m h), fun h => ?_, ?_, ?_, ?_⟩
  · rw [o', o, List.reverse_append, List.append_assoc]
  · rw [List.filter_append, f, f', List.map_append]
  · rw [List.count_append, c, c']
    have mm := m
    have mm' := m'
    cases hs : s.dec.matched <;> cases ht : t.dec.matched <;> cases hu : u.dec.matched <;>
      simp_all
  · rw [n' (ha.trans h), n h]
  · rw [k', k, List.count_append, BitVec.ofNat_add, BitVec.add_assoc]
  · rw [q', q, List.length_append, BitVec.ofNat_add, BitVec.add_assoc]
  · rw [l', l]
    cases vs' with
    | nil => simp
    | cons v rest => simp [List.getLastD_eq_getLast?]

/-- Placing the marker is one `Trigger` item. -/
theorem placeMarker_emits {s : State} (hm : s.dec.matched = false) (hv : s.dec.armValid = true) :
    Emits [] s (placeMarker s) := by
  refine ⟨[.trigger], rfl, rfl, ?_, fun _ => rfl, ?_, rfl, ?_, rfl⟩
  · rw [hm]
    rfl
  · intro h
    rw [hv] at h
    cases h
  · show s.dec.samplesOut = _
    simp

theorem placeMarker_checking (s : State) : Checking (placeMarker s) := nofun

theorem softwareCheck_emits {s : State} (v : Half) (h : Checking s) :
    Emits [] s (softwareCheck v s) ∧ Checking (softwareCheck v s) := by
  unfold softwareCheck
  split
  · rename_i ha
    simp only [Bool.and_eq_true, Bool.not_eq_true'] at ha
    exact ⟨placeMarker_emits ha.1.2 (h ha.1.1).2, placeMarker_checking s⟩
  · exact ⟨.ofEq rfl rfl rfl rfl rfl, h⟩

/-- R244: one sample. -/
theorem emitSample_emits {s : State} (v : Half) (h : Checking s) :
    Emits [v] s (emitSample v s) ∧ Checking (emitSample v s) := by
  obtain ⟨⟨is, o, f, c, m, n, k, q, -⟩, hc⟩ := softwareCheck_emits v h
  refine ⟨⟨is ++ [.sample v], ?_, ?_, ?_, m, n, ?_, ?_, rfl⟩, hc⟩
  · show OutItem.sample v :: (softwareCheck v s).out = _
    rw [o, List.reverse_append]
    rfl
  · rw [List.filter_append, f]
    rfl
  · rw [List.count_append, c]
    rfl
  · rw [List.count_append]
    exact k
  · show (softwareCheck v s).dec.samplesOut + 1 = _
    rw [q]
    simp

theorem emitSamples_emits (vs : List Half) {s : State} (h : Checking s) :
    Emits vs s (emitSamples vs s) ∧ Checking (emitSamples vs s) := by
  induction vs generalizing s with
  | nil => exact ⟨.ofEq rfl rfl rfl rfl rfl, h⟩
  | cons v rest ih =>
    have h1 := emitSample_emits v h
    have h2 := ih h1.2
    exact ⟨h1.1.trans (emitSample_onlyPass v s).armValid h2.1, h2.2⟩

/-- R242: the fill of a gap repeats the last sample. -/
theorem emitFill_eq (n : Nat) (s : State) :
    emitFill n s = emitSamples (List.replicate n s.dec.lastSample) s := by
  induction n generalizing s with
  | zero => rfl
  | succ n ih =>
    rw [emitFill, ih, List.replicate_succ, emitSamples]
    rfl

theorem budgetStep_emits {s : State} (h : Checking s) :
    Emits [] s (budgetStep s) ∧ Checking (budgetStep s) := by
  unfold budgetStep
  split
  · rename_i ha
    exact ⟨.ofEq rfl rfl rfl rfl rfl, fun _ => h ha⟩
  · exact ⟨.ofEq rfl rfl rfl rfl rfl, h⟩

theorem armStep_emits {s : State} (h : Checking s) (hv : s.dec.armValid = true) :
    Emits [] s (armStep s) ∧ Checking (armStep s) := by
  unfold armStep
  split
  · rename_i ha
    simp only [Bool.and_eq_true, Bool.not_eq_true'] at ha
    exact ⟨.ofEq rfl rfl rfl rfl rfl, fun _ => ⟨ha.1.2, hv⟩⟩
  · exact ⟨.ofEq rfl rfl rfl rfl rfl, h⟩

theorem forceStep_emits {s : State} (h : Checking s) (hv : s.dec.armValid = true) :
    Emits [] s (forceStep s) ∧ Checking (forceStep s) := by
  unfold forceStep
  split
  · rename_i ha
    simp only [Bool.and_eq_true, Bool.not_eq_true'] at ha
    exact ⟨placeMarker_emits ha.1 hv, placeMarker_checking s⟩
  · exact ⟨.ofEq rfl rfl rfl rfl rfl, h⟩

/-- R272: the location check emits no sample. -/
theorem locationCheck_emits {s : State} (h : Checking s) :
    Emits [] s (locationCheck s) ∧ Checking (locationCheck s) := by
  unfold locationCheck
  split
  · rename_i hv
    have h1 := budgetStep_emits h
    have e1 := (budgetStep_onlyPass s).armValid
    have h2 := armStep_emits h1.2 (e1.trans hv)
    have e2 := (armStep_onlyPass (budgetStep s)).armValid
    have h3 := forceStep_emits h2.2 (e2.trans (e1.trans hv))
    exact ⟨(h1.1.trans e1 h2.1).trans (e2.trans e1) h3.1, h3.2⟩
  · exact ⟨.ofEq rfl rfl rfl rfl rfl, h⟩

theorem runEvent_emits (w : Half) {s : State} (h : Checking s) :
    Emits (subSamples (spe s) (sampleWord s.params.sampleOrder w)) s (runEvent w s) ∧
      Checking (runEvent w s) := by
  have h1 := locationCheck_emits h
  have h2 := emitSamples_emits (subSamples (spe s) (sampleWord s.params.sampleOrder w)) h1.2
  exact ⟨h1.1.trans (locationCheck_onlyPass s).armValid h2.1, h2.2⟩

theorem runEvents_emits (ws : List Half) {s : State} (h : Checking s) :
    Emits (ws.flatMap fun w => subSamples (spe s) (sampleWord s.params.sampleOrder w)) s
      (runEvents ws s) ∧ Checking (runEvents ws s) := by
  induction ws generalizing s with
  | nil => exact ⟨.ofEq rfl rfl rfl rfl rfl, h⟩
  | cons w rest ih =>
    have h1 := runEvent_emits w h
    have h2 := ih h1.2
    have f := runEvent_onlyPass w s
    rw [f.spe, f.params] at h2
    exact ⟨h1.1.trans f.armValid h2.1, h2.2⟩

theorem expectTs_lastTs (ts : Half) (s : State) :
    (expectTs ts s).dec.lastTs = (expectedTs s).getD ts := by
  unfold expectTs expectedTs
  cases s.dec.tsValid <;> rfl

/-- The samples of a record, from its words. -/
theorem recordSamples_eq {n : Nat} (hn : n ∈ [1, 2, 4, 8]) (order : Config.SampleOrder)
    (expected : Option Half) (last : Half) (r : ClusterRecord) {m : Nat} (hm : m ≤ 7) :
    recordSamples n order expected last r m =
      List.replicate ((r.ts - expected.getD r.ts).toNat * n) last ++
        (r.words.take m).flatMap fun w => subSamples n (sampleWord order w) := by
  have hw : r.words.take m = (List.range m).map fun e => r.words.getD e 0 := by
    interval_cases m <;> rfl
  have hs : ∀ w, subSample n w = deint n w := fun w => funext (subSample_eq_deint hn w)
  rw [recordSamples, hw, List.flatMap_map]
  refine congrArg (_ ++ ·) (List.flatMap_congr fun e he => ?_)
  have he : e < 7 := by
    have := List.mem_range.mp he
    omega
  simp only [recordWord_eq_sampleWord order r he, hs, subSamples]

/-- R242 whole: the samples of one record. -/
theorem runRecord_emits (r : ClusterRecord) {m : Nat} (hm : m ≤ 7) {s : State} (h : Checking s) :
    Emits (recordSamples (spe s) s.params.sampleOrder (expectedTs s) s.dec.lastSample r m) s
      (runRecord r m s) ∧ Checking (runRecord r m s) := by
  have e : expectTs r.ts s = { s with dec := (expectTs r.ts s).dec } ∧
      Emits [] s (expectTs r.ts s) ∧ Checking (expectTs r.ts s) ∧
      (expectTs r.ts s).dec.lastSample = s.dec.lastSample := by
    unfold expectTs
    split
    · exact ⟨rfl, .ofEq rfl rfl rfl rfl rfl, h, rfl⟩
    · exact ⟨rfl, .ofEq rfl rfl rfl rfl rfl, h, rfl⟩
  have f := expectTs_onlyPass r.ts s
  have h1 := emitSamples_emits
    (List.replicate (gapOf r.ts (expectTs r.ts s) * spe (expectTs r.ts s)) s.dec.lastSample) e.2.2.1
  rw [← e.2.2.2, ← emitFill_eq] at h1
  have f1 := emitFill_onlyPass (gapOf r.ts (expectTs r.ts s) * spe (expectTs r.ts s))
    (expectTs r.ts s)
  have h2 : ∀ (d : Decoder) (u : State), Checking u → d.armed = u.dec.armed →
      d.matched = u.dec.matched → d.armValid = u.dec.armValid → d.markersOut = u.dec.markersOut →
      d.samplesOut = u.dec.samplesOut → d.lastSample = u.dec.lastSample → spe u = spe s →
      u.params = s.params →
      Emits ((r.words.take m).flatMap fun w => subSamples (spe s) (sampleWord s.params.sampleOrder w))
        u (runEvents (r.words.take m) { u with dec := d }) ∧
        Checking (runEvents (r.words.take m) { u with dec := d }) := by
    intro d u hu a1 a2 a3 a4 a5 a6 a7 a8
    have hc : Checking { u with dec := d } := by
      intro ha
      have := hu (a1.symm.trans ha)
      exact ⟨a2.trans this.1, a3.trans this.2⟩
    have := runEvents_emits (r.words.take m) hc
    have e7 : spe { u with dec := d } = spe s := a7
    have e8 : ({ u with dec := d } : State).params = s.params := a8
    rw [e7, e8] at this
    exact ⟨(Emits.ofEq (s := u) (t := { u with dec := d }) rfl a2 a4 a5 a6).trans a3 this.1, this.2⟩
  have h3 := h2 { (emitFill (gapOf r.ts (expectTs r.ts s) * spe (expectTs r.ts s))
      (expectTs r.ts s)).dec with lastTs := r.ts + BitVec.ofNat 16 Config.eventsPerCluster }
    _ h1.2 rfl rfl rfl rfl rfl rfl (f1.spe.trans f.spe) (f1.params.trans f.params)
  refine ⟨?_, h3.2⟩
  have := (e.2.1.trans f.armValid h1.1).trans (f1.armValid.trans f.armValid) h3.1
  simp only [List.nil_append, f.spe, e.2.2.2] at this
  have hg : gapOf r.ts (expectTs r.ts s) = (r.ts - (expectedTs s).getD r.ts).toNat := by
    rw [gapOf, expectTs_lastTs]
  rw [hg] at this
  rw [recordSamples_eq (spe_mem s) _ _ _ _ hm]
  simp only [runRecord, hg, f.spe]
  exact this

/-- The number of samples of a record, R242. -/
theorem recordSamples_length (n : Nat) (order : Config.SampleOrder) (expected : Option Half)
    (last : Half) (r : ClusterRecord) (m : Nat) :
    (recordSamples n order expected last r m).length =
      ((r.ts - expected.getD r.ts).toNat + m) * n := by
  simp only [recordSamples, List.length_append, List.length_replicate, List.length_flatMap,
    List.length_map, List.length_range, List.map_const', List.sum_replicate, smul_eq_mul]
  ring

end Sys2Proof.Machine
end

