-- ==== Sys2Proof/Laws/Ops.lean ====
section
/-! SUPPORT. What the shared operations of Machine/Ops.lean can do, each said once: the error entry, the
gate, the phase checks, the row read, the capture event. -/

namespace Sys2Proof.Machine

/-- 60_exceptions.md R326 whole: the first error is recorded, a later one leaves the record. -/
theorem raise_cases (e : ErrCode) (info : Word) (s : State) :
    (s.errs.pending = true ∧ raise e info s = s) ∨
      (s.errs.pending = false ∧ raise e info s = recorded e.code info s) := by
  unfold raise
  cases h : s.errs.pending
  · exact .inr ⟨rfl, rfl⟩
  · exact .inl ⟨rfl, rfl⟩

theorem raise_of_none {s : State} (h : s.errs.pending = false) (e : ErrCode) (info : Word) :
    raise e info s = recorded e.code info s := by
  simp [raise, recorded, h]

/-- R328: the gate. -/
theorem gated_of_none {s : State} (h : s.errs.pending = false) (body : State → State) :
    gated body s = body s := by simp [gated, h]

theorem gated_of_pending {s : State} (h : s.errs.pending = true) (body : State → State) :
    gated body s = s := by simp [gated, h]

/-- R323 for the operations bound to a phase of unit D: what such an operation does. -/
theorem inPhase_cases (ph : DPhase) (w : Word) (body : State → State) (s : State) :
    (s.errs.pending = true ∧ inPhase ph w body s = s) ∨
    (s.errs.pending = false ∧ s.dec.phase = ph ∧ inPhase ph w body s = body s) ∨
    (s.errs.pending = false ∧ s.dec.phase ≠ ph ∧ inPhase ph w body s = recorded 0x52 w s) := by
  unfold inPhase gated
  cases h : s.errs.pending
  · by_cases hp : s.dec.phase = ph
    · exact .inr (.inl ⟨rfl, hp, by simp [hp]⟩)
    · exact .inr (.inr ⟨rfl, hp, by simp [hp, raise_of_none h, ErrCode.code]⟩)
  · exact .inl ⟨rfl, by simp⟩

/-- R323 for the operations that write the lookup-table file. -/
theorem unlessSent_cases (w : Word) (body : State → State) (s : State) :
    (s.errs.pending = true ∧ unlessSent w body s = s) ∨
    (s.errs.pending = false ∧ s.tphase ≠ .sent ∧ unlessSent w body s = body s) ∨
    (s.errs.pending = false ∧ s.tphase = .sent ∧ unlessSent w body s = recorded 0x52 w s) := by
  unfold unlessSent gated
  cases h : s.errs.pending
  · by_cases hp : s.tphase = .sent
    · exact .inr (.inr ⟨rfl, hp, by simp [hp, raise_of_none h, ErrCode.code]⟩)
    · exact .inr (.inl ⟨rfl, hp, by simp [hp]⟩)
  · exact .inl ⟨rfl, by simp⟩

/-- 30_encoding.md R94 for the sub-sample index. -/
theorem withSub_cases (w : Word) (k : Nat) (body : State → State) (s : State) :
    (s.errs.pending = true ∧ withSub w k body s = s) ∨
    (s.errs.pending = false ∧ k < spe s ∧ withSub w k body s = body s) ∨
    (s.errs.pending = false ∧ spe s ≤ k ∧ withSub w k body s = recorded 0x51 w s) := by
  unfold withSub gated
  cases h : s.errs.pending
  · by_cases hp : k < spe s
    · exact .inr (.inl ⟨rfl, hp, by simp [hp]⟩)
    · exact .inr (.inr ⟨rfl, by omega, by simp [hp, raise_of_none h, ErrCode.code]⟩)
  · exact .inl ⟨rfl, by simp⟩

/-- 20_memory.md R64 whole: a row read answers the memory, other bytes or `IoError`, and uses up an
answer of the environment. -/
theorem readRow_cases (row : BitVec 15) (s : State) :
    ∃ rest, (readRow row s).2 = { s with answers := rest } ∧
      ((readRow row s).1 = some (s.mem.row row) ∨ (readRow row s).1 = none ∨
        ∃ buf, s.answers = .supplied buf :: rest ∧ (readRow row s).1 = some buf) := by
  unfold readRow
  split
  · rename_i h
    exact ⟨s.answers, rfl, .inl rfl⟩
  · exact ⟨_, rfl, .inl rfl⟩
  · rename_i bytes rest h
    exact ⟨rest, rfl, .inr (.inr ⟨bytes, h, rfl⟩)⟩
  · exact ⟨_, rfl, .inr (.inl rfl)⟩

theorem readRow_memory {s : State} (h : s.answers = []) (row : BitVec 15) :
    readRow row s = (some (s.mem.row row), s) := by
  simp [readRow, h]

/-- Log 5 whole: a capture event stores its bytes, or stops at the first address outside the memory. -/
theorem captureCells_cases (cells : List Host.Cell) (s : State) :
    (∃ c ∈ cells, 33554432 ≤ c.1 ∧ captureCells cells s = .fault (.noSuchAddress c.1)) ∨
      ((∀ c ∈ cells, c.1 < 33554432) ∧
        captureCells cells s = .next { s with mem := s.mem.writeCells cells }) := by
  unfold captureCells
  cases h : cells.find? (fun c => Config.memBytes ≤ c.1) with
  | some c =>
    have h1 := List.find?_some h
    exact .inl ⟨c, List.mem_of_find?_eq_some h, of_decide_eq_true h1, rfl⟩
  | none =>
    refine .inr ⟨fun c hc => ?_, rfl⟩
    have h1 : ¬ Config.memBytes ≤ c.1 := fun hle =>
      List.find?_eq_none.mp h c hc (decide_eq_true hle)
    have h2 : Config.memBytes = 33554432 := rfl
    omega

/-- 44_decoder.md R241: at most 7 events of a record are due. -/
theorem eventsDue_le (s : State) : eventsDue s ≤ 7 := Nat.min_le_left _ _

/-- R242: the record operation whole. -/
theorem execCluster_cases (r : ClusterRecord) (s : State) :
    (eventsDue s = 0 ∧ execCluster r s = .next s) ∨
      (eventsDue s ≠ 0 ∧ execCluster r s = .next (runRecord r (eventsDue s) s)) := by
  unfold execCluster
  by_cases h : eventsDue s = 0
  · exact .inl ⟨h, by simp [h]⟩
  · exact .inr ⟨h, by simp [h]⟩

end Sys2Proof.Machine
end

