-- ==== Sys2Proof/Laws/PerInstr.lean ====
section
/-! SUPPORT. Statements made per instruction. The family `OpcodeRow`: the encoded word of a well-formed
instruction lies in its row of spec/opcode_table.json (30_encoding.md R93: `w & mask = match`); a record
has no such row (R100). -/

namespace Sys2Proof.Laws

/-- The encoding of `i` agrees with match and mask of its row. -/
def OpcodeRow.Statement (i : Instr) : Prop :=
  i.wf = true →
    match encode i with
    | .command w => w &&& (opcodeRow i).2 = (opcodeRow i).1
    | .record _ => (opcodeRow i).2 = 0

theorem OpcodeRow.sysNop : OpcodeRow.Statement .sysNop := fun _ => rfl

theorem OpcodeRow.sysReset : OpcodeRow.Statement .sysReset := fun _ => rfl

theorem OpcodeRow.sysInit : OpcodeRow.Statement .sysInit := fun _ => rfl

theorem OpcodeRow.locInc (lr : LocReg) : OpcodeRow.Statement (.locInc lr) := by
  intro _
  cases lr <;> rfl

theorem OpcodeRow.locDec (lr : LocReg) : OpcodeRow.Statement (.locDec lr) := by
  intro _
  cases lr <;> rfl

theorem OpcodeRow.locBack (lr : LocReg) (n : Nat) : OpcodeRow.Statement (.locBack lr n) := by
  intro _
  show commandWord (.locBack lr n) &&& 0xFFFF00F8 = 0x12000000
  cases lr <;> simp only [commandWord, place, LocReg.code] <;>
    (apply BitVec.eq_of_getLsbD_eq
     intro i hi
     interval_cases i <;> simp)

theorem OpcodeRow.locCmp (la lb : LocReg) : OpcodeRow.Statement (.locCmp la lb) := by
  intro _
  cases la <;> cases lb <;> rfl

theorem OpcodeRow.locMov (la lb : LocReg) : OpcodeRow.Statement (.locMov la lb) := by
  intro _
  cases la <;> cases lb <;> rfl

theorem OpcodeRow.posDecode : OpcodeRow.Statement .posDecode := fun _ => rfl

theorem OpcodeRow.trgLutgen (set : TableSel) : OpcodeRow.Statement (.trgLutgen set) := by
  intro _
  cases set <;> rfl

theorem OpcodeRow.trgFunc (op : Prim) (func : Combinator) (slot : EdgeSlot) (neg : Bool)
    (target : GlueSel) : OpcodeRow.Statement (.trgFunc op func slot neg target) := by
  intro _
  cases op <;> cases func <;> cases slot <;> cases neg <;> cases target <;> rfl

theorem OpcodeRow.trgCompile : OpcodeRow.Statement .trgCompile := fun _ => rfl

theorem OpcodeRow.trgXmit : OpcodeRow.Statement .trgXmit := fun _ => rfl

theorem OpcodeRow.trgEval (set : TableSel) : OpcodeRow.Statement (.trgEval set) := by
  intro _
  cases set <;> rfl

theorem OpcodeRow.decSetup : OpcodeRow.Statement .decSetup := fun _ => rfl

theorem OpcodeRow.decStep : OpcodeRow.Statement .decStep := fun _ => rfl

theorem OpcodeRow.decDeint (k : Nat) : OpcodeRow.Statement (.decDeint k) := by
  intro h
  have hk : k < 4 := by simpa [Instr.wf] using h
  interval_cases k <;> rfl

theorem OpcodeRow.decReint (k : Nat) : OpcodeRow.Statement (.decReint k) := by
  intro h
  have hk : k < 4 := by simpa [Instr.wf] using h
  interval_cases k <;> rfl

theorem OpcodeRow.cluster (r : ClusterRecord) : OpcodeRow.Statement (.cluster r) := fun _ => rfl

end Sys2Proof.Laws
end

