-- ==== Sys2Proof/Laws/Window.lean ====
section
/-! SUPPORT. Where a record's marker stands and how the refinement window moves (45_refinement.md R272 to
R278): samples first, then one event, then the events of a record one after the other. -/

namespace Sys2Proof.Machine

/-! ## The match, channel by channel -/

theorem half_eq_iff (a b : Half) : a = b ↔ ∀ c, c < 16 → a.getLsbD c = b.getLsbD c :=
  ⟨fun h c _ => by rw [h], fun h => BitVec.eq_of_getLsbD_eq h⟩

/-- 45_refinement.md R276: the refinement's `Match` is the match channel by channel. -/
theorem triggerMatch_eq_matchesSpec (mode : Config.EdgeMode) (p : TriggerSpec) (prev cur : Half) :
    triggerMatch mode p prev cur = matchesSpec mode p prev cur := by
  have hl : ((cur &&& p.simpleMask) == (p.simpleValue &&& p.simpleMask)) =
      (List.range 16).all fun c => !p.simpleMask.getLsbD c ||
        cur.getLsbD c == p.simpleValue.getLsbD c := by
    rw [Bool.eq_iff_iff, beq_iff_eq, half_eq_iff, List.all_eq_true]
    simp only [List.mem_range, BitVec.getLsbD_and]
    refine forall₂_congr fun c _ => ?_
    cases p.simpleMask.getLsbD c <;> simp
  have hn : (p.risingMask ||| p.fallingMask = 0) ↔
      ((List.range 16).all fun c => !p.risingMask.getLsbD c && !p.fallingMask.getLsbD c) = true := by
    rw [half_eq_iff, List.all_eq_true]
    simp only [List.mem_range, BitVec.getLsbD_or]
    refine forall₂_congr fun c _ => ?_
    cases p.risingMask.getLsbD c <;> simp
  unfold triggerMatch matchesSpec
  simp only [hl, hn]
  generalize ((List.range 16).all fun c => !p.simpleMask.getLsbD c ||
    cur.getLsbD c == p.simpleValue.getLsbD c) = level
  cases ((List.range 16).all fun c => !p.risingMask.getLsbD c && !p.fallingMask.getLsbD c)
  · simp only [Bool.false_eq_true, if_false, Bool.false_or]
    cases mode with
    | any =>
      refine congrArg (level && ·) ?_
      rw [Bool.eq_iff_iff, bne_iff_ne, ne_eq, half_eq_iff, List.any_eq_true]
      simp only [List.mem_range, not_forall, exists_prop]
      refine exists_congr fun c => and_congr_right fun hc => ?_
      simp only [BitVec.getLsbD_or, BitVec.getLsbD_and, BitVec.getLsbD_not, hc, decide_true, Bool.true_and]
      cases prev.getLsbD c <;> cases cur.getLsbD c <;> simp
    | all =>
      rw [Bool.and_assoc]
      refine congrArg (level && ·) ?_
      rw [Bool.eq_iff_iff, Bool.and_eq_true, beq_iff_eq, beq_iff_eq, half_eq_iff, half_eq_iff,
        ← forall₂_and, List.all_eq_true]
      simp only [List.mem_range]
      refine forall₂_congr fun c hc => ?_
      simp only [BitVec.getLsbD_and, BitVec.getLsbD_not, hc, decide_true, Bool.true_and]
      cases prev.getLsbD c <;> cases cur.getLsbD c <;> simp
  · simp

/-! ## Samples -/

/-- Sample `i` of the samples listed is a software match on the state (R275). -/
def hits (u : State) (vs : List Half) (i : Nat) : Bool :=
  u.dec.armed && !u.dec.matched && matchesSpec u.params.edgeMode u.spec
    ((u.dec.lastSample :: vs).getD i 0) (vs.getD i 0)

/-- The state after samples, with what is put on the stream. -/
def streamed (u : State) (vs : List Half) (items : List OutItem) : State :=
  { u with
    out := items.reverse ++ u.out
    dec := { u.dec with
      lastSample := vs.getLastD u.dec.lastSample
      samplesOut := u.dec.samplesOut + BitVec.ofNat 64 vs.length } }

theorem emitSample_of_not_hits {u : State} {v : Half} {vs : List Half}
    (h : hits u (v :: vs) 0 = false) : emitSample v u = streamed u [v] [.sample v] := by
  have : softwareCheck v u = u := by
    unfold softwareCheck
    rw [triggerMatch_eq_matchesSpec]
    exact if_neg (by simpa [hits] using h)
  simp only [emitSample, this]
  rfl

theorem emitSample_of_hits {u : State} {v : Half} {vs : List Half} (h : hits u (v :: vs) 0 = true) :
    emitSample v u = streamed (placeMarker u) [v] [.sample v] := by
  have : softwareCheck v u = placeMarker u := by
    unfold softwareCheck
    rw [triggerMatch_eq_matchesSpec]
    exact if_pos (by simpa [hits] using h)
  simp only [emitSample, this]
  rfl

theorem streamed_streamed (u : State) (v : Half) (vs : List Half) (is js : List OutItem) :
    streamed (streamed u [v] is) vs js = streamed u (v :: vs) (is ++ js) := by
  simp [streamed, List.getLastD_eq_getLast?, List.getLast?_cons, BitVec.add_assoc,
    Nat.add_comm vs.length, BitVec.ofNat_add]

theorem hits_tail (u : State) (v : Half) (vs : List Half) (is : List OutItem) (i : Nat) :
    hits (streamed u [v] is) vs i = hits u (v :: vs) (i + 1) := by
  simp [hits, streamed]

/-- Samples none of which is a software match are put on the stream as they are. -/
theorem emitSamples_of_not_hits (vs : List Half) (u : State)
    (h : ∀ i, i < vs.length → hits u vs i = false) :
    emitSamples vs u = streamed u vs (vs.map .sample) := by
  induction vs generalizing u with
  | nil => simp [emitSamples, streamed]
  | cons v rest ih =>
    rw [emitSamples, emitSample_of_not_hits (h 0 (Nat.zero_lt_succ _)), ih, streamed_streamed]
    · rfl
    · intro i hi
      rw [hits_tail]
      exact h (i + 1) (Nat.succ_lt_succ hi)

theorem hits_of_matched {u : State} (h : u.dec.matched = true) (vs : List Half) (i : Nat) :
    hits u vs i = false := by
  simp [hits, h]

/-- The first software match among samples gets the marker. -/
theorem emitSamples_of_hits (vs : List Half) (u : State) (i : Nat) (hi : i < vs.length)
    (hq : ∀ j, j < i → hits u vs j = false) (hm : hits u vs i = true) :
    emitSamples vs u = streamed { u with dec := { u.dec with
      markersOut := u.dec.markersOut + 1, matched := true, armed := false } } vs (markedAt vs i) := by
  induction vs generalizing u i with
  | nil => exact absurd hi (Nat.not_lt_zero _)
  | cons v rest ih =>
    cases i with
    | zero =>
      rw [emitSamples, emitSample_of_hits hm, emitSamples_of_not_hits _ _ fun j _ =>
        hits_of_matched rfl _ _, streamed_streamed]
      simp [streamed, placeMarker, emit, markedAt]
    | succ i =>
      rw [emitSamples, emitSample_of_not_hits (hq 0 (Nat.zero_lt_succ _)),
        ih _ i (Nat.lt_of_succ_lt_succ hi) (fun j hj => ?_) (by rw [hits_tail]; exact hm)]
      · exact streamed_streamed { u with dec := { u.dec with
          markersOut := u.dec.markersOut + 1, matched := true, armed := false } } v rest _ _
      · rw [hits_tail]
        exact hq (j + 1) (Nat.succ_lt_succ hj)

/-! ## The window at one event -/

/-- The refinement takes part and has emitted no marker. -/
structure Open (u : State) : Prop where
  iter_legal : u.locs.iter.legal
  arm_valid : u.dec.armValid = true
  unmatched : u.dec.matched = false
  budget : u.dec.armed = true → u.dec.evtRemain ≠ 0

/-- The refinement does nothing any more. -/
def Closed (u : State) : Prop :=
  u.dec.armed = false ∧ (u.dec.armValid = false ∨ u.dec.matched = true)

theorem Closed.not_hits {u : State} (h : Closed u) (vs : List Half) (i : Nat) :
    hits u vs i = false := by
  simp [hits, h.1]

theorem Closed.locationCheck {u : State} (h : Closed u) : locationCheck u = u := by
  obtain ⟨h1, h2 | h2⟩ := h
  · simp [Machine.locationCheck, h2]
  · simp [Machine.locationCheck, budgetStep, armStep, forceStep, h1, h2]

theorem standsAt_zero {u : State} (h : u.locs.iter.legal) (l : Location) :
    standsAt u l 0 = u.locs.iter.same l := by
  rw [Bool.eq_iff_iff, Location.same_iff, standsAt, decide_eq_true_iff, Nat.add_zero,
    Nat.mod_eq_of_lt (Location.position_lt h)]
  exact ⟨fun ⟨hl, hp⟩ => Location.position_inj h hl hp.symm, fun e => e ▸ ⟨h, rfl⟩⟩

/-- The flags of the window after the location check of an event. -/
def windowed (u : State) : State :=
  { u with dec := { u.dec with
    armed := checksAt u 0, evtRemain := BitVec.ofNat 6 (budgetAt u 0) } }

theorem windowed_eq {u : State} {a : Bool} {e : BitVec 6} (ha : checksAt u 0 = a)
    (he : BitVec.ofNat 6 (budgetAt u 0) = e) :
    windowed u = { u with dec := { u.dec with armed := a, evtRemain := e } } := by
  subst ha he
  rfl

/-- R273, R274 at one event. -/
theorem armStep_budgetStep {u : State} (h : Open u) : armStep (budgetStep u) = windowed u := by
  have hz := standsAt_zero h.iter_legal u.locs.arm
  have hb := h.budget
  have hm := h.unmatched
  have hs : ∀ x : BitVec 6, (x - 1 != 0) = decide (x.toNat ≠ 1) := by decide
  have hp : ∀ x : BitVec 6, x ≠ 0 → BitVec.ofNat 6 (x.toNat - 1) = x - 1 := by decide
  have ha : armsAt u 0 = (u.locs.iter.same u.locs.arm &&
      (!u.dec.armed || decide (u.dec.evtRemain.toNat ≤ 1))) := by rw [armsAt, hz]
  have hc : checksAt u 0 = (u.dec.armed && decide (1 < u.dec.evtRemain.toNat) || armsAt u 0) := by
    simp [checksAt]
  have hg : budgetAt u 0 = if armsAt u 0 then 56 else
      if u.dec.armed then u.dec.evtRemain.toNat - 1 else u.dec.evtRemain.toNat := by
    cases h' : armsAt u 0 <;> simp [budgetAt, h']
  have hbs : budgetStep u = if u.dec.armed then { u with dec := { u.dec with
      armed := decide (u.dec.evtRemain.toNat ≠ 1), evtRemain := u.dec.evtRemain - 1 } } else u := by
    rw [budgetStep, hs]
  rw [armStep, hbs]
  cases he : u.locs.iter.same u.locs.arm <;> cases hd : u.dec.armed
  · have : windowed u = u := windowed_eq (by simp [hc, ha, hd, he]) (by simp [hg, ha, hd, he])
    rw [this]
    simp [he, hd]
  · rw [windowed_eq (a := decide (u.dec.evtRemain.toNat ≠ 1)) (e := u.dec.evtRemain - 1)]
    · simp [he]
    · have := hb hd
      have : u.dec.evtRemain.toNat ≠ 0 := fun e => this (BitVec.eq_of_toNat_eq e)
      rw [hc, ha, hd, he, Bool.false_and, Bool.or_false, Bool.true_and, decide_eq_decide]
      omega
    · simp [hg, ha, hd, he, hp _ (hb hd)]
  · rw [windowed_eq (a := true) (e := 56)] <;> simp [hc, hg, ha, hd, he, hm, Config.armWindowEvents]
  · have h0 : u.dec.evtRemain.toNat ≠ 0 := fun e => hb hd (BitVec.eq_of_toNat_eq e)
    by_cases h2 : u.dec.evtRemain.toNat = 1
    · rw [windowed_eq (a := true) (e := 56)] <;>
        simp [hc, hg, ha, hd, he, hm, h2, Config.armWindowEvents]
    · have h3 : ¬ u.dec.evtRemain.toNat ≤ 1 := by omega
      have h4 : 1 < u.dec.evtRemain.toNat := by omega
      rw [windowed_eq (a := true) (e := u.dec.evtRemain - 1)] <;>
        simp [hc, hg, ha, hd, he, h2, h3, h4, hp _ (hb hd)]

/-- R272: the location check of an event while the refinement is open. -/
theorem Open.locationCheck {u : State} (h : Open u) : locationCheck u =
    if standsAt u u.locs.trig 0 then placeMarker (windowed u) else windowed u := by
  rw [Machine.locationCheck, if_pos h.arm_valid, armStep_budgetStep h, forceStep,
    standsAt_zero h.iter_legal]
  have hm : (windowed u).dec.matched = false := h.unmatched
  rw [hm]
  cases hs : u.locs.iter.same u.locs.trig
  · exact if_neg (by simp [windowed, hs])
  · exact if_pos (by simp [windowed, hs])


/-! ## One event and the window after it -/

/-- The state `k` events on: samples `vs` put on the stream as `items`, with the flags, the budget and
the marker count of the refinement as given. -/
def eventsOn (u : State) (k : Nat) (vs : List Half) (items : List OutItem) (a m : Bool) (R : BitVec 6)
    (c : BitVec 2) : State :=
  { u with
    locs := { u.locs with iter := Location.inc^[k] u.locs.iter }
    out := items.reverse ++ u.out
    dec := { u.dec with
      armed := a, matched := m, evtRemain := R, markersOut := c
      lastSample := vs.getLastD u.dec.lastSample
      samplesOut := u.dec.samplesOut + BitVec.ofNat 64 vs.length } }

/-- The samples of one word. -/
def wordSamples (u : State) (w : Half) : List Half := subSamples (spe u) (sampleWord u.params.sampleOrder w)

theorem wordSamples_length (u : State) (w : Half) : (wordSamples u w).length = spe u := by
  simp [wordSamples, subSamples]

/-- The window as it is one event on, with no marker yet. -/
def oneOn (u : State) (w : Half) : State :=
  eventsOn u 1 (wordSamples u w) ((wordSamples u w).map .sample) (checksAt u 0) false
    (BitVec.ofNat 6 (budgetAt u 0)) u.dec.markersOut

theorem streamed_inc (u : State) (vs : List Half) (items : List OutItem) :
    setLoc .iter (streamed u vs items).locs.iter.inc (streamed u vs items) =
      eventsOn u 1 vs items u.dec.armed u.dec.matched u.dec.evtRemain u.dec.markersOut := rfl

theorem eventsOn_eventsOn (u : State) (k : Nat) (vs ws : List Half) (is js : List OutItem) (a m a' m' : Bool)
    (R R' : BitVec 6) (c c' : BitVec 2) :
    eventsOn (eventsOn u 1 vs is a m R c) k ws js a' m' R' c' =
      eventsOn u (k + 1) (vs ++ ws) (is ++ js) a' m' R' c' := by
  have h1 : (vs ++ ws).getLastD u.dec.lastSample = ws.getLastD (vs.getLastD u.dec.lastSample) := by
    cases ws <;> simp [List.getLastD_eq_getLast?]
  simp only [eventsOn, h1, List.reverse_append, List.append_assoc, List.length_append, BitVec.ofNat_add,
    BitVec.add_assoc, Function.iterate_succ_apply, Function.iterate_zero, id]

/-- An event with neither the trigger position nor a software match. -/
theorem runEvent_quiet {u : State} (h : Open u) (w : Half) (ht : standsAt u u.locs.trig 0 = false)
    (hq : ∀ i, i < spe u → hits (windowed u) (wordSamples u w) i = false) :
    runEvent w u = oneOn u w := by
  have hw : subSamples (spe u) (sampleWord u.params.sampleOrder w) = wordSamples u w := rfl
  simp only [runEvent, h.locationCheck, ht, Bool.false_eq_true, if_false, hw]
  rw [emitSamples_of_not_hits _ _ fun i hi => hq i (by rwa [wordSamples_length] at hi), streamed_inc]
  show eventsOn u 1 _ _ _ u.dec.matched _ _ = _
  rw [h.unmatched]
  rfl

/-- An event at the trigger position. -/
theorem runEvent_forced {u : State} (h : Open u) (w : Half) (ht : standsAt u u.locs.trig 0 = true) :
    runEvent w u = eventsOn u 1 (wordSamples u w) (markedAt (wordSamples u w) 0) false true
      (BitVec.ofNat 6 (budgetAt u 0)) (u.dec.markersOut + 1) := by
  have hw : subSamples (spe u) (sampleWord u.params.sampleOrder w) = wordSamples u w := rfl
  simp only [runEvent, h.locationCheck, ht, if_true, hw]
  rw [emitSamples_of_not_hits _ _ fun i _ => hits_of_matched rfl _ _, streamed_inc]
  simp [eventsOn, placeMarker, emit, windowed, markedAt]

/-- An event with a software match before the trigger position. -/
theorem runEvent_matched {u : State} (h : Open u) (w : Half) (ht : standsAt u u.locs.trig 0 = false)
    {i : Nat} (hi : i < spe u) (hq : ∀ j, j < i → hits (windowed u) (wordSamples u w) j = false)
    (hm : hits (windowed u) (wordSamples u w) i = true) :
    runEvent w u = eventsOn u 1 (wordSamples u w) (markedAt (wordSamples u w) i) false true
      (BitVec.ofNat 6 (budgetAt u 0)) (u.dec.markersOut + 1) := by
  have hw : subSamples (spe u) (sampleWord u.params.sampleOrder w) = wordSamples u w := rfl
  simp only [runEvent, h.locationCheck, ht, Bool.false_eq_true, if_false, hw]
  rw [emitSamples_of_hits _ _ i (by rwa [wordSamples_length]) hq hm, streamed_inc]
  rfl

/-- Events while the refinement does nothing. -/
theorem runEvents_closed (ws : List Half) {u : State} (h : Closed u) :
    runEvents ws u = eventsOn u ws.length (ws.flatMap (wordSamples u))
      ((ws.flatMap (wordSamples u)).map .sample) u.dec.armed u.dec.matched u.dec.evtRemain
      u.dec.markersOut := by
  induction ws generalizing u with
  | nil => simp [runEvents, eventsOn]
  | cons w rest ih =>
    have h1 : runEvent w u = eventsOn u 1 (wordSamples u w) ((wordSamples u w).map .sample) u.dec.armed
        u.dec.matched u.dec.evtRemain u.dec.markersOut := by
      have hw : subSamples (spe u) (sampleWord u.params.sampleOrder w) = wordSamples u w := rfl
      simp only [runEvent, h.locationCheck, hw]
      rw [emitSamples_of_not_hits _ _ fun i _ => h.not_hits _ _]
      rfl
    rw [runEvents, h1, ih (by exact h), eventsOn_eventsOn, List.flatMap_cons, List.map_append]
    rfl

/-! ## The window as the events go by -/

theorem standsAt_next {u : State} (h : Open u) (w : Half) (l : Location) (e : Nat) :
    standsAt (oneOn u w) l e = standsAt u l (e + 1) := by
  have : (oneOn u w).locs.iter.position = (u.locs.iter.position + 1) % locationCount :=
    Location.inc_position h.iter_legal
  rw [standsAt, standsAt, this, Nat.mod_add_mod, Nat.add_assoc, Nat.add_comm 1]

theorem budgetAt_le {u : State} (e : Nat) : budgetAt u e < 64 := by
  have := u.dec.evtRemain.isLt
  unfold budgetAt
  split
  · omega
  · split <;> omega

theorem next_evtRemain {u : State} (w : Half) : (oneOn u w).dec.evtRemain.toNat = budgetAt u 0 := by
  show (BitVec.ofNat 6 (budgetAt u 0)).toNat = _
  rw [BitVec.toNat_ofNat, Nat.mod_eq_of_lt (budgetAt_le 0)]

/-- The window at the first event. -/
theorem window_zero (u : State) : checksAt u 0 =
      (u.dec.armed && decide (1 < u.dec.evtRemain.toNat) || armsAt u 0) ∧
    budgetAt u 0 = if armsAt u 0 then 56 else
      if u.dec.armed then u.dec.evtRemain.toNat - 1 else u.dec.evtRemain.toNat := by
  refine ⟨by simp [checksAt], ?_⟩
  cases h' : armsAt u 0 <;> simp [budgetAt, h']

theorem Open.oneOn {u : State} (h : Open u) (w : Half) : Open (oneOn u w) where
  iter_legal := Location.inc_legal h.iter_legal
  arm_valid := h.arm_valid
  unmatched := rfl
  budget := by
    intro ha e
    have ha : checksAt u 0 = true := ha
    have := next_evtRemain (u := u) w
    rw [e, (window_zero u).2] at this
    rw [(window_zero u).1] at ha
    revert ha this
    cases armsAt u 0 <;> cases u.dec.armed <;> simp
    omega

theorem armsAt_next_of_arms {u : State} (w : Half) (ha : armsAt u 0 = true) {a : Nat}
    (hl : a < 7) : armsAt (Machine.oneOn u w) a = false := by
  have h1 : (Machine.oneOn u w).dec.armed = true := by
    show checksAt u 0 = true
    rw [(window_zero u).1, ha, Bool.or_true]
  have h2 := next_evtRemain (u := u) w
  rw [(window_zero u).2, if_pos ha] at h2
  rw [armsAt, h1, h2]
  have : ¬ 56 ≤ a + 1 := by omega
  simp [this]

theorem armsAt_next {u : State} (h : Open u) (w : Half) (ha : armsAt u 0 = false) (a : Nat) :
    armsAt (Machine.oneOn u w) a = armsAt u (a + 1) := by
  have h1 : (Machine.oneOn u w).dec.armed = (u.dec.armed && decide (1 < u.dec.evtRemain.toNat)) := by
    show checksAt u 0 = _
    rw [(window_zero u).1, ha, Bool.or_false]
  have h2 := next_evtRemain (u := u) w
  rw [(window_zero u).2, ha] at h2
  have h3 : (Machine.oneOn u w).locs.arm = u.locs.arm := rfl
  rw [armsAt, armsAt, h1, h2, h3, standsAt_next h]
  refine congrArg (_ && ·) ?_
  cases hd : u.dec.armed
  · simp
  · rw [Bool.eq_iff_iff]
    simp
    omega

/-- The checks and the budget one event on are those of the event after. -/
theorem window_next {u : State} (h : Open u) (w : Half) {e : Nat} (he : e < 7) :
    checksAt (Machine.oneOn u w) e = checksAt u (e + 1) ∧
      budgetAt (Machine.oneOn u w) e = budgetAt u (e + 1) := by
  have h2 := next_evtRemain (u := u) w
  have z := window_zero u
  have h1 : (Machine.oneOn u w).dec.armed = checksAt u 0 := rfl
  cases ha : armsAt u 0
  · rw [ha] at z
    have hr : (List.range (e + 1 + 1)).any (armsAt u) =
        (List.range (e + 1)).any (armsAt (Machine.oneOn u w)) := by
      rw [List.range_succ_eq_map, List.any_cons, ha, Bool.false_or, List.any_map]
      exact List.any_congr rfl fun a => (armsAt_next h w ha a).symm
    have hf : (List.range (e + 1 + 1)).find? (armsAt u) =
        ((List.range (e + 1)).find? (armsAt (Machine.oneOn u w))).map (· + 1) := by
      rw [List.range_succ_eq_map, List.find?_cons, ha, List.find?_map,
        show armsAt (Machine.oneOn u w) = armsAt u ∘ Nat.succ from funext (armsAt_next h w ha)]
    constructor
    · rw [checksAt, checksAt, hr, h1, h2, z.1, z.2]
      refine congrArg (· || _) ?_
      cases hd : u.dec.armed <;> rw [Bool.eq_iff_iff] <;> simp
      omega
    · rw [budgetAt, budgetAt, hf]
      cases (List.range (e + 1)).find? (armsAt (Machine.oneOn u w)) with
      | some a => simp
      | none =>
        simp only [Option.map_none, h1, h2, z.1, z.2]
        cases hd : u.dec.armed <;> simp
        split <;> omega
  · have hn : ∀ a, a ∈ List.range (e + 1) → armsAt (Machine.oneOn u w) a = false := fun a hm =>
      armsAt_next_of_arms w ha (by rw [List.mem_range] at hm; omega)
    rw [ha] at z
    have hc : checksAt u 0 = true := by rw [z.1, Bool.or_true]
    constructor
    · have h56 : e + 1 < 56 := by omega
      rw [checksAt, checksAt, h1, hc, h2, z.2, List.range_succ_eq_map (n := e + 1), List.any_cons, ha]
      simp [h56]
    · have hf : (List.range (e + 1)).find? (armsAt (Machine.oneOn u w)) = none :=
        List.find?_eq_none.mpr fun a hm => by rw [hn a hm]; exact Bool.false_ne_true
      rw [budgetAt, budgetAt, hf, List.range_succ_eq_map, List.find?_cons, ha]
      simp [h1, hc, h2, z.2]

/-! ## The events of a record -/

/-- The samples of the words listed. -/
def wordsSamples (u : State) (ws : List Half) : List Half := ws.flatMap (wordSamples u)

theorem wordsSamples_length (u : State) (ws : List Half) :
    (wordsSamples u ws).length = ws.length * spe u := by
  simp [wordsSamples, List.length_flatMap, wordSamples_length]

/-- Sample `i` of the events to come is a software match while no marker was emitted. -/
def looked (u : State) (vs : List Half) (i : Nat) : Bool :=
  checksAt u (i / spe u) && matchesSpec u.params.edgeMode u.spec
    ((u.dec.lastSample :: vs).getD i 0) (vs.getD i 0)

theorem getD_append_left (vs ws : List Half) {i : Nat} (hi : i < vs.length) :
    (vs ++ ws).getD i 0 = vs.getD i 0 := by
  simp [List.getD_eq_getElem?_getD, List.getElem?_append_left hi]

theorem getD_append_right (vs ws : List Half) (i : Nat) :
    (vs ++ ws).getD (vs.length + i) 0 = ws.getD i 0 := by
  simp [List.getD_eq_getElem?_getD, List.getElem?_append_right]

theorem getD_cons_append (l : Half) (vs ws : List Half) (i : Nat) :
    (l :: (vs ++ ws)).getD (vs.length + i) 0 = (vs.getLastD l :: ws).getD i 0 := by
  induction vs generalizing l with
  | nil => simp
  | cons v rest ih =>
    rw [List.length_cons, Nat.add_right_comm, List.getD_cons_succ, List.cons_append, ih,
      List.getLastD_cons]

theorem hits_windowed {u : State} (h : Open u) (w : Half) (vs : List Half) {i : Nat}
    (hi : i < spe u) : hits (windowed u) (wordSamples u w) i = looked u (wordSamples u w ++ vs) i := by
  have hi' : i < (wordSamples u w).length := by rwa [wordSamples_length]
  have hm : (windowed u).dec.matched = false := h.unmatched
  have hc : (u.dec.lastSample :: (wordSamples u w ++ vs)).getD i 0 =
      (u.dec.lastSample :: wordSamples u w).getD i 0 :=
    getD_append_left (u.dec.lastSample :: wordSamples u w) vs (Nat.lt_succ_of_lt hi')
  rw [hits, hm, looked, Nat.div_eq_of_lt hi, getD_append_left _ _ hi', hc, Bool.not_false,
    Bool.and_true]
  rfl

theorem looked_next {u : State} (h : Open u) (w : Half) (vs : List Half) {i : Nat}
    (hi : i / spe u < 7) :
    looked (Machine.oneOn u w) vs i = looked u (wordSamples u w ++ vs) (spe u + i) := by
  have hs : spe (Machine.oneOn u w) = spe u := rfl
  have hl : (Machine.oneOn u w).dec.lastSample = (wordSamples u w).getLastD u.dec.lastSample := rfl
  have hd : (spe u + i) / spe u = i / spe u + 1 := by
    rw [Nat.add_div_left _ (spe_pos u)]
  have hg := getD_append_right (wordSamples u w) vs i
  have hc := getD_cons_append u.dec.lastSample (wordSamples u w) vs i
  rw [wordSamples_length] at hg hc
  rw [looked, looked, hs, hl, (window_next h w hi).1, hd, hg, hc]
  rfl

/-- `ARMED` after `k` events without a marker. -/
def armedAfter (u : State) : Nat → Bool
  | 0 => u.dec.armed
  | k + 1 => checksAt u k

/-- `EVT_REMAIN` after `k` events without a marker. -/
def budgetAfter (u : State) : Nat → Nat
  | 0 => u.dec.evtRemain.toNat
  | k + 1 => budgetAt u k

theorem oneOn_window {u : State} (h : Open u) (w : Half) {k : Nat} (hk : k ≤ 7) :
    armedAfter (Machine.oneOn u w) k = armedAfter u (k + 1) ∧
      budgetAfter (Machine.oneOn u w) k = budgetAfter u (k + 1) := by
  cases k with
  | zero => exact ⟨rfl, next_evtRemain w⟩
  | succ k => exact window_next h w hk

theorem oneOn_eventsOn (u : State) (w : Half) (k : Nat) (vs : List Half) (items : List OutItem) (a m : Bool)
    (R : BitVec 6) (c : BitVec 2) :
    eventsOn (Machine.oneOn u w) k vs items a m R c = eventsOn u (k + 1) (wordSamples u w ++ vs)
      ((wordSamples u w).map .sample ++ items) a m R c := eventsOn_eventsOn ..

theorem div_spe_lt {u : State} {i k : Nat} (h : i < k * spe u) : i / spe u < k :=
  Nat.div_lt_of_lt_mul (by rwa [Nat.mul_comm])

/-- R272 to R277: events with no marker. -/
theorem runEvents_quiet (ws : List Half) {u : State} (hk : ws.length ≤ 7) (h : Open u)
    (ht : ∀ e, e < ws.length → standsAt u u.locs.trig e = false)
    (hq : ∀ i, i < ws.length * spe u → looked u (wordsSamples u ws) i = false) :
    runEvents ws u = eventsOn u ws.length (wordsSamples u ws) ((wordsSamples u ws).map .sample)
      (armedAfter u ws.length) false (BitVec.ofNat 6 (budgetAfter u ws.length)) u.dec.markersOut := by
  induction ws generalizing u with
  | nil => simp [runEvents, eventsOn, wordsSamples, armedAfter, budgetAfter, ← h.unmatched]
  | cons w rest ih =>
    have hl : spe u + rest.length * spe u = (rest.length + 1) * spe u := by
      rw [Nat.add_mul, Nat.one_mul, Nat.add_comm]
    rw [List.length_cons] at hk ht hq
    have h1 : runEvent w u = Machine.oneOn u w := runEvent_quiet h w (ht 0 (Nat.zero_lt_succ _))
      fun i hi => by
        rw [hits_windowed h w (wordsSamples u rest) hi]
        exact hq i (by omega)
    have a := oneOn_window h w (k := rest.length) (by omega)
    rw [runEvents, h1, ih (by omega) (h.oneOn w) (fun e he => ?_) (fun i hi => ?_), oneOn_eventsOn, a.1, a.2,
      ← List.map_append]
    · rfl
    · exact (standsAt_next h w _ e).trans (ht (e + 1) (by omega))
    · have hi' : i < rest.length * spe u := hi
      have := div_spe_lt hi'
      exact (looked_next h w _ (by omega)).trans (hq (spe u + i) (by omega))

theorem markedAt_append_left {vs ws : List Half} {i : Nat} (hi : i ≤ vs.length) :
    markedAt (vs ++ ws) i = markedAt vs i ++ ws.map .sample := by
  simp [markedAt, List.take_append_of_le_length hi, List.drop_append_of_le_length hi]

theorem markedAt_append_right (vs ws : List Half) (i : Nat) :
    markedAt (vs ++ ws) (vs.length + i) = vs.map .sample ++ markedAt ws i := by
  simp [markedAt, List.take_append, List.drop_append, List.take_of_length_le, List.drop_of_length_le]

/-- The marker of the events to come stands before sample `i`: the trigger position is met at its event,
whose first sample it is, or the sample is a software match and the trigger position is not met. -/
def marks (u : State) (vs : List Half) (i : Nat) : Prop :=
  if standsAt u u.locs.trig (i / spe u) then i % spe u = 0 else looked u vs i = true

/-- R272 to R278: events with a marker. -/
theorem runEvents_marked (ws : List Half) {u : State} (hk : ws.length ≤ 7) (h : Open u) {i : Nat}
    (hi : i < ws.length * spe u) (ht : ∀ e, e < i / spe u → standsAt u u.locs.trig e = false)
    (hq : ∀ j, j < i → looked u (wordsSamples u ws) j = false)
    (hm : marks u (wordsSamples u ws) i) :
    runEvents ws u = eventsOn u ws.length (wordsSamples u ws) (markedAt (wordsSamples u ws) i) false true
      (BitVec.ofNat 6 (budgetAt u (i / spe u))) (u.dec.markersOut + 1) := by
  induction ws generalizing u i with
  | nil => simp at hi
  | cons w rest ih =>
    have hl : spe u + rest.length * spe u = (rest.length + 1) * spe u := by
      rw [Nat.add_mul, Nat.one_mul, Nat.add_comm]
    rw [List.length_cons] at hk hi
    by_cases hlt : i < spe u
    · have hd : i / spe u = 0 := Nat.div_eq_of_lt hlt
      rw [marks, hd] at hm
      have h1 : runEvent w u = eventsOn u 1 (wordSamples u w) (markedAt (wordSamples u w) i) false true
          (BitVec.ofNat 6 (budgetAt u 0)) (u.dec.markersOut + 1) := by
        cases hs : standsAt u u.locs.trig 0
        · rw [hs] at hm
          refine runEvent_matched h w hs hlt (fun j hj => ?_) ?_
          · rw [hits_windowed h w (wordsSamples u rest) (hj.trans hlt)]
            exact hq j hj
          · rw [hits_windowed h w (wordsSamples u rest) hlt]
            exact hm
        · rw [hs, if_pos rfl, Nat.mod_eq_of_lt hlt] at hm
          rw [hm]
          exact runEvent_forced h w hs
      rw [runEvents, h1, runEvents_closed _ ⟨rfl, .inr rfl⟩, eventsOn_eventsOn, hd]
      have := markedAt_append_left (ws := wordsSamples u rest)
        (vs := wordSamples u w) (i := i) (by rw [wordSamples_length]; exact hlt.le)
      exact congrArg (fun x => eventsOn u (rest.length + 1) _ x _ _ _ _) this.symm
    · obtain ⟨i, rfl⟩ := Nat.exists_eq_add_of_le (Nat.le_of_not_lt hlt)
      have hd : (spe u + i) / spe u = i / spe u + 1 := by rw [Nat.add_div_left _ (spe_pos u)]
      have hi' : i < rest.length * spe u := by omega
      have hr := div_spe_lt hi'
      have h1 : runEvent w u = Machine.oneOn u w := runEvent_quiet h w (ht 0 (by rw [hd]; exact Nat.zero_lt_succ _))
        fun j hj => by
          rw [hits_windowed h w (wordsSamples u rest) hj]
          exact hq j (by omega)
      have hb := (window_next h w (e := i / spe u) (by omega)).2
      have i1 := fun e (he : e < i / spe u) =>
        (standsAt_next h w u.locs.trig e).trans (ht (e + 1) (by rw [hd]; exact Nat.succ_lt_succ he))
      have i2 := fun j (hj : j < i) => (looked_next h w (wordsSamples u rest) (i := j) (by
        have := Nat.div_le_div_right (c := spe u) hj.le
        omega)).trans (hq (spe u + j) (by omega))
      have i3 : marks (Machine.oneOn u w) (wordsSamples u rest) i := by
        have e1 := standsAt_next h w u.locs.trig (i / spe u)
        have e2 := looked_next h w (wordsSamples u rest) (i := i) (by omega)
        rw [marks, hd, Nat.add_mod_left] at hm
        show if standsAt (Machine.oneOn u w) u.locs.trig (i / spe u) = true then i % spe u = 0 else
          looked (Machine.oneOn u w) (wordsSamples u rest) i = true
        rw [e1, e2]
        exact hm
      rw [runEvents, h1, ih (i := i) (by omega) (h.oneOn w) hi' i1 i2 i3, oneOn_eventsOn, hd,
        show spe (Machine.oneOn u w) = spe u from rfl, hb]
      have := markedAt_append_right (wordSamples u w) (wordsSamples u rest) i
      rw [wordSamples_length] at this
      exact congrArg (fun x => eventsOn u (rest.length + 1) _ x _ _ _ _) this.symm

/-! ## A record: the fill of its gap, then its events -/

theorem emitSamples_stamp (vs : List Half) (ts : Half) (b : Bool) (s : State) :
    emitSamples vs { s with dec := { s.dec with lastTs := ts, tsValid := b } } =
      let u := emitSamples vs s
      { u with dec := { u.dec with lastTs := ts, tsValid := b } } := by
  induction vs generalizing s with
  | nil => rfl
  | cons v rest ih =>
    have : emitSample v { s with dec := { s.dec with lastTs := ts, tsValid := b } } =
        { emitSample v s with dec := { (emitSample v s).dec with lastTs := ts, tsValid := b } } := by
      simp only [emitSample, softwareCheck]
      by_cases h : (s.dec.armed && !s.dec.matched &&
          triggerMatch s.params.edgeMode s.spec s.dec.lastSample v) = true
      · simp only [h, if_true]
        rfl
      · rw [Bool.not_eq_true] at h
        simp only [h]
        rfl
    rw [emitSamples, this, ih, emitSamples]

/-- The fill samples of a record. -/
def fillOf (r : ClusterRecord) (s : State) : List Half :=
  List.replicate (recordGap r s * spe s) s.dec.lastSample

/-- The words of a record that are due. -/
def wordsOf (r : ClusterRecord) (s : State) : List Half := r.words.take (eventsDue s)

/-- The state with the timestamp that a record leaves, R242. -/
def stamped (r : ClusterRecord) (u : State) : State :=
  { u with dec := { u.dec with lastTs := r.ts + 7, tsValid := true } }

/-- R242: the fill samples, then the events. -/
theorem runRecord_eq (r : ClusterRecord) (s : State) : runRecord r (eventsDue s) s =
    runEvents (wordsOf r s) (stamped r (emitSamples (fillOf r s) s)) := by
  obtain ⟨ts, e⟩ : ∃ ts, expectTs r.ts s =
      { s with dec := { s.dec with lastTs := ts, tsValid := true } } := by
    unfold expectTs
    cases h : s.dec.tsValid
    · exact ⟨r.ts, rfl⟩
    · exact ⟨s.dec.lastTs, by simp [← h]⟩
  have hg : gapOf r.ts (expectTs r.ts s) = recordGap r s := by
    rw [gapOf, expectTs_lastTs]
    rfl
  simp only [runRecord, hg, emitFill_eq]
  rw [e, emitSamples_stamp]
  rfl

theorem wordsOf_length (r : ClusterRecord) (s : State) : (wordsOf r s).length = eventsDue s := by
  have := eventsDue_le s
  simp [wordsOf, ClusterRecord.words]
  omega

theorem samplesOf_eq (r : ClusterRecord) (s : State) :
    samplesOf r s = fillOf r s ++ wordsSamples s (wordsOf r s) := by
  rw [samplesOf, ← spe_eq, recordSamples_eq (spe_mem s) _ _ _ _ (eventsDue_le s)]
  rfl

theorem samplesBefore_eq (r : ClusterRecord) (s : State) (e : Nat) :
    samplesBefore r s e = (fillOf r s).length + e * spe s := by
  rw [samplesBefore, ← spe_eq, fillOf, List.length_replicate, Nat.add_mul]

theorem fillOf_getLastD (r : ClusterRecord) (s : State) :
    (fillOf r s).getLastD s.dec.lastSample = s.dec.lastSample := by
  unfold fillOf
  cases recordGap r s * spe s <;> simp [List.getLastD_eq_getLast?, List.getLast?_replicate]

theorem eventOf_eq (r : ClusterRecord) (s : State) (i : Nat) :
    eventOf r s ((fillOf r s).length + i) = i / spe s := by
  rw [eventOf, ← spe_eq, fillOf, List.length_replicate, Nat.add_comm,
    Nat.add_mul_div_right _ _ (spe_pos s), Nat.add_sub_cancel]

/-- A fill sample is a software match when it is one for the state the record found. -/
theorem softwareMatch_fill {r : ClusterRecord} {s : State} (hm : s.dec.matched = false) {i : Nat}
    (hi : i < (fillOf r s).length) : softwareMatch r s i = hits s (fillOf r s) i := by
  have h0 : i < samplesBefore r s 0 := by
    rw [samplesBefore_eq]
    omega
  have hc := getD_append_left (s.dec.lastSample :: fillOf r s) (wordsSamples s (wordsOf r s)) (i := i)
    (Nat.lt_succ_of_lt hi)
  rw [List.cons_append] at hc
  rw [softwareMatch, checked, if_pos h0, hits, hm, samplesOf_eq, getD_append_left _ _ hi, hc,
    Bool.not_false, Bool.and_true]

/-- An explicit sample is a software match when it is one among the events to come. -/
theorem softwareMatch_words (r : ClusterRecord) (s : State) (i : Nat) :
    softwareMatch r s ((fillOf r s).length + i) = looked s (wordsSamples s (wordsOf r s)) i := by
  have h0 : ¬ (fillOf r s).length + i < samplesBefore r s 0 := by
    rw [samplesBefore_eq]
    omega
  have hc := getD_cons_append s.dec.lastSample (fillOf r s) (wordsSamples s (wordsOf r s)) i
  rw [fillOf_getLastD] at hc
  rw [softwareMatch, checked, if_neg h0, eventOf_eq, looked, samplesOf_eq, getD_append_right, hc]

/-- Two states with the same window, specification and last sample. -/
structure SameWindow (s v : State) : Prop where
  locs : v.locs = s.locs
  armed : v.dec.armed = s.dec.armed
  evtRemain : v.dec.evtRemain = s.dec.evtRemain
  spec : v.spec = s.spec
  params : v.params = s.params
  config : v.config = s.config
  lastSample : v.dec.lastSample = s.dec.lastSample

namespace SameWindow
variable {s v : State} (h : SameWindow s v)
include h

theorem standsAt (l : Location) (e : Nat) : Machine.standsAt v l e = Machine.standsAt s l e := by
  rw [Machine.standsAt, Machine.standsAt, h.locs]

theorem armsAt : Machine.armsAt v = Machine.armsAt s := by
  funext e
  rw [Machine.armsAt, Machine.armsAt, h.standsAt, h.locs, h.armed, h.evtRemain]

theorem checksAt (e : Nat) : Machine.checksAt v e = Machine.checksAt s e := by
  rw [Machine.checksAt, Machine.checksAt, h.armsAt, h.armed, h.evtRemain]

theorem budgetAt (e : Nat) : Machine.budgetAt v e = Machine.budgetAt s e := by
  rw [Machine.budgetAt, Machine.budgetAt, h.armsAt, h.armed, h.evtRemain]

theorem spe : Machine.spe v = Machine.spe s := by rw [spe_eq, spe_eq, h.config]

theorem wordsSamples (ws : List Half) : Machine.wordsSamples v ws = Machine.wordsSamples s ws := by
  unfold Machine.wordsSamples
  congr 1
  funext w
  rw [wordSamples, wordSamples, h.spe, h.params]

theorem looked (vs : List Half) (i : Nat) : Machine.looked v vs i = Machine.looked s vs i := by
  rw [Machine.looked, Machine.looked, h.spe, h.checksAt, h.params, h.spec, h.lastSample]

end SameWindow

/-- R242, R280: the state in which the events of a record start when no fill sample is a match. -/
theorem fill_quiet (r : ClusterRecord) {s : State} (h : Open s)
    (hq : ∀ i, i < (fillOf r s).length → softwareMatch r s i = false) :
    let v := stamped r (emitSamples (fillOf r s) s)
    SameWindow s v ∧ Open v ∧ v.out.reverse = s.out.reverse ++ (fillOf r s).map .sample ∧
      v.dec.markersOut = s.dec.markersOut := by
  have e : emitSamples (fillOf r s) s = streamed s (fillOf r s) ((fillOf r s).map .sample) :=
    emitSamples_of_not_hits _ _ fun i hi => (softwareMatch_fill h.unmatched hi).symm.trans (hq i hi)
  rw [e]
  exact ⟨⟨rfl, rfl, rfl, rfl, rfl, rfl, fillOf_getLastD r s⟩,
    ⟨h.iter_legal, h.arm_valid, h.unmatched, h.budget⟩, by simp [stamped, streamed], rfl⟩

/-- R275, R280: the state in which the events of a record start when fill sample `i` is the first
match. -/
theorem fill_marked (r : ClusterRecord) {s : State} (h : Open s) {i : Nat}
    (hi : i < (fillOf r s).length) (hq : ∀ j, j < i → softwareMatch r s j = false)
    (hm : softwareMatch r s i = true) :
    let v := stamped r (emitSamples (fillOf r s) s)
    Closed v ∧ v.dec.matched = true ∧ v.dec.evtRemain = s.dec.evtRemain ∧
      v.out.reverse = s.out.reverse ++ markedAt (fillOf r s) i ∧
      v.dec.markersOut = s.dec.markersOut + 1 ∧ wordSamples v = wordSamples s := by
  have e := emitSamples_of_hits (fillOf r s) s i hi
    (fun j hj => (softwareMatch_fill h.unmatched (hj.trans hi)).symm.trans (hq j hj))
    ((softwareMatch_fill h.unmatched hi).symm.trans hm)
  rw [e]
  exact ⟨⟨rfl, .inr rfl⟩, rfl, rfl, by simp [stamped, streamed], rfl, rfl⟩

end Sys2Proof.Machine
end

