-- ==== Sys2Proof/Machine/Pseudo.lean ====
section
/-! DEFINITION. The pseudo-instructions of 30_encoding.md R111, as the transactions the host issues for
them. They are no instructions of the block: `step` serves their expansions one by one. -/

namespace Sys2Proof.Machine

/-- The port index of a location field, 10_state.md R24: RAW 0, ROW 1, CLUSTER 2, EVENT 3. -/
def locIndex (lr : LocReg) (f : BitVec 8) : BitVec 8 := 0x10 + 4 * lr.code.setWidth 8 + f

/-- `LOC.SET lr, raw`. -/
def locSet (lr : LocReg) (raw : Word) : List Input := [.portWrite (locIndex lr 0) raw]

/-- `LOC.SETF lr, row, cluster, event`. -/
def locSetf (lr : LocReg) (row cluster event : Word) : List Input :=
  [.portWrite (locIndex lr 1) row, .portWrite (locIndex lr 2) cluster, .portWrite (locIndex lr 3) event]

/-- `TRG.PROGRAM`. -/
def trgProgram : List Input := [.command (commandWord .trgCompile), .command (commandWord .trgXmit)]

/-- `TRG.SPEC value, mask, rising, falling`. -/
def trgSpec (value mask rising falling : Word) : List Input :=
  [.portWrite 0x08 value, .portWrite 0x09 mask, .portWrite 0x0A rising, .portWrite 0x0B falling]

/-- `POS.LOAD b0, …, b6`: the bytes of the position response, byte 0 lowest (R103). -/
def posLoad (b0 b1 b2 b3 b4 b5 b6 : Byte) : List Input :=
  [.portWrite 0x38 (b3 ++ b2 ++ b1 ++ b0), .portWrite 0x39 ((b6 ++ b5 ++ b4).setWidth 32),
    .portWrite 0x3A 7]

/-- `DEC.RUN`: DEC.STEP, then again, at most `n` times more, until after one of them the pass is `DONE` or
an error is pending. A pass has at most 32768 rows, and a step decodes at least one or records an error, so
`n` of 32767 repetitions is no bound. -/
def decRun : Nat → State → Outcome
  | 0, s => exec .decStep s
  | n + 1, s =>
      match exec .decStep s with
      | .next t => if t.dec.phase = .done ∨ t.errs.pending = true then .next t else decRun n t
      | .fault f => .fault f
      | .refused r => .refused r

end Sys2Proof.Machine
end

