-- ==== Sys2Proof/Tests/Slice0.lean ====
section
/-! SUPPORT. Tests on fixed values, with the expected value taken from spec/95_test_vectors.md or from an
example of the rule named, and one witness for every statement that has hypotheses. -/

namespace Sys2Proof.Tests

open Sys2Proof.Machine

/-! ## Helpers -/

/-- The next state of an instruction. -/
def ran (i : Instr) (s : State) : Option State :=
  match exec i s with
  | .next t => some t
  | .fault _ => none
  | .refused _ => none

/-- The next state of a step. -/
def stepped (s : State) : Option State :=
  match step s with
  | .next t => some t
  | .fault _ => none
  | .refused _ => none

/-- The reset machine with one input issued. -/
def given (x : Input) : State := { State.reset with inbox := [x] }

/-- The machine with an error pending. -/
def failed (s : State) : State := { s with errs := ⟨true, 0x21, 6⟩ }

/-- The machine with location `l` in register `r`. -/
def located (r : LocReg) (l : Location) : State := setLoc r l State.reset

/-- The machine with a trigger specification and a tier. -/
def specified (p : TriggerSpec) (tier : BitVec 2) : State :=
  { State.reset with spec := p, config := tier }

/-- A pass of one row over the events before `stop`, set up by DEC.SETUP. -/
def passTo (stop : Location) : State := setupPass (located .stop stop)

/-- The first event's pass with the refinement checking, the cursor at (0, 0, 0). -/
def checking (trig : Location) : State :=
  let s := passTo ⟨0, 6, 0⟩
  { s with
    spec := ⟨0, 0, 1, 0⟩
    locs := { s.locs with trig := trig }
    dec := { s.dec with armValid := true, armed := true, evtRemain := 56 } }

/-- The same machine in the course of the pass: timestamp 7 expected, last sample 1. -/
def gapped (s : State) : State :=
  { s with dec := { s.dec with tsValid := true, lastTs := 7, lastSample := 1 } }

/-- The machine before checking is armed, with the arm position given. -/
def disarmed (s : State) (arm : Location) : State :=
  { s with locs := { s.locs with arm := arm }, dec := { s.dec with armed := false, evtRemain := 0 } }

/-- A record of seven equal words. -/
def level (ts v : Half) : ClusterRecord := ⟨ts, v, v, v, v, v, v, v⟩

/-! ## WellFormed: a term each check refuses, and its neighbour it admits -/

theorem test_wf_locBack : (Instr.locBack .arm 256).wf = false ∧ (Instr.locBack .arm 255).wf = true := by
  decide

theorem test_wf_decDeint : (Instr.decDeint 4).wf = false ∧ (Instr.decDeint 3).wf = true := by decide

theorem test_wf_decReint : (Instr.decReint 4).wf = false ∧ (Instr.decReint 3).wf = true := by decide

/-! ## Decode: the words of 95_test_vectors.md 2.1, written out from R91 to R93 -/

theorem test_decode_sys : decodeCommand 0x00000000 = .ok .sysNop ∧
    decodeCommand 0x01000000 = .ok .sysReset ∧ decodeCommand 0x02000000 = .ok .sysInit :=
  ⟨rfl, rfl, rfl⟩

theorem test_decode_locInc : decodeCommand 0x10000004 = .ok (.locInc .iter) := rfl

theorem test_decode_locDec : decodeCommand 0x11000003 = .ok (.locDec .arm) := rfl

theorem test_decode_locBack : decodeCommand 0x12001C03 = .ok (.locBack .arm 28) ∧
    decodeCommand 0x1200FF00 = .ok (.locBack .start 255) := ⟨rfl, rfl⟩

theorem test_decode_locCmp : decodeCommand 0x13000024 = .ok (.locCmp .iter .trig) := rfl

theorem test_decode_locMov : decodeCommand 0x14000023 = .ok (.locMov .arm .trig) ∧
    decodeCommand 0x14000010 = .ok (.locMov .start .stop) := ⟨rfl, rfl⟩

theorem test_decode_posDecode : decodeCommand 0x18000000 = .ok .posDecode := rfl

theorem test_decode_trgLutgen : decodeCommand 0x20000002 = .ok (.trgLutgen .m2d) ∧
    decodeCommand 0x20000001 = .ok (.trgLutgen .m1d) := ⟨rfl, rfl⟩

theorem test_decode_trgFunc : decodeCommand 0x21000012 = .ok (.trgFunc .rise .or .slot0 false .m3q) ∧
    decodeCommand 0x21000053 = .ok (.trgFunc .fall .or .slot1 false .m3q) ∧
    decodeCommand 0x210002AB = .ok (.trgFunc .fall .xnor .slot0 true .m4) ∧
    decodeCommand 0x210001E7 = .ok (.trgFunc .notRiseFall .xor .slot1 true .m3s) :=
  ⟨rfl, rfl, rfl, rfl⟩

theorem test_decode_trg : decodeCommand 0x22000000 = .ok .trgCompile ∧
    decodeCommand 0x23000000 = .ok .trgXmit ∧ decodeCommand 0x24000002 = .ok (.trgEval .m2d) :=
  ⟨rfl, rfl, rfl⟩

theorem test_decode_dec : decodeCommand 0x30000000 = .ok .decSetup ∧
    decodeCommand 0x31000000 = .ok .decStep ∧ decodeCommand 0x32000001 = .ok (.decDeint 1) ∧
    decodeCommand 0x33000003 = .ok (.decReint 3) := ⟨rfl, rfl, rfl, rfl⟩

/-- The record of R100 as one number: `ts` lowest, the word of event 6 highest. -/
theorem test_decode_record : decode (.record 0x70077006700570047003700270011234) =
    .ok (.cluster ⟨0x1234, 0x7001, 0x7002, 0x7003, 0x7004, 0x7005, 0x7006, 0x7007⟩) := by decide

/-- The bytes of R100: a timestamp and seven words, each its low byte first. -/
theorem test_decode_record_bytes :
    decodeRecordBytes [0x34, 0x12, 0x01, 0xA0, 2, 0, 3, 0, 4, 0, 5, 0, 6, 0, 7, 0xB0] =
      ⟨0x1234, 0xA001, 2, 3, 4, 5, 6, 0xB007⟩ := by decide

theorem test_decode_illegal : decodeCommand 0x03000000 = .error .unknownOpcode ∧
    decodeCommand 0xFF000000 = .error .unknownOpcode ∧
    decodeCommand 0x00000001 = .error .unnamedBit ∧
    decodeCommand 0x10000005 = .error .badOperand ∧
    decodeCommand 0x10000008 = .error .unnamedBit ∧
    decodeCommand 0x12010003 = .error .unnamedBit ∧
    decodeCommand 0x13000054 = .error .badOperand ∧
    decodeCommand 0x20000003 = .error .badOperand ∧
    decodeCommand 0x21000030 = .error .badOperand ∧
    decodeCommand 0x21000300 = .error .badOperand ∧
    decodeCommand 0x21000400 = .error .unnamedBit :=
  ⟨rfl, rfl, rfl, rfl, rfl, rfl, rfl, rfl, rfl, rfl, rfl⟩

theorem test_decodeTableWord : decodeTableWord 32 0x12001C03 = some (.locBack .arm 28) ∧
    decodeTableWord 32 0x03000000 = none ∧
    decodeTableWord 128 0x00070006000500040003000200010000 =
      some (.cluster ⟨0, 1, 2, 3, 4, 5, 6, 7⟩) := by decide

/-! ## One step of each instruction -/

/-- R301: also while an error is pending. -/
theorem test_sysNop : (stepped (failed (given (.command 0x00000000)))).map (·.errs) =
    some ⟨true, 0x21, 6⟩ := by decide

theorem test_sysReset : (stepped (failed { given (.command 0x01000000) with x0 := 5 })).map
    (fun t => (t.errs, t.x0)) = some (⟨false, 0, 0⟩, 0) := by decide

theorem test_sysInit : (stepped (failed { given (.command 0x02000000) with x0 := 5, capstat := 3 })).map
    (fun t => (t.errs, t.x0, t.capstat)) = some (⟨false, 0, 0⟩, 5, 0) := by decide

/-- R144. -/
theorem test_locInc : (ran (.locInc .iter) (located .iter ⟨0, 0, 6⟩)).map (·.locs.iter) =
    some ⟨0, 1, 0⟩ := by decide

theorem test_locInc_wraps : (ran (.locInc .trig) (located .trig ⟨32767, 63, 6⟩)).map (·.locs.trig) =
    some ⟨0, 0, 0⟩ := by decide

/-- R145. -/
theorem test_locDec : (ran (.locDec .arm) (located .arm ⟨5, 10, 3⟩)).map (·.locs.arm) =
    some ⟨5, 10, 2⟩ := by decide

theorem test_locDec_wraps : (ran (.locDec .arm) State.reset).map (·.locs.arm) =
    some ⟨32767, 63, 6⟩ := by decide

/-- 2.2: the floor is met after 9 steps. -/
theorem test_locBack_floor : (ran (.locBack .arm 28) (located .arm ⟨0, 1, 2⟩)).map (·.locs.arm) =
    some ⟨0, 0, 0⟩ := by decide

/-- 2.2: a row boundary is crossed downward. -/
theorem test_locBack_row : (ran (.locBack .arm 28)
    (setLoc .start ⟨6, 0, 0⟩ (located .arm ⟨7, 1, 0⟩))).map (·.locs.arm) = some ⟨6, 61, 0⟩ := by decide

theorem test_locCmp_equal : (ran (.locCmp .iter .trig)
    (setLoc .iter ⟨0, 4, 3⟩ (located .trig ⟨0, 4, 3⟩))).map (·.eqFlag) = some true := by decide

theorem test_locCmp_row : (ran (.locCmp .iter .trig)
    (setLoc .iter ⟨0, 4, 3⟩ (located .trig ⟨1, 4, 3⟩))).map (·.eqFlag) = some false := by decide

theorem test_locMov : (ran (.locMov .arm .trig) (located .trig ⟨7, 5, 2⟩)).map
    (fun t => (t.locs.arm, t.locs.trig)) = some (⟨7, 5, 2⟩, ⟨7, 5, 2⟩) := by decide

/-- 2.3, first row. -/
theorem test_posDecode : (ran .posDecode { State.reset with pos := ⟨0x00012345, 0x200002, 7, 0⟩ }).map
    (fun t => (t.locs.trig, t.locs.stop, t.pos.modestat)) =
      some (⟨145, 40, 4⟩, ⟨0, 63, 6⟩, 0x20) := by decide

/-- 2.3: a response of 6 bytes. -/
theorem test_posDecode_length : (ran .posDecode { State.reset with pos := ⟨1, 0, 6, 0⟩ }).map
    (fun t => (t.errs, t.locs.trig)) = some (⟨true, 0x21, 6⟩, ⟨0, 0, 0⟩) := by decide

/-- R162. -/
theorem test_trgLutgen : (ran (.trgLutgen .m2d)
    { State.reset with genValue := 0x8020, genMask := 0x8030 }).map
      (fun t => (t.lut.m2d, t.tphase)) =
        some (⟨0xFFFF, 0x4444, 0xFFFF, 0xFF00⟩, .compiled) := by decide

/-- 2.4. -/
theorem test_trgEval : (ran (.trgEval .m2d) { State.reset with
    x0 := 0x8A2F, lut := { Registers.zero.lut with m2d := ⟨0xFFFF, 0x4444, 0xFFFF, 0xFF00⟩ } }).map
      (·.hitFlag) = some true := by decide

theorem test_trgEval_miss : (ran (.trgEval .m2d) { State.reset with
    x0 := 0x8A3F, lut := { Registers.zero.lut with m2d := ⟨0xFFFF, 0x4444, 0xFFFF, 0xFF00⟩ } }).map
      (·.hitFlag) = some false := by decide

/-- 2.5. -/
theorem test_trgFunc_m4 : (ran (.trgFunc .fall .xnor .slot0 true .m4)
    { State.reset with lut := { Registers.zero.lut with m4 := 0xA000 } }).map (·.lut.m4) =
      some 0x7DDD := by decide

theorem test_trgFunc_m3s : (ran (.trgFunc .notRiseFall .xor .slot1 true .m3s)
    { State.reset with lut := { Registers.zero.lut with m3s := 0x0F0F } }).map (·.lut.m3s) =
      some 0xFF00 := by decide

set_option maxRecDepth 20000 in
/-- R208, case H. -/
theorem test_trgCompile : (ran .trgCompile (specified ⟨0x8020, 0x8030, 0x8000, 0x0001⟩ 0)).map
    (fun t => (t.lut.m0d.q0, t.lut.m1d.q3, t.lut.m2d.q1, t.lut.m3q, t.lut.param0)) =
      some (0xAAAA, 0xFF00, 0x4444, 0x44F4, 0x000C) := by decide

/-- R208, case F. -/
theorem test_trgCompile_fast : (ran .trgCompile (specified ⟨0, 0, 3, 0⟩ 1)).map
    (fun t => (t.errs, t.tphase)) = some (⟨true, 0x32, 3⟩, .empty) := by decide

set_option maxRecDepth 20000 in
/-- R214, case A: the first two and the last transaction. -/
theorem test_trgXmit : (ran .trgXmit { State.reset with
    tphase := .compiled, lut := compileFile .default ⟨1, 3, 0, 0⟩ }).map
    (fun t => (t.regw.reverse.take 2, t.regw.head?)) =
      some ([⟨1, [0x1E, 0x00]⟩, ⟨2, [0x30]⟩], some ⟨1, [0x00, 0x0C, 0, 0, 0, 0]⟩) := by decide

/-- R232: a wrapped capture. -/
theorem test_decSetup_wrapped : (ran .decSetup
    { located .stop ⟨5, 17, 3⟩ with capstat := 1 }).map
      (fun t => (t.locs.start, t.locs.iter, t.dec.linesTotal)) =
        some (⟨6, 0, 0⟩, ⟨6, 0, 0⟩, 32767) := by decide

/-- 2.8: the arm position 28 events before the trigger position. -/
theorem test_decSetup_arm : (ran .decSetup
    { setLoc .trig ⟨0, 4, 3⟩ (located .stop ⟨0, 6, 0⟩) with
      capstat := 2, spec := ⟨0, 0, 1, 0⟩ }).map (fun t => (t.locs.arm, t.dec.armValid)) =
        some (⟨0, 0, 3⟩, true) := by decide

/-- 2.8: the first cluster of a pass never fills. -/
theorem test_decStep : (ran .decStep { passTo ⟨0, 0, 1⟩ with
    mem := [(0, 0x34), (1, 0x12), (2, 0xAA), (4, 0xAA)] }).map
      (fun t => (t.out, t.dec.lastTs, t.locs.iter, t.dec.phase)) =
        some ([.sample 0xAA], 0x123B, ⟨0, 0, 1⟩, .done) := by decide

/-- R240: a read that fails. -/
theorem test_decStep_ioError : (ran .decStep { passTo ⟨0, 0, 1⟩ with answers := [.ioError] }).map
    (fun t => (t.errs, t.dec.phase, t.out)) = some (⟨true, 0x11, 0⟩, .ready, []) := by decide

/-- R246. -/
theorem test_decDeint : (ran (.decDeint 1) { State.reset with config := 1, x0 := 0xA5C3 }).map (·.x1) =
    some 0x00C9 := by decide

/-- R94: `k` is not below SPE. -/
theorem test_decDeint_illegal : (stepped (given (.command 0x32000001))).map (·.errs) =
    some ⟨true, 0x51, 0x32000001⟩ := by decide

/-- R247. -/
theorem test_decReint : (ran (.decReint 1)
    { State.reset with config := 1, x0 := 0x00C9, x1 := 0x0541 }).map (·.x1) = some 0xA5C3 := by decide

/-- R251: the second cluster of the source's scenario, after a gap of 10. -/
theorem test_cluster : (ran (.cluster ⟨17, 3, 2, 2, 2, 2, 2, 2⟩)
    (let s := passTo ⟨0, 2, 0⟩
     { s with
       locs := { s.locs with iter := ⟨0, 1, 0⟩ }
       dec := { s.dec with tsValid := true, lastTs := 7, lastSample := 1, samplesOut := 7 } })).map
      (fun t => (t.out.reverse, t.dec.samplesOut, t.dec.lastTs)) =
        some (List.replicate 10 (.sample 1) ++ [.sample 3] ++ List.replicate 6 (.sample 2),
          24, 24) := by decide

/-- R277: the forced marker. -/
theorem test_cluster_forced : (ran (.cluster (level 0 5)) (checking ⟨0, 0, 2⟩)).map
    (fun t => (t.out.reverse.take 4, t.dec.matched)) =
      some ([.trigger, .sample 5, .sample 5, .sample 5], true) := by decide

/-! ## The register port -/

theorem test_port_spe : (stepped { given (.portRead 0x04) with config := 2 }).map (·.replies) =
    some [4] := by decide

/-- R25: a write of EVENT whose low three bits are 7. -/
theorem test_port_event : (stepped (given (.portWrite 0x13 0xF))).map (·.errs) =
    some ⟨true, 0x22, 0xF⟩ := by decide

/-- 2.2: the value is reduced modulo 2^24. -/
theorem test_port_raw : (stepped (given (.portWrite 0x20 0x0100020E))).map (·.locs.iter) =
    some ⟨1, 1, 6⟩ := by decide

theorem test_port_tier : (stepped (given (.portWrite 0x03 7))).map (fun t => (t.errs, t.config)) =
    some (⟨true, 0x33, 7⟩, 0) := by decide

/-- R36: a write to a member of the file leaves `EMPTY`. -/
theorem test_port_lut : (stepped (given (.portWrite 0x49 0x1CCCC))).map
    (fun t => (t.lut.m2d.q1, t.tphase)) = some (0xCCCC, .compiled) := by decide

/-- R140's example response, loaded as R111 says. -/
theorem test_posLoad : posLoad 0x45 0x23 0x01 0x00 0x02 0x00 0x20 =
    [.portWrite 0x38 0x00012345, .portWrite 0x39 0x00200002, .portWrite 0x3A 7] := by decide

theorem test_locSet : locSet .iter 5 = [.portWrite 0x20 5] := by decide

/-- The next state of `DEC.RUN`. -/
def ranDec (n : Nat) (s : State) : Option State :=
  match decRun n s with
  | .next t => some t
  | .fault _ => none
  | .refused _ => none

/-- R111, R240: the DEC.STEP of the last of two rows ends the repetition with the pass `DONE`. -/
theorem test_decRun : (ranDec 1 { passTo ⟨1, 0, 0⟩ with
      dec := { (passTo ⟨1, 0, 0⟩).dec with linesDone := 1 }
      params := { Config.Params.default with fetchChunkRows := 1 } }).map
      (fun t => (t.dec.phase, t.errs.pending)) = some (.done, false) := by decide

/-- R111, R323: the DEC.STEP that comes first raises 0x52 on a pass that is `DONE`. -/
theorem test_decRun_done : (ranDec 1 { passTo ⟨0, 0, 0⟩ with
      dec := { (passTo ⟨0, 0, 0⟩).dec with phase := .done } }).map (·.errs) =
    some ⟨true, 0x52, 0x31000000⟩ := by decide

/-! ## The fetch interface -/

theorem test_withFetchWord_command : (stepped (State.reset.withFetchWord 32 0x11000003)).map
    (·.locs.arm) = some ⟨32767, 63, 6⟩ := by decide

theorem test_withFetchWord_record :
    (stepped (State.reset.withFetchWord 128 0x00070006000500040003000200010009)).map
      (fun t => (t.out.reverse.take 2, t.dec.lastTs)) =
        some ([.sample 1, .sample 2], 16) := by decide

/-! ## Witnesses: a state and operands that meet all hypotheses of a statement -/

theorem witness_DecodeOfEncodeIsIdentity : (Instr.locBack .iter 255).wf = true ∧
    (Instr.cluster (level 0xFFFF 0x8001)).wf = true := by decide

theorem witness_EncodeOfDecodeIsIdentity :
    decode (.command 0x1200FF04) = .ok (.locBack .iter 255) ∧
    decode (.record 0) = .ok (.cluster (level 0 0)) := by decide

theorem witness_StepRunsTheDecodedCommand :
    (given (.command 0x10000004)).inbox = .command 0x10000004 :: [] ∧
      decodeCommand 0x10000004 = .ok (.locInc .iter) := ⟨rfl, rfl⟩

theorem witness_StepRunsThePlacedRecord :
    encode (.cluster ⟨9, 1, 2, 3, 4, 5, 6, 7⟩) =
      .record (BitVec.ofNat 128 0x00070006000500040003000200010009) := by decide

theorem witness_IllegalCommandIsRecorded_word :
    (given (.command 0x03000000)).inbox = .command 0x03000000 :: [] ∧
      (given (.command 0x03000000)).errs.pending = false ∧
      illegalIn (given (.command 0x03000000)) 0x03000000 := by
  refine ⟨rfl, rfl, .inl fun h => ?_⟩
  have e : (0x03000000 : Word).toNat = 50331648 := rfl
  rw [e] at h
  simp only [legalWord] at h
  omega

theorem witness_IllegalCommandIsRecorded_index :
    (given (.command 0x32000001)).inbox = .command 0x32000001 :: [] ∧
      (given (.command 0x32000001)).errs.pending = false ∧
      illegalIn (given (.command 0x32000001)) 0x32000001 :=
  ⟨rfl, rfl, .inr ⟨1, by decide, by decide, .inl rfl⟩⟩

theorem witness_PendingErrorGate_command :
    (failed (given (.command 0x10000004))).inbox = .command 0x10000004 :: [] ∧
      (failed (given (.command 0x10000004))).errs.pending = true ∧
      (0x10000004 : Word) ≠ 0x00000000 ∧ (0x10000004 : Word) ≠ 0x01000000 ∧
      (0x10000004 : Word) ≠ 0x02000000 := by decide

theorem witness_PendingErrorGate_write :
    (failed (given (.portWrite 0x05 1))).inbox = .portWrite 0x05 1 :: [] ∧
      (failed (given (.portWrite 0x05 1))).errs.pending = true := by decide

theorem witness_PendingErrorGate_read :
    (failed (given (.portRead 0xFF))).inbox = .portRead 0xFF :: [] ∧
      (failed (given (.portRead 0xFF))).errs.pending = true := by decide

theorem witness_SequenceErrorsByPhase :
    (∀ r, Instr.decStep ≠ .cluster r) ∧ State.reset.errs.pending = false ∧
      allowed .decStep State.reset = false ∧ (∀ r, Instr.decSetup ≠ .cluster r) ∧
      allowed .decSetup State.reset = true ∧ ∃ t, exec .decSetup State.reset = .next t :=
  ⟨nofun, rfl, rfl, nofun, rfl, _, rfl⟩

theorem witness_ErrorsArePrecise : ∃ t, step (given (.command 0x31000000)) = .next t ∧
    (given (.command 0x31000000)).errs.pending = false ∧ t.errs.pending = true ∧
    t.errs.code ≠ 0x11 := ⟨_, rfl, by decide, by decide, by decide⟩

theorem witness_FirstErrorIsKept : ∃ t u, step (failed (given (.command 0x31000000))) = .next t ∧
    (failed (given (.command 0x31000000))).errs.pending = true ∧
    step (failed (given (.command 0x02000000))) = .next u ∧
    (failed (given (.command 0x02000000))).errs.pending = true := ⟨_, _, rfl, rfl, rfl, rfl⟩

/-- A good state in the middle of an acquisition: a pass set up, DEC.STEP issued. -/
theorem witness_EveryStepKeepsGoodStates :
    Inv { passTo ⟨0, 6, 0⟩ with inbox := [.command 0x31000000] } ∧
      ∃ t, step { passTo ⟨0, 6, 0⟩ with inbox := [.command 0x31000000] } = .next t := by
  refine ⟨?_, _, rfl⟩
  constructor
  case locs_legal => intro r; cases r <;> decide
  all_goals decide

theorem witness_ResetRegistersReadZero : portReg 0x04 = some .spe ∧ portReg 0x55 = some .genMask := by
  decide

theorem witness_SentFileIsImmutable : ∃ t,
    step { given (.command 0x22000000) with tphase := .sent } = .next t ∧
    ({ given (.command 0x22000000) with tphase := .sent } : State).tphase = .sent ∧
    (given (.command 0x22000000)).inbox.head? ≠ some (.command 0x01000000) ∧
    (given (.command 0x22000000)).inbox.head? ≠ some (.command 0x02000000) :=
  ⟨_, rfl, rfl, by decide, by decide⟩

theorem witness_SpecificationIsFrozen : ∃ t,
    step { given (.portWrite 0x08 1) with tphase := .compiled } = .next t ∧
    ({ given (.portWrite 0x08 1) with tphase := .compiled } : State).tphase ≠ .empty ∧
    (given (.portWrite 0x08 1)).inbox.head? ≠ some (.command 0x01000000) :=
  ⟨_, rfl, by decide, by decide⟩

theorem witness_PortsAreAppendOnlyAndMemoryIsRead : ∃ t,
    step (given (.portRead 0)) = .next t ∧
    (∀ cells, (given (.portRead 0)).inbox.head? ≠ some (.capture cells)) ∧
    (given (.portRead 0)).inbox.head? ≠ some (.command 0x31000000) ∧
    (given (.portRead 0)).inbox.head? ≠ some (.command 0x23000000) :=
  ⟨_, rfl, nofun, by decide, by decide⟩

theorem witness_ParametersAreConstant : ∃ t, step (given (.command 0x02000000)) = .next t := ⟨_, rfl⟩

/-- The three cases: inside a cluster, at the end of a cluster, at the end of the memory. -/
theorem witness_LocIncMovesToTheNextLocation :
    State.reset.errs.pending = false ∧ State.reset.dec.phase = .idle ∧
    ((located .iter ⟨0, 0, 5⟩).locs.get .iter).legal ∧
    ((located .iter ⟨0, 62, 6⟩).locs.get .iter).legal ∧
    ((located .iter ⟨32767, 63, 6⟩).locs.get .iter).legal := by decide

theorem witness_LocDecMovesToThePreviousLocation :
    State.reset.errs.pending = false ∧ State.reset.dec.phase = .idle ∧
    ((located .iter ⟨0, 0, 1⟩).locs.get .iter).legal ∧
    ((located .iter ⟨0, 1, 0⟩).locs.get .iter).legal ∧
    (State.reset.locs.get .iter).legal := by decide

theorem witness_LocBackWalksToTheFloor :
    (located .arm ⟨0, 4, 3⟩).errs.pending = false ∧ (located .arm ⟨0, 4, 3⟩).dec.phase = .idle ∧
    ((located .arm ⟨0, 4, 3⟩).locs.get .arm).legal ∧ (located .arm ⟨0, 4, 3⟩).locs.start.legal := by
  decide

theorem witness_LocCmpComparesLocations : State.reset.errs.pending = false := by decide

theorem witness_LocMovCopiesTheLocation :
    State.reset.errs.pending = false ∧ State.reset.dec.phase = .idle := by decide

theorem witness_PosDecodeLoadsAdjustedPositions :
    let s : State := { State.reset with pos := ⟨0, 0, 7, 0⟩ }
    s.errs.pending = false ∧ s.dec.phase = .idle ∧ s.pos.poslen = 7 := by decide

theorem witness_PosDecodeRejectsAWrongLength :
    State.reset.errs.pending = false ∧ State.reset.dec.phase = .idle ∧ State.reset.pos.poslen ≠ 7 := by
  decide

theorem witness_LutgenDecidesTheMaskedValue :
    State.reset.errs.pending = false ∧ State.reset.tphase ≠ .sent := by decide

theorem witness_EvalSetsHit : State.reset.errs.pending = false := by decide

theorem witness_FuncFoldsThePrimitive :
    State.reset.errs.pending = false ∧ State.reset.tphase ≠ .sent := by decide

/-- The three clauses: three edge channels; two at a fast tier; two at a slow tier and one at a fast. -/
theorem witness_CompileChecksTheSpecification :
    State.reset.errs.pending = false ∧ State.reset.tphase ≠ .sent ∧
    (channels 0x8003).card > 2 ∧ (channels 0x8001).card = 2 ∧
    (specified ⟨0, 0, 0x8001, 0⟩ 1).config ∈ (specified ⟨0, 0, 0x8001, 0⟩ 1).params.fastTiers ∧
    ¬ (specified ⟨0, 0, 0x8001, 0⟩ 0).config ∈ (specified ⟨0, 0, 0x8001, 0⟩ 0).params.fastTiers ∧
    (channels 0x8000).card ≤ 2 ∧ (channels 0x8000).card ≠ 2 := by decide

theorem witness_CompiledFileMatchesTheSpecification :
    let s := specified ⟨0x8020, 0x8030, 0x8000, 0x0001⟩ 0
    s.errs.pending = false ∧ s.tphase ≠ .sent ∧
    (channels (s.spec.risingMask ||| s.spec.fallingMask)).card ≤
      (if s.config ∈ s.params.fastTiers then 1 else 2) ∧
    s.spec.simpleMask ||| s.spec.risingMask ||| s.spec.fallingMask ≠ 0 := by decide

/-- The three clauses on the edge channels: none, one, two. -/
theorem witness_CompileFillsTheMembers :
    let s := specified ⟨0x8020, 0x8030, 0x8000, 0x0001⟩ 0
    s.errs.pending = false ∧ s.tphase ≠ .sent ∧
    (channels (s.spec.risingMask ||| s.spec.fallingMask)).card ≤
      (if s.config ∈ s.params.fastTiers then 1 else 2) ∧
    s.spec.simpleMask ||| s.spec.risingMask ||| s.spec.fallingMask ≠ 0 ∧
    channels (s.spec.risingMask ||| s.spec.fallingMask) = {0, 15} ∧ (0 : Fin 16) < 15 ∧
    channels (0x0010 ||| 0x0010) = {4} ∧ channels (0 ||| 0) = ∅ := by decide

theorem witness_CompileOfAnEmptySpecificationClears :
    State.reset.errs.pending = false ∧ State.reset.tphase ≠ .sent ∧ State.reset.spec.simpleMask = 0 ∧
    State.reset.spec.risingMask = 0 ∧ State.reset.spec.fallingMask = 0 := by decide

theorem witness_XmitSendsTheFile :
    let s : State := { State.reset with tphase := .compiled }
    s.errs.pending = false ∧ s.tphase = .compiled := by decide

theorem witness_SetupStartsThePass :
    State.reset.errs.pending = false ∧ State.reset.dec.phase = .idle ∧
    State.reset.capstat.getLsbD 0 = false ∧
    ({ State.reset with capstat := 1 } : State).capstat.getLsbD 0 = true := by decide

theorem witness_SetupPlacesTheArmPosition :
    (located .trig ⟨0, 4, 3⟩).errs.pending = false ∧ (located .trig ⟨0, 4, 3⟩).dec.phase = .idle ∧
    (located .trig ⟨0, 4, 3⟩).locs.trig.legal := by decide

theorem witness_DeintExtractsTheSubSample :
    let s : State := { State.reset with config := 2 }
    s.errs.pending = false ∧ 3 < 2 ^ s.config.toNat := by decide

theorem witness_ReintAccumulatesTheSubSample :
    let s : State := { State.reset with config := 1 }
    s.errs.pending = false ∧ 1 < 2 ^ s.config.toNat ∧ 2 ^ s.config.toNat * 7 < 16 ∧
      6 % 2 ^ s.config.toNat ≠ 1 := by decide

/-- The clauses: no event due (`STOP` at the start); one event due; the window open without a marker,
checking and arming in the record; the refinement taking no part. -/
theorem witness_RecordAdvancesThePass :
    eventsDue (passTo ⟨0, 0, 0⟩) = 0 ∧ eventsDue (passTo ⟨0, 0, 1⟩) ≠ 0 ∧
    (passTo ⟨0, 0, 1⟩).locs.iter.legal ∧
    (let s := gapped (checking ⟨0, 1, 0⟩)
     eventsDue s = 7 ∧ s.locs.iter.legal ∧ s.dec.armValid = true ∧ s.dec.matched = false ∧
       (s.dec.armed = true → s.dec.evtRemain ≠ 0) ∧
       (∀ i, i < (samplesOf (level 9 1) s).length → softwareMatch (level 9 1) s i = false) ∧
       (∀ e, e < eventsDue s → standsAt s s.locs.trig e = false) ∧
       checksAt (disarmed s ⟨0, 0, 6⟩) 5 = false ∧ checksAt (disarmed s ⟨0, 0, 6⟩) 6 = true) ∧
    (passTo ⟨0, 0, 1⟩).dec.armed = false ∧ (passTo ⟨0, 0, 1⟩).dec.armValid = false := by decide

theorem witness_RecordEmitsItsSamplesAndAtMostOneMarker :
    eventsDue (checking ⟨0, 0, 2⟩) ≠ 0 ∧ (checking ⟨0, 0, 2⟩).dec.armed = true ∧
      (checking ⟨0, 0, 2⟩).dec.matched = false ∧ (checking ⟨0, 0, 2⟩).dec.armValid = true := by decide

/-- At the first and the last event, behind the fill of a gap. -/
theorem witness_ForcedMarkerStandsAtTheTriggerPosition :
    (let s := gapped (checking ⟨0, 0, 0⟩)
     0 < eventsDue s ∧ s.locs.iter.legal ∧ s.dec.armValid = true ∧ s.dec.matched = false ∧
       (s.dec.armed = true → s.dec.evtRemain ≠ 0) ∧ standsAt s s.locs.trig 0 = true ∧
       samplesBefore (level 9 1) s 0 = 2 ∧
       ∀ i, i < samplesBefore (level 9 1) s 0 → softwareMatch (level 9 1) s i = false) ∧
    (let s := gapped (checking ⟨0, 0, 6⟩)
     6 < eventsDue s ∧ standsAt s s.locs.trig 6 = true ∧ samplesBefore (level 9 1) s 6 = 8 ∧
       ∀ i, i < samplesBefore (level 9 1) s 6 → softwareMatch (level 9 1) s i = false) := by decide

/-- On a fill sample, on a later event (R276 in an edge), and on the event at `ARM`. -/
theorem witness_SoftwareMatchPlacesTheMarker :
    (let s : State := { gapped (checking ⟨0, 4, 3⟩) with spec := ⟨1, 1, 0, 0⟩ }
     0 < (samplesOf (level 9 1) s).length ∧ eventsDue s ≠ 0 ∧ s.locs.iter.legal ∧
       s.dec.armValid = true ∧ s.dec.matched = false ∧
       (s.dec.armed = true → s.dec.evtRemain ≠ 0) ∧ softwareMatch (level 9 1) s 0 = true ∧
       0 < samplesBefore (level 9 1) s 0 ∧
       ∀ e, e < eventsDue s → standsAt s s.locs.trig e = false) ∧
    (let s := gapped (checking ⟨0, 0, 4⟩)
     let r : ClusterRecord := ⟨9, 0, 0, 0, 1, 0, 0, 0⟩
     5 < (samplesOf r s).length ∧ softwareMatch r s 5 = true ∧
       (∀ j, j < 5 → softwareMatch r s j = false) ∧
       (∀ e, e < eventsDue s → standsAt s s.locs.trig e = true → 5 < samplesBefore r s e)) ∧
    (let s := disarmed (gapped (checking ⟨0, 4, 3⟩)) ⟨0, 0, 1⟩
     let r : ClusterRecord := ⟨9, 0, 1, 0, 0, 0, 0, 0⟩
     s.dec.armed = false ∧ softwareMatch r s 3 = true ∧ budgetAt s (eventOf r s 3) = 56 ∧
       ∀ j, j < 3 → softwareMatch r s j = false) := by decide

/-- The three ways the row may come: no answer listed, the memory, other bytes. -/
theorem witness_DecStepRunsTheRecordsOfARow :
    let s : State := { passTo ⟨0, 6, 0⟩ with params := { Config.Params.default with fetchChunkRows := 1 } }
    s.errs.pending = false ∧ s.dec.phase = .ready ∧ s.params.fetchChunkRows = 1 ∧
      s.dec.linesDone ≠ s.dec.linesTotal ∧ s.locs.iter = ⟨currentRow s, 0, 0⟩ ∧ s.answers = [] ∧
      ({ s with answers := [.memory] } : State).answers = .memory :: [] ∧
      ({ s with answers := [.supplied [1]] } : State).answers = .supplied [1] :: [] := by decide

theorem witness_DecStepRecordsAFailedRead :
    let s : State := { passTo ⟨0, 6, 0⟩ with answers := [.ioError] }
    s.errs.pending = false ∧ s.dec.phase = .ready ∧ 1 ≤ s.params.fetchChunkRows ∧
      s.answers = .ioError :: [] ∧ s.dec.linesDone ≠ s.dec.linesTotal := by decide

theorem witness_ChunkSizeDoesNotShow :
    (passTo ⟨0, 6, 0⟩).errs.pending = false ∧ (passTo ⟨0, 6, 0⟩).dec.phase = .ready := by decide

theorem witness_CompletedPassHasTheSampleCount :
    let s := located .stop ⟨5, 17, 3⟩
    s.errs.pending = false ∧ s.dec.phase = .idle ∧ s.locs.stop.legal ∧ s.answers = [] ∧
      ∃ p, exec .decSetup s = .next p ∧ p.dec.linesTotal.toNat ≤ p.params.fetchChunkRows :=
  ⟨by decide, by decide, by decide, by decide, _, rfl, by decide⟩

/-- The clauses: an assigned index by number and by name, the unassigned index next to it. -/
theorem witness_PortReadReturnsTheRegister :
    (given (.portRead 0x23)).inbox = .portRead 0x23 :: [] ∧ portReg 0x23 = some (.loc .iter .event) ∧
      ((0x23 : BitVec 8).toNat, 0) ∈ portTable (given (.portRead 0x23)) ∧
      (given (.portRead 0x24)).inbox = .portRead 0x24 :: [] ∧
      (0x24 : BitVec 8).toNat ∉ (portTable (given (.portRead 0x24))).map (·.1) ∧
      (given (.portRead 0x24)).errs.pending = false := by decide

/-- Each way to be refused, next to an index that is not: read-only, unassigned, a location during a
pass, a table once sent, the specification once compiled. -/
theorem witness_PortWriteIsRefusedOutsideItsCondition :
    (given (.portWrite 0x04 1)).inbox = .portWrite 0x04 1 :: [] ∧
    (given (.portWrite 0x04 1)).errs.pending = false ∧
    ¬ hostWritable (given (.portWrite 0x04 1)) (0x04 : BitVec 8).toNat ∧
    hostWritable State.reset 0x23 ∧ ¬ hostWritable State.reset 0x24 ∧
    ¬ hostWritable (passTo ⟨0, 6, 0⟩) 0x23 ∧
    ¬ hostWritable { State.reset with tphase := .sent } 0x52 ∧
    ¬ hostWritable { State.reset with tphase := .compiled } 0x0B :=
  ⟨rfl, rfl, by decide, by decide, by decide, by decide, by decide, by decide⟩

/-- A register of 24 bits, and the last member of the lookup-table file. -/
theorem witness_PortWriteStoresTheLowBits :
    (given (.portWrite 0x39 0xFF123456)).inbox = .portWrite 0x39 0xFF123456 :: [] ∧
    (given (.portWrite 0x39 0xFF123456)).errs.pending = false ∧
    hostWritable (given (.portWrite 0x39 0xFF123456)) (0x39 : BitVec 8).toNat ∧
    plainWidth (0x39 : BitVec 8).toNat = some 24 ∧
    hostWritable State.reset 0x52 ∧ plainWidth 0x52 = some 16 ∧ lutIndex 0x52 = true := by decide

/-- Both clauses, at the tiers 3 and 2. -/
theorem witness_ConfigWriteChecksTheTier :
    (given (.portWrite 0x03 7)).inbox = .portWrite 0x03 7 :: [] ∧
    (given (.portWrite 0x03 7)).errs.pending = false ∧
    (given (.portWrite 0x03 7)).dec.phase = .idle ∧ (given (.portWrite 0x03 7)).tphase = .empty ∧
    (7 : Word).toNat % 4 = 3 ∧ (6 : Word).toNat % 4 ≠ 3 := by decide

/-- Both clauses, at the last slot of a cluster and the one before it. -/
theorem witness_RawWriteStoresTheLocation :
    (given (.portWrite 0x20 0x0100020F)).inbox =
      .portWrite (0x10 + 4 * LocReg.iter.code.setWidth 8) 0x0100020F :: [] ∧
    (given (.portWrite 0x20 0x0100020F)).errs.pending = false ∧
    (given (.portWrite 0x20 0x0100020F)).dec.phase = .idle ∧
    (0x0100020F : Word).toNat % 8 = 7 ∧ (0x0100020E : Word).toNat % 8 ≠ 7 := by decide

/-- The four clauses: row, cluster, event 6, event 7. -/
theorem witness_FieldWriteReplacesTheField :
    (given (.portWrite 0x23 6)).inbox =
      .portWrite (0x10 + 4 * LocReg.iter.code.setWidth 8 + 3) 6 :: [] ∧
    (given (.portWrite 0x11 6)).inbox =
      .portWrite (0x10 + 4 * LocReg.start.code.setWidth 8 + 1) 6 :: [] ∧
    (given (.portWrite 0x16 6)).inbox =
      .portWrite (0x10 + 4 * LocReg.stop.code.setWidth 8 + 2) 6 :: [] ∧
    (given (.portWrite 0x23 6)).errs.pending = false ∧
    (given (.portWrite 0x23 6)).dec.phase = .idle ∧
    (6 : Word).toNat % 8 ≠ 7 ∧ (15 : Word).toNat % 8 = 7 := by decide

/-- At the last byte of the memory. -/
theorem witness_CaptureStoresOneByte :
    Memory.wf (given (.capture [(33554431, 5)])).mem ∧ 33554431 < 33554432 ∧
    (given (.capture [(33554431, 5)])).inbox = .capture [(33554431, 5)] :: [] := by decide

/-- The stop is met: the first byte behind the memory. -/
theorem witness_OnlyAForeignAddressStops :
    step (given (.capture [(33554432, 5)])) = .fault (.noSuchAddress 33554432) := rfl

theorem witness_RecordWordsComeFromTheirAddresses : (⟨32767, 63, 6⟩ : Location).legal := by decide

theorem witness_DeintThenReintRoundTrips : (1 = 1 ∨ 1 = 2 ∨ 1 = 4) ∧ (4 = 1 ∨ 4 = 2 ∨ 4 = 4) := by
  decide

end Sys2Proof.Tests
end

section
/-! The location operations LOC.DEC and LOC.CMP (40_addresser.md R135, R136, R145, R147). -/

namespace Sys2Proof.Machine

/-! ## The phase check passed -/

/-- R323 for an operation bound to a phase of unit D, in that phase and with no error pending. -/
theorem inPhase_of_phase {s : State} {ph : DPhase} (he : s.errs.pending = false)
    (hp : s.dec.phase = ph) (w : Word) (body : State → State) : inPhase ph w body s = body s := by
  simp only [inPhase, gated_of_none he, hp, ↓reduceIte]

/-! ## What the instructions do -/

theorem exec_locDec {s : State} (he : s.errs.pending = false) (hp : s.dec.phase = .idle)
    (lr : LocReg) :
    exec (.locDec lr) s = .next { s with locs := s.locs.set lr (s.locs.get lr).dec } :=
  congrArg Host.Outcome.next (inPhase_of_phase he hp _ _)

theorem exec_locCmp {s : State} (he : s.errs.pending = false) (la lb : LocReg) :
    exec (.locCmp la lb) s =
      .next { s with eqFlag := (s.locs.get la).same (s.locs.get lb) } :=
  congrArg Host.Outcome.next (gated_of_none he _)

/-! ## `Inc` and `Dec` undo each other, R135

Both move the position of a location by one, circularly, and a location is determined by its
position. -/

theorem Location.inc_dec {l : Location} (hl : l.legal) : l.dec.inc = l := by
  have hd := Location.dec_legal hl
  apply Location.position_inj (Location.inc_legal hd) hl
  rw [Location.inc_position hd, Location.dec_position hl]

theorem Location.dec_inc {l : Location} (hl : l.legal) : l.inc.dec = l := by
  have hi := Location.inc_legal hl
  apply Location.position_inj (Location.dec_legal hi) hl
  have hlt := Location.position_lt hl
  have hlt' := Location.position_lt (Location.dec_legal hi)
  have hpos : (l.inc.dec.position + 1) % locationCount = (l.position + 1) % locationCount := by
    rw [Location.dec_position hi, Location.inc_position hl]
  simp only [locationCount, Config.rows, Config.eventsPerRow] at hlt hlt' hpos
  omega

/-! ## `Eq`, R136 -/

theorem Location.same_iff_fields (a b : Location) :
    a.same b = true ↔ a.row = b.row ∧ a.cluster = b.cluster ∧ a.event = b.event := by
  simp only [Location.same, Bool.and_eq_true, beq_iff_eq, and_assoc]

theorem Location.same_iff_pack (a b : Location) : a.same b = true ↔ a.pack = b.pack := by
  rw [Location.same_iff]
  exact ⟨congrArg Location.pack, Location.pack_inj⟩

/-! ## The statements -/

/-- Settles O24: the register gets `Dec` of its location, whose fields and inverse are those of R135. -/
theorem locDecMovesToThePreviousLocation : Obligations.LocDecMovesToThePreviousLocation := by
  intro s lr he hp hl
  exact ⟨(s.locs.get lr).dec, exec_locDec he hp lr, Location.dec_toNat hl, Location.inc_dec hl,
    Location.dec_inc hl⟩

/-- Settles O26: the flag gets `Eq`, which R136 gives both by the fields and by the raw offsets. -/
theorem locCmpComparesLocations : Obligations.LocCmpComparesLocations := by
  intro s la lb he
  exact ⟨_, exec_locCmp he la lb, Location.same_iff_fields _ _, Location.same_iff_pack _ _⟩

end Sys2Proof.Machine
end

section
/-! The system operation SYS.NOP (46_system.md R301). -/

namespace Sys2Proof.Machine

/-! ## The all-zero word -/

/-- R91: the all-zero word has no bit that any format leaves unnamed. -/
theorem withFormat_zero (fmt : Format) (r : Except DecodeError Instr) :
    withFormat fmt 0x00000000 r = r :=
  if_pos (by simp only [BitVec.ofNat_eq_ofNat, BitVec.zero_and])

/-- R93: opcode 0x00 selects SYS.NOP; R91: no operand bit of the all-zero word is set. -/
theorem decodeCommand_zero : decodeCommand 0x00000000 = .ok .sysNop :=
  withFormat_zero .n (.ok .sysNop)

/-! ## What the instruction does -/

/-- There is no gate on a pending error (60_exceptions.md R328), so no hypothesis on the state. -/
@[simp] theorem exec_sysNop (s : State) : exec .sysNop s = .next s := rfl

/-! ## The statement -/

/-- Settles O20: the all-zero word is SYS.NOP, which answers the state it was given. -/
theorem nopChangesNothing : Obligations.NopChangesNothing :=
  ⟨decodeCommand_zero, exec_sysNop⟩

end Sys2Proof.Machine
end

section
/-! The per-acquisition reset SYS.INIT (70_reset_and_hazards.md R361, 46_system.md R303). -/

namespace Sys2Proof.Machine

/-! ## What the instruction does -/

/-- The registers as SYS.RESET leaves them but for those R361 keeps; the environment as it was. -/
def initialised (s : State) : State :=
  { s with
    toRegisters := { Registers.zero with
      config := s.config, spec := s.spec, x0 := s.x0, x1 := s.x1,
      genValue := s.genValue, genMask := s.genMask } }

/-- There is no gate on a pending error (60_exceptions.md R328), so no hypothesis on the state. -/
theorem exec_sysInit (s : State) : exec .sysInit s = .next (initialised s) := rfl

/-- The registers of the port that R361 keeps. `SPE` is among them: it is a function of `CONFIG` and of
nothing else that SYS.INIT changes. -/
def keptByInit : List PortReg :=
  [.config, .spe, .simpleValue, .simpleMask, .risingMask, .fallingMask, .x0, .x1, .genValue, .genMask]

theorem portValue_initialised_of_kept (s : State) :
    ∀ r ∈ keptByInit, portValue (initialised s) r = portValue s r := by
  simp only [keptByInit, List.forall_mem_cons]
  exact ⟨rfl, rfl, rfl, rfl, rfl, rfl, rfl, rfl, rfl, rfl, List.forall_mem_nil _⟩

/-! ## The registers selected by an operand, when all are 0 -/

theorem zero_locs_get (r : LocReg) : Registers.zero.locs.get r = .zero := by cases r <;> rfl

theorem Location.zero_field (f : LocField) : Location.zero.field f = 0 := by cases f <;> rfl

theorem zero_lut_table (sel : TableSel) : Registers.zero.lut.table sel = .zero := by
  cases sel <;> rfl

theorem TableSet.zero_get (q : Fin 4) : TableSet.zero.get q = 0 := by
  match q with
  | 0 | 1 | 2 | 3 => rfl

theorem zero_lut_glue (g : GlueSel) : Registers.zero.lut.glue g = 0 := by cases g <;> rfl

theorem zero_lut_param (i : Fin 3) : Registers.zero.lut.param i = 0 := by
  match i with
  | 0 | 1 | 2 => rfl

theorem portValue_initialised_of_cleared (s : State) {r : PortReg} (hk : r ∉ keptByInit)
    (hs : r ≠ .status) : portValue (initialised s) r = 0 := by
  cases r with
  | status => exact absurd rfl hs
  | config | spe | simpleValue | simpleMask | risingMask | fallingMask | x0 | x1 | genValue | genMask =>
    exact absurd (by decide) hk
  | loc lr f => exact (congrArg (·.field f) (zero_locs_get lr)).trans (Location.zero_field f)
  | table sel q =>
    have hq : (Registers.zero.lut.table sel).get q = 0 := by rw [zero_lut_table, TableSet.zero_get]
    exact congrArg (BitVec.setWidth 32) hq
  | glue g => exact congrArg (BitVec.setWidth 32) (zero_lut_glue g)
  | param i => exact congrArg (BitVec.setWidth 32) (zero_lut_param i)
  | samplesOutHi => exact BitVec.extractLsb'_zero
  | err | errinfo | capstat | lastTs | lastSample | evtRemain | linesDone | linesTotal | samplesOutLo
  | markersOut | posbufLo | posbufHi | poslen | modestat => rfl

/-! ## `STATUS`: of its flags only `USE_TRIG`, which is computed from the masks, can be left -/

/-- 10_state.md R28: no trigger is configured exactly when all three masks are 0. -/
theorem TriggerSpec.useTrig_eq_false_iff (p : TriggerSpec) :
    p.useTrig = false ↔ p.simpleMask = 0 ∧ p.risingMask = 0 ∧ p.fallingMask = 0 := by
  simp only [TriggerSpec.useTrig, bne_eq_false_iff_eq, BitVec.ofNat_eq_ofNat, BitVec.or_eq_zero_iff,
    and_assoc]

theorem status_initialised (s : State) :
    status (initialised s) = if s.spec.useTrig = false then 0 else 0x400 := by
  simp only [status, initialised]
  cases s.spec.useTrig <;> rfl

/-! ## The statement -/

/-- Settles O22: SYS.INIT answers `initialised`, read register by register: kept, `STATUS`, cleared. -/
theorem initKeepsTheConfiguration : Obligations.InitKeepsTheConfiguration := by
  intro s
  refine ⟨initialised s, exec_sysInit s, rfl, fun r => ?_⟩
  by_cases hk : r ∈ keptByInit
  · exact (portValue_initialised_of_kept s r hk).trans (if_pos hk).symm
  · refine Eq.trans ?_ (if_neg hk).symm
    split
    case isTrue hs =>
      simp only [hs, portValue, status_initialised, TriggerSpec.useTrig_eq_false_iff]
    case isFalse hs => exact portValue_initialised_of_cleared s hk hs

end Sys2Proof.Machine
end

section
/-! The command words (30_encoding.md R91 to R94) and the cluster record (R100): decoder and encoder, both
held against one number per instruction. -/

namespace Sys2Proof

/-! ## Words as sums of fields -/

/-- Bits of a number whose field of `n` bits from bit `lo` on is 0. -/
theorem testBit_of_field_zero {x lo n i : Nat} (h : x / 2 ^ lo % 2 ^ n = 0) (hlo : lo ≤ i)
    (hi : i < lo + n) : x.testBit i = false := by
  have hb : (x / 2 ^ lo % 2 ^ n).testBit (i - lo) = x.testBit i := by
    rw [Nat.testBit_mod_two_pow, Nat.testBit_div_two_pow, Nat.sub_add_cancel hlo,
      decide_eq_true (by omega), Bool.true_and]
  rw [← hb, h, Nat.zero_testBit]

theorem place_toNat {n : Nat} (v : BitVec n) {lo : Nat} (h : lo + n ≤ 32) :
    (place v lo).toNat = v.toNat * 2 ^ lo := by
  have hv := v.isLt
  have hp : v.toNat * 2 ^ lo < 2 ^ 32 := calc
    v.toNat * 2 ^ lo < 2 ^ n * 2 ^ lo := Nat.mul_lt_mul_of_pos_right hv (Nat.two_pow_pos lo)
    _ = 2 ^ (lo + n) := by rw [← Nat.pow_add, Nat.add_comm]
    _ ≤ 2 ^ 32 := Nat.pow_le_pow_right (by decide) h
  have hn : v.toNat < 2 ^ 32 := Nat.lt_of_lt_of_le hv (Nat.pow_le_pow_right (by decide) (by omega))
  rw [place, BitVec.toNat_shiftLeft, BitVec.toNat_setWidth, Nat.mod_eq_of_lt hn, Nat.shiftLeft_eq,
    Nat.mod_eq_of_lt hp]

/-- A value placed in a field that is still 0 is added. -/
theorem or_place_toNat {n lo a : Nat} {x : Word} (v : BitVec n) (hx : x.toNat = a) (h : lo + n ≤ 32)
    (ha : a / 2 ^ lo % 2 ^ n = 0) : (x ||| place v lo).toNat = a + v.toNat * 2 ^ lo := by
  subst hx
  have hd : x &&& place v lo = 0 := by
    apply BitVec.eq_of_getLsbD_eq
    intro i hi
    rw [BitVec.getLsbD_and, place, BitVec.getLsbD_shiftLeft, BitVec.getLsbD_setWidth]
    by_cases hf : lo ≤ i ∧ i < lo + n
    · rw [BitVec.getLsbD, testBit_of_field_zero ha hf.1 hf.2, Bool.false_and]
      simp
    · rcases Nat.lt_or_ge i lo with hl | hl
      · simp [hl]
      · rw [BitVec.getLsbD_of_ge v (i - lo) (by omega)]
        simp
  rw [← BitVec.add_eq_or_of_and_eq_zero _ _ hd, BitVec.toNat_add_of_and_eq_zero hd, place_toNat v h]

/-- The bits that a format names, as a number made of its fields (R91). -/
def Format.fields : Format → Nat → Nat
  | .n, _ => 0
  | .l, w => w % 8
  | .ln, w => w / 256 % 256 * 256 + w % 8
  | .ll, w => w / 16 % 8 * 16 + w % 8
  | .s, w => w % 4
  | .f, w => w % 1024
  | .k, w => w % 4

/-- A field of three bits and the field of `m` bits at bit `lo` above it. -/
theorem and_seven_or_place_toNat {m lo : Nat} (w : Word) (v : BitVec m) (hlo : 3 ≤ lo)
    (h : lo + m ≤ 32) :
    (w &&& 0x7 ||| place v lo).toNat = v.toNat * 2 ^ lo + w.toNat % 8 := by
  have h7 : (w &&& 0x7).toNat = w.toNat % 8 := Nat.and_two_pow_sub_one_eq_mod w.toNat 3
  have h8 : 2 ^ 3 ≤ 2 ^ lo := Nat.pow_le_pow_right (by decide) hlo
  rw [or_place_toNat v h7 h (by rw [Nat.div_eq_of_lt (by omega), Nat.zero_mod]), Nat.add_comm]

theorem Format.named_toNat (fmt : Format) (w : Word) :
    (w &&& fmt.named).toNat = fmt.fields w.toNat := by
  have low : ∀ n, w.toNat &&& (2 ^ n - 1) = w.toNat % 2 ^ n := Nat.and_two_pow_sub_one_eq_mod w.toNat
  cases fmt with
  | n => simp [named, fields]
  | l => exact low 3
  | s => exact low 2
  | k => exact low 2
  | f => exact low 10
  | ln =>
    have hw : w &&& Format.ln.named = w &&& 0x7 ||| place (fieldN w) 8 := by
      apply BitVec.eq_of_getLsbD_eq
      intro i hi
      interval_cases i <;> simp [named, place, fieldN]
    rw [hw, and_seven_or_place_toNat _ _ (by decide) (by decide)]
    simp [fields, fieldN, Nat.shiftRight_eq_div_pow]
  | ll =>
    have hw : w &&& Format.ll.named = w &&& 0x7 ||| place (fieldB w) 4 := by
      apply BitVec.eq_of_getLsbD_eq
      intro i hi
      interval_cases i <;> simp [named, place, fieldB]
    rw [hw, and_seven_or_place_toNat _ _ (by decide) (by decide)]
    simp [fields, fieldB, Nat.shiftRight_eq_div_pow]

/-- R91: every bit of 23:0 that the format does not name is 0. -/
theorem unnamed_eq_zero_iff (fmt : Format) (w : Word) :
    w &&& 0x00FFFFFF &&& ~~~ fmt.named = 0 ↔ w.toNat % 2 ^ 24 = fmt.fields w.toNat := by
  have hsub : fmt.named &&& 0x00FFFFFF = fmt.named := by cases fmt <;> rfl
  have hm : (w &&& 0x00FFFFFF).toNat = w.toNat % 2 ^ 24 := Nat.and_two_pow_sub_one_eq_mod w.toNat 24
  rw [← fmt.named_toNat w, ← hm, BitVec.toNat_inj]
  constructor
  · intro h
    calc w &&& 0x00FFFFFF
        = w &&& 0x00FFFFFF &&& fmt.named ||| w &&& 0x00FFFFFF &&& ~~~ fmt.named := by
          rw [← BitVec.and_or_distrib_left, BitVec.or_not_self, BitVec.and_allOnes]
      _ = w &&& fmt.named := by
          rw [h, BitVec.and_assoc, BitVec.and_comm _ fmt.named, hsub]
          exact BitVec.or_zero
  · intro h
    rw [h, BitVec.and_assoc, BitVec.and_not_self]
    exact BitVec.and_zero

/-! ## The operand codes, R92, R106, R107 -/

theorem LocReg.ofCode_eq_some (c : BitVec 3) (r : LocReg) : LocReg.ofCode c = some r ↔ r.code = c := by
  revert c
  cases r <;> decide

theorem TableSel.ofCode_eq_some (c : BitVec 2) (t : TableSel) :
    TableSel.ofCode c = some t ↔ t.code = c := by
  revert c
  cases t <;> decide

theorem Prim.ofCode_eq (c : BitVec 3) (p : Prim) : Prim.ofCode c = p ↔ p.code = c := by
  revert c
  cases p <;> decide

theorem Combinator.ofCode_eq_some (c : BitVec 3) (f : Combinator) :
    Combinator.ofCode c = some f ↔ f.code = c := by
  revert c
  cases f <;> decide

theorem EdgeSlot.ofCode_eq (b : Bool) (e : EdgeSlot) : EdgeSlot.ofCode b = e ↔ e.code = b := by
  cases b <;> cases e <;> decide

theorem GlueSel.ofCode_eq_some (c : BitVec 2) (g : GlueSel) :
    GlueSel.ofCode c = some g ↔ g.code = c := by
  revert c
  cases g <;> decide

/-! ## The decoder, one equivalence for all rows of R93 -/

/-- The opcode of a command instruction, R93; a record has none. -/
def Instr.opcode : Instr → Nat
  | .sysNop => 0x00
  | .sysReset => 0x01
  | .sysInit => 0x02
  | .locInc _ => 0x10
  | .locDec _ => 0x11
  | .locBack _ _ => 0x12
  | .locCmp _ _ => 0x13
  | .locMov _ _ => 0x14
  | .posDecode => 0x18
  | .trgLutgen _ => 0x20
  | .trgFunc _ _ _ _ _ => 0x21
  | .trgCompile => 0x22
  | .trgXmit => 0x23
  | .trgEval _ => 0x24
  | .decSetup => 0x30
  | .decStep => 0x31
  | .decDeint _ => 0x32
  | .decReint _ => 0x33
  | .cluster _ => 256

/-- The format of a command instruction, R93. -/
def Instr.format : Instr → Format
  | .locInc _ | .locDec _ => .l
  | .locBack _ _ => .ln
  | .locCmp _ _ | .locMov _ _ => .ll
  | .trgLutgen _ | .trgEval _ => .s
  | .trgFunc _ _ _ _ _ => .f
  | .decDeint _ | .decReint _ => .k
  | _ => .n

/-- The operand fields of the word hold the operands of the instruction, R92. -/
def Instr.operandsIn (w : Word) : Instr → Prop
  | .locInc lr | .locDec lr => lr.code = fieldA w
  | .locBack lr n => lr.code = fieldA w ∧ n = (fieldN w).toNat
  | .locCmp la lb | .locMov la lb => la.code = fieldA w ∧ lb.code = fieldB w
  | .trgLutgen set | .trgEval set => set.code = fieldS w
  | .trgFunc op func slot neg target =>
      op.code = fieldA w ∧ func.code = fieldFunc w ∧ slot.code = w.getLsbD 6 ∧
        neg = w.getLsbD 7 ∧ target.code = fieldTarget w
  | .decDeint k | .decReint k => k = (fieldS w).toNat
  | _ => True

theorem withFormat_eq_ok_iff (fmt : Format) (w : Word) (r : Except DecodeError Instr) (i : Instr) :
    withFormat fmt w r = .ok i ↔ w.toNat % 2 ^ 24 = fmt.fields w.toNat ∧ r = .ok i := by
  rw [← unnamed_eq_zero_iff, withFormat]
  by_cases h : w &&& 0x00FFFFFF &&& ~~~ fmt.named = 0
  · rw [if_pos h, and_iff_right h]
  · rw [if_neg h]
    exact ⟨nofun, fun hr => absurd hr.1 h⟩

theorem operand_bind_eq_ok_iff {α : Type} (o : Option α) (f : α → Except DecodeError Instr) (i : Instr) :
    (operand o >>= f) = .ok i ↔ ∃ a, o = some a ∧ f a = .ok i := by
  cases o with
  | none => simp [operand, bind, Except.bind]
  | some a => simp [operand, bind, Except.bind]

/-- R93 with R91 and R92: which words decode to an instruction. -/
theorem decodeCommand_eq_ok_iff (w : Word) (i : Instr) :
    decodeCommand w = .ok i ↔ (opcodeOf w).toNat = i.opcode ∧
      w.toNat % 2 ^ 24 = i.format.fields w.toNat ∧ i.operandsIn w := by
  constructor
  · intro h
    unfold decodeCommand at h
    split at h
    case h_19 => cases h
    all_goals
      rename_i hop
      simp only [withFormat_eq_ok_iff, operand_bind_eq_ok_iff, LocReg.ofCode_eq_some,
        TableSel.ofCode_eq_some, Combinator.ofCode_eq_some, GlueSel.ofCode_eq_some, pure,
        Except.pure, Except.ok.injEq] at h
      obtain ⟨hf, h⟩ := h
    case h_1 | h_2 | h_3 | h_9 | h_12 | h_13 | h_15 | h_16 => subst h; exact ⟨hop, hf, trivial⟩
    case h_4 | h_5 | h_10 | h_14 => obtain ⟨a, ha, rfl⟩ := h; exact ⟨hop, hf, ha⟩
    case h_6 => obtain ⟨a, ha, rfl⟩ := h; exact ⟨hop, hf, ha, rfl⟩
    case h_7 | h_8 => obtain ⟨a, ha, b, hb, rfl⟩ := h; exact ⟨hop, hf, ha, hb⟩
    case h_11 =>
      obtain ⟨f, hfunc, g, hg, rfl⟩ := h
      exact ⟨hop, hf, (Prim.ofCode_eq _ _).mp rfl, hfunc, (EdgeSlot.ofCode_eq _ _).mp rfl, rfl, hg⟩
    case h_17 | h_18 => subst h; exact ⟨hop, hf, rfl⟩
  · rintro ⟨hop, hf, ho⟩
    unfold decodeCommand
    rw [hop]
    cases i with
    | cluster r => exact absurd hop (Nat.ne_of_lt (opcodeOf w).isLt)
    | sysNop | sysReset | sysInit | posDecode | trgCompile | trgXmit | decSetup | decStep =>
      exact (withFormat_eq_ok_iff ..).mpr ⟨hf, rfl⟩
    | locInc lr | locDec lr =>
      refine (withFormat_eq_ok_iff ..).mpr ⟨hf, (operand_bind_eq_ok_iff ..).mpr ⟨lr, ?_, rfl⟩⟩
      exact (LocReg.ofCode_eq_some ..).mpr ho
    | locBack lr n =>
      obtain ⟨hl, rfl⟩ := ho
      refine (withFormat_eq_ok_iff ..).mpr ⟨hf, (operand_bind_eq_ok_iff ..).mpr ⟨lr, ?_, rfl⟩⟩
      exact (LocReg.ofCode_eq_some ..).mpr hl
    | locCmp la lb | locMov la lb =>
      refine (withFormat_eq_ok_iff ..).mpr ⟨hf, (operand_bind_eq_ok_iff ..).mpr ⟨la, ?_,
        (operand_bind_eq_ok_iff ..).mpr ⟨lb, ?_, rfl⟩⟩⟩
      · exact (LocReg.ofCode_eq_some ..).mpr ho.1
      · exact (LocReg.ofCode_eq_some ..).mpr ho.2
    | trgLutgen set | trgEval set =>
      refine (withFormat_eq_ok_iff ..).mpr ⟨hf, (operand_bind_eq_ok_iff ..).mpr ⟨set, ?_, rfl⟩⟩
      exact (TableSel.ofCode_eq_some ..).mpr ho
    | trgFunc op func slot neg target =>
      obtain ⟨hprim, hfunc, hslot, rfl, htarget⟩ := ho
      refine (withFormat_eq_ok_iff ..).mpr ⟨hf, (operand_bind_eq_ok_iff ..).mpr ⟨func, ?_,
        (operand_bind_eq_ok_iff ..).mpr ⟨target, ?_, ?_⟩⟩⟩
      · exact (Combinator.ofCode_eq_some ..).mpr hfunc
      · exact (GlueSel.ofCode_eq_some ..).mpr htarget
      · rw [(Prim.ofCode_eq ..).mpr hprim, (EdgeSlot.ofCode_eq ..).mpr hslot]
        rfl
    | decDeint k | decReint k =>
      obtain rfl := ho
      exact (withFormat_eq_ok_iff ..).mpr ⟨hf, rfl⟩

/-! ## The number of a command word -/

/-- The command word of an instruction as a number: opcode and operand fields at their places, R91 to
R93. -/
def Instr.number (i : Instr) : Nat :=
  2 ^ 24 * i.opcode + match i with
    | .locInc lr | .locDec lr => lr.code.toNat
    | .locBack lr n => 256 * n + lr.code.toNat
    | .locCmp la lb | .locMov la lb => 16 * lb.code.toNat + la.code.toNat
    | .trgLutgen set | .trgEval set => set.code.toNat
    | .trgFunc op func slot neg target =>
        256 * target.code.toNat + 128 * neg.toNat + 64 * slot.code.toNat + 8 * func.code.toNat +
          op.code.toNat
    | .decDeint k | .decReint k => k
    | _ => 0

/-- The instruction is one of the command port. -/
def Instr.isCommand : Instr → Bool
  | .cluster _ => false
  | _ => true

theorem opcodeOf_toNat (w : Word) : (opcodeOf w).toNat = w.toNat / 2 ^ 24 := by
  have := w.isLt
  simp only [opcodeOf, BitVec.extractLsb'_toNat, Nat.shiftRight_eq_div_pow]
  omega

theorem fieldA_toNat (w : Word) : (fieldA w).toNat = w.toNat % 8 := by
  simp [fieldA]

theorem fieldB_toNat (w : Word) : (fieldB w).toNat = w.toNat / 16 % 8 := by
  simp [fieldB, Nat.shiftRight_eq_div_pow]

theorem fieldN_toNat (w : Word) : (fieldN w).toNat = w.toNat / 256 % 256 := by
  simp [fieldN, Nat.shiftRight_eq_div_pow]

theorem fieldS_toNat (w : Word) : (fieldS w).toNat = w.toNat % 4 := by
  simp [fieldS]

theorem fieldFunc_toNat (w : Word) : (fieldFunc w).toNat = w.toNat / 8 % 8 := by
  simp [fieldFunc, Nat.shiftRight_eq_div_pow]

theorem fieldTarget_toNat (w : Word) : (fieldTarget w).toNat = w.toNat / 256 % 4 := by
  simp [fieldTarget, Nat.shiftRight_eq_div_pow]

theorem bit_eq_iff (b : Bool) (w : Word) (k : Nat) :
    b = w.getLsbD k ↔ b.toNat = w.toNat / 2 ^ k % 2 := by
  rw [BitVec.getLsbD, Nat.testBit_eq_decide_div_mod_eq]
  cases b
  · simp only [Bool.toNat_false, Bool.false_eq, decide_eq_false_iff_not]
    omega
  · simp only [Bool.toNat_true, Bool.true_eq, decide_eq_true_iff]
    omega

/-- The words that decode to an instruction are those of its number, if it is well formed. -/
theorem decodeCommand_eq_ok_iff_number (w : Word) (i : Instr) :
    decodeCommand w = .ok i ↔ i.isCommand = true ∧ i.wf = true ∧ w.toNat = i.number := by
  have hw := w.isLt
  rw [decodeCommand_eq_ok_iff, opcodeOf_toNat]
  cases i with
  | cluster r =>
    simp only [Instr.opcode, Instr.isCommand, Bool.false_eq_true, false_and, iff_false]
    omega
  | trgFunc op func slot neg target =>
    have hs := Bool.toNat_lt slot.code
    have hn := Bool.toNat_lt neg
    simp only [Instr.opcode, Instr.format, Instr.operandsIn, Instr.isCommand, Instr.wf, Instr.number,
      Format.fields, ← BitVec.toNat_inj, bit_eq_iff, fieldA_toNat, fieldFunc_toNat, fieldTarget_toNat, Nat.reducePow,
      true_and]
    omega
  | _ =>
    simp only [Instr.opcode, Instr.format, Instr.operandsIn, Instr.isCommand, Instr.wf, Instr.number,
      Format.fields, ← BitVec.toNat_inj, fieldA_toNat, fieldB_toNat, fieldN_toNat, fieldS_toNat,
      decide_eq_true_eq, Nat.reducePow, true_and, and_true]
    omega

/-! ## The encoder -/

/-- R91: the encoder ors the fields into the opcode, and no two of them overlap. -/
theorem commandWord_toNat {i : Instr} (hc : i.isCommand = true) (hw : i.wf = true) :
    (commandWord i).toNat = i.number := by
  cases i with
  | cluster r => cases hc
  | sysNop | sysReset | sysInit | posDecode | trgCompile | trgXmit | decSetup | decStep => rfl
  | locInc lr | locDec lr =>
    exact (or_place_toNat lr.code rfl (by decide) (by decide)).trans (by simp [Instr.number, Instr.opcode])
  | locBack lr n =>
    have hn : n < 256 := of_decide_eq_true hw
    have h0 : (0x12000000 : Word).toNat = 0x12000000 := rfl
    have h := or_place_toNat lr.code (lo := 0) h0 (by decide) (by decide)
    rw [commandWord, or_place_toNat _ h (by decide) (by simp only [Nat.reducePow]; omega)]
    simp only [Instr.number, Instr.opcode, BitVec.toNat_ofNat, Nat.reducePow]
    omega
  | locCmp la lb =>
    have h0 : (0x13000000 : Word).toNat = 0x13000000 := rfl
    have h := or_place_toNat la.code (lo := 0) h0 (by decide) (by decide)
    rw [commandWord, or_place_toNat _ h (by decide) (by simp only [Nat.reducePow]; omega)]
    simp only [Instr.number, Instr.opcode, Nat.reducePow]
    omega
  | locMov la lb =>
    have h0 : (0x14000000 : Word).toNat = 0x14000000 := rfl
    have h := or_place_toNat la.code (lo := 0) h0 (by decide) (by decide)
    rw [commandWord, or_place_toNat _ h (by decide) (by simp only [Nat.reducePow]; omega)]
    simp only [Instr.number, Instr.opcode, Nat.reducePow]
    omega
  | trgLutgen set | trgEval set =>
    exact (or_place_toNat set.code rfl (by decide) (by decide)).trans (by simp [Instr.number, Instr.opcode])
  | trgFunc op func slot neg target =>
    have h0 : (0x21000000 : Word).toNat = 0x21000000 := rfl
    have h1 := or_place_toNat op.code (lo := 0) h0 (by decide) (by decide)
    have h2 := or_place_toNat func.code (lo := 3) h1 (by decide) (by simp only [Nat.reducePow]; omega)
    have h3 := or_place_toNat (BitVec.ofBool slot.code) (lo := 6) h2 (by decide)
      (by simp only [Nat.reducePow]; omega)
    have h4 := or_place_toNat (BitVec.ofBool neg) (lo := 7) h3 (by decide)
      (by simp only [Nat.reducePow]; omega)
    have h5 := or_place_toNat target.code (lo := 8) h4 (by decide) (by simp only [Nat.reducePow]; omega)
    refine h5.trans ?_
    simp only [Instr.number, Instr.opcode, BitVec.toNat_ofBool, Nat.reducePow]
    omega
  | decDeint k | decReint k =>
    have hk : k < 4 := of_decide_eq_true hw
    refine (or_place_toNat (BitVec.ofNat 2 k) rfl (by decide) (by decide)).trans ?_
    simp [Instr.number, Instr.opcode]
    omega

/-! ## The cluster record, R100 -/


/-- Byte `i` of a record, and of bytes behind its sixteen none. -/
theorem bytesOfRecord_getD (b : BitVec 128) (i : Nat) :
    (bytesOfRecord b).getD i 0 = if i < 16 then b.extractLsb' (8 * i) 8 else 0 := by
  split
  · simp_all [bytesOfRecord, List.getD_eq_getElem?_getD]
  · simp_all [bytesOfRecord, List.getD_eq_getElem?_getD]

/-- R100: the 16-bit value at byte `i` of a record is a run of sixteen of its bits. -/
theorem leHalf_bytesOfRecord (b : BitVec 128) {i : Nat} (hi : i + 1 < 16) :
    leHalf (bytesOfRecord b) i = b.extractLsb' (8 * i) 16 := by
  rw [leHalf, bytesOfRecord_getD, bytesOfRecord_getD, if_pos hi, if_pos (by omega)]
  apply BitVec.eq_of_getLsbD_eq
  intro j hj
  rw [BitVec.getLsbD_append, BitVec.getLsbD_extractLsb', BitVec.getLsbD_extractLsb',
    BitVec.getLsbD_extractLsb']
  split
  · simp [*]
  · have h8 : 8 * (i + 1) + (j - 8) = 8 * i + j := by omega
    simp only [hj, h8, decide_true, Bool.true_and, show j - 8 < 8 by omega]

theorem decodeRecordBytes_bytesOfRecord (b : BitVec 128) :
    decodeRecordBytes (bytesOfRecord b) =
      ⟨b.extractLsb' 0 16, b.extractLsb' 16 16, b.extractLsb' 32 16, b.extractLsb' 48 16,
        b.extractLsb' 64 16, b.extractLsb' 80 16, b.extractLsb' 96 16, b.extractLsb' 112 16⟩ := by
  simp [decodeRecordBytes, leHalf_bytesOfRecord]

theorem decodeRecordBytes_recordBits (r : ClusterRecord) :
    decodeRecordBytes (bytesOfRecord (recordBits r)) = r := by
  rw [decodeRecordBytes_bytesOfRecord]
  simp (disch := decide) only [recordBits, BitVec.extractLsb'_append_eq_of_le,
    BitVec.extractLsb'_append_eq_of_add_le, Nat.reduceSub, BitVec.extractLsb'_eq_self]

theorem recordBits_decodeRecordBytes (b : BitVec 128) :
    recordBits (decodeRecordBytes (bytesOfRecord b)) = b := by
  rw [decodeRecordBytes_bytesOfRecord]
  simp (disch := decide) only [recordBits, BitVec.extractLsb'_append_extractLsb'_eq_extractLsb']
  exact BitVec.extractLsb'_eq_self

/-! ## The statements -/

theorem encode_of_isCommand {i : Instr} (hc : i.isCommand = true) :
    encode i = .command (commandWord i) := by
  cases i with
  | cluster r => cases hc
  | _ => rfl

theorem decodeCommand_commandWord {i : Instr} (hc : i.isCommand = true) (hw : i.wf = true) :
    decodeCommand (commandWord i) = .ok i :=
  (decodeCommand_eq_ok_iff_number ..).mpr ⟨hc, hw, commandWord_toNat hc hw⟩

theorem commandWord_of_decodeCommand {w : Word} {i : Instr} (h : decodeCommand w = .ok i) :
    i.isCommand = true ∧ i.wf = true ∧ commandWord i = w := by
  obtain ⟨hc, hw, hn⟩ := (decodeCommand_eq_ok_iff_number ..).mp h
  exact ⟨hc, hw, BitVec.eq_of_toNat_eq ((commandWord_toNat hc hw).trans hn.symm)⟩

/-- Settles O1: a command word has the number of its instruction, which decodes to it alone; a record is cut
where it was joined. -/
theorem decodeOfEncodeIsIdentity : Obligations.DecodeOfEncodeIsIdentity := by
  intro i hw
  cases hc : i.isCommand with
  | true =>
    rw [encode_of_isCommand hc]
    exact decodeCommand_commandWord hc hw
  | false =>
    cases i with
    | cluster r => exact congrArg (fun r => Except.ok (Instr.cluster r)) (decodeRecordBytes_recordBits r)
    | _ => cases hc

/-- Settles O2: the number of a word that decodes is that of the instruction; a record is joined where it
was cut. -/
theorem encodeOfDecodeIsIdentity : Obligations.EncodeOfDecodeIsIdentity := by
  intro image i h
  cases image with
  | command w =>
    obtain ⟨hc, hw, rfl⟩ := commandWord_of_decodeCommand h
    exact ⟨hw, encode_of_isCommand hc⟩
  | record b =>
    obtain rfl : Instr.cluster (decodeRecordBytes (bytesOfRecord b)) = i := Except.ok.inj h
    exact ⟨rfl, congrArg Image.record (recordBits_decodeRecordBytes b)⟩

/-! ## The opcode map by number, R93 with R92 -/

theorem LocReg.code_le (r : LocReg) : r.code.toNat ≤ 4 := by cases r <;> decide

theorem LocReg.exists_code {c : Nat} (h : c ≤ 4) : ∃ r : LocReg, r.code.toNat = c := by
  interval_cases c
  exacts [⟨.start, rfl⟩, ⟨.stop, rfl⟩, ⟨.trig, rfl⟩, ⟨.arm, rfl⟩, ⟨.iter, rfl⟩]

theorem TableSel.code_le (t : TableSel) : t.code.toNat ≤ 2 := by cases t <;> decide

theorem TableSel.exists_code {c : Nat} (h : c ≤ 2) : ∃ t : TableSel, t.code.toNat = c := by
  interval_cases c
  exacts [⟨.m0d, rfl⟩, ⟨.m1d, rfl⟩, ⟨.m2d, rfl⟩]

theorem Prim.exists_code {c : Nat} (h : c ≤ 7) : ∃ p : Prim, p.code.toNat = c :=
  ⟨.ofCode (BitVec.ofNat 3 c), by rw [(Prim.ofCode_eq _ _).mp rfl, BitVec.toNat_ofNat]; omega⟩

theorem Combinator.code_le (f : Combinator) : f.code.toNat ≤ 5 := by cases f <;> decide

theorem Combinator.exists_code {c : Nat} (h : c ≤ 5) : ∃ f : Combinator, f.code.toNat = c := by
  interval_cases c
  exacts [⟨.and, rfl⟩, ⟨.nand, rfl⟩, ⟨.or, rfl⟩, ⟨.nor, rfl⟩, ⟨.xor, rfl⟩, ⟨.xnor, rfl⟩]

theorem EdgeSlot.exists_code {c : Nat} (h : c ≤ 1) : ∃ e : EdgeSlot, e.code.toNat = c := by
  interval_cases c
  exacts [⟨.slot0, rfl⟩, ⟨.slot1, rfl⟩]

theorem exists_bool_toNat {c : Nat} (h : c ≤ 1) : ∃ b : Bool, b.toNat = c := by
  interval_cases c
  exacts [⟨false, rfl⟩, ⟨true, rfl⟩]

theorem GlueSel.code_le (g : GlueSel) : g.code.toNat ≤ 2 := by cases g <;> decide

theorem GlueSel.exists_code {c : Nat} (h : c ≤ 2) : ∃ g : GlueSel, g.code.toNat = c := by
  interval_cases c
  exacts [⟨.m3q, rfl⟩, ⟨.m3s, rfl⟩, ⟨.m4, rfl⟩]

open Machine in
/-- The rows of the opcode map are the numbers of the well-formed command instructions. -/
theorem legalWord_iff (w : Nat) :
    legalWord w ↔ ∃ i : Instr, i.isCommand = true ∧ i.wf = true ∧ w = i.number := by
  constructor
  · rintro (rfl | rfl | rfl | ⟨lr, h, rfl⟩ | ⟨lr, h, rfl⟩ | ⟨lr, n, h, hn, rfl⟩ |
      ⟨la, lb, ha, hb, rfl⟩ | ⟨la, lb, ha, hb, rfl⟩ | rfl | ⟨set, h, rfl⟩ |
      ⟨op, func, slot, neg, target, ho, hf, hs, hn, ht, rfl⟩ | rfl | rfl | ⟨set, h, rfl⟩ | rfl | rfl |
      ⟨k, h, rfl⟩ | ⟨k, h, rfl⟩)
    · exact ⟨.sysNop, rfl, rfl, rfl⟩
    · exact ⟨.sysReset, rfl, rfl, rfl⟩
    · exact ⟨.sysInit, rfl, rfl, rfl⟩
    · obtain ⟨r, rfl⟩ := LocReg.exists_code h
      exact ⟨.locInc r, rfl, rfl, rfl⟩
    · obtain ⟨r, rfl⟩ := LocReg.exists_code h
      exact ⟨.locDec r, rfl, rfl, rfl⟩
    · obtain ⟨r, rfl⟩ := LocReg.exists_code h
      exact ⟨.locBack r n, rfl, decide_eq_true (Nat.lt_succ_of_le hn), Nat.add_assoc ..⟩
    · obtain ⟨a, rfl⟩ := LocReg.exists_code ha
      obtain ⟨b, rfl⟩ := LocReg.exists_code hb
      exact ⟨.locCmp a b, rfl, rfl, Nat.add_assoc ..⟩
    · obtain ⟨a, rfl⟩ := LocReg.exists_code ha
      obtain ⟨b, rfl⟩ := LocReg.exists_code hb
      exact ⟨.locMov a b, rfl, rfl, Nat.add_assoc ..⟩
    · exact ⟨.posDecode, rfl, rfl, rfl⟩
    · obtain ⟨t, rfl⟩ := TableSel.exists_code h
      exact ⟨.trgLutgen t, rfl, rfl, rfl⟩
    · obtain ⟨p, rfl⟩ := Prim.exists_code ho
      obtain ⟨f, rfl⟩ := Combinator.exists_code hf
      obtain ⟨e, rfl⟩ := EdgeSlot.exists_code hs
      obtain ⟨b, rfl⟩ := exists_bool_toNat hn
      obtain ⟨g, rfl⟩ := GlueSel.exists_code ht
      exact ⟨.trgFunc p f e b g, rfl, rfl, by simp only [Instr.number, Instr.opcode]; omega⟩
    · exact ⟨.trgCompile, rfl, rfl, rfl⟩
    · exact ⟨.trgXmit, rfl, rfl, rfl⟩
    · obtain ⟨t, rfl⟩ := TableSel.exists_code h
      exact ⟨.trgEval t, rfl, rfl, rfl⟩
    · exact ⟨.decSetup, rfl, rfl, rfl⟩
    · exact ⟨.decStep, rfl, rfl, rfl⟩
    · exact ⟨.decDeint k, rfl, decide_eq_true (Nat.lt_succ_of_le h), rfl⟩
    · exact ⟨.decReint k, rfl, decide_eq_true (Nat.lt_succ_of_le h), rfl⟩
  · rintro ⟨i, hc, hw, rfl⟩
    unfold legalWord
    cases i with
    | cluster r => cases hc
    | sysNop | sysReset | sysInit | posDecode | trgCompile | trgXmit | decSetup | decStep =>
      simp [Instr.number, Instr.opcode]
    | locInc r =>
      iterate 3 right
      exact .inl ⟨_, r.code_le, rfl⟩
    | locDec r =>
      iterate 4 right
      exact .inl ⟨_, r.code_le, rfl⟩
    | locBack r n =>
      iterate 5 right
      exact .inl ⟨_, n, r.code_le, Nat.le_of_lt_succ (of_decide_eq_true hw), (Nat.add_assoc ..).symm⟩
    | locCmp a b =>
      iterate 6 right
      exact .inl ⟨_, _, a.code_le, b.code_le, (Nat.add_assoc ..).symm⟩
    | locMov a b =>
      iterate 7 right
      exact .inl ⟨_, _, a.code_le, b.code_le, (Nat.add_assoc ..).symm⟩
    | trgLutgen t =>
      iterate 9 right
      exact .inl ⟨_, t.code_le, rfl⟩
    | trgFunc p f e b g =>
      iterate 10 right
      refine .inl ⟨p.code.toNat, f.code.toNat, e.code.toNat, b.toNat, g.code.toNat,
        Nat.le_of_lt_succ p.code.isLt, f.code_le, Bool.toNat_le _, Bool.toNat_le b, g.code_le, ?_⟩
      simp only [Instr.number, Instr.opcode]
      omega
    | trgEval t =>
      iterate 13 right
      exact .inl ⟨_, t.code_le, rfl⟩
    | decDeint n =>
      iterate 16 right
      exact .inl ⟨n, Nat.le_of_lt_succ (of_decide_eq_true hw), rfl⟩
    | decReint n =>
      iterate 17 right
      exact ⟨n, Nat.le_of_lt_succ (of_decide_eq_true hw), rfl⟩

open Machine in
/-- Settles O3: the words that decode have the number of a well-formed instruction, and those numbers are
the rows of the opcode map. -/
theorem decodedWordsAreTheOpcodeMap : Obligations.DecodedWordsAreTheOpcodeMap := by
  intro w
  rw [legalWord_iff]
  exact exists_congr fun i => decodeCommand_eq_ok_iff_number w i

/-- Settles O4. -/
theorem listedWordsDecode : Obligations.ListedWordsDecode :=
  ⟨rfl, rfl, rfl, rfl, rfl, rfl, rfl, rfl⟩

end Sys2Proof
end

section
/-! One account of all instructions and of a step: what an instruction is refused for (60_exceptions.md
R322 to R324), what it does where it is not, and which input a step serves (46_system.md R300). -/

namespace Sys2Proof.Machine

/-! ## What an instruction is refused for, and what it does else -/

/-- The error, code and value, that an allowed instruction raises instead of running (R322). -/
def operandRefusal (i : Instr) (s : State) : Option (BitVec 8 × Word) :=
  match i with
  | .posDecode => if s.pos.poslen = 7 then none else some (0x21, s.pos.poslen.setWidth 32)
  | .trgCompile => (checkSpec s).map fun e => (e.code, s.spec.edges.setWidth 32)
  | .decDeint k | .decReint k => if k < spe s then none else some (0x51, commandWord i)
  | _ => none

/-- The error that an instruction raises instead of running, the phase check first (R324). -/
def refusal (i : Instr) (s : State) : Option (BitVec 8 × Word) :=
  if allowed i s = false then some (0x52, commandWord i) else operandRefusal i s

/-- What an instruction does that is not refused. -/
def effect (i : Instr) (s : State) : State :=
  match i with
  | .sysNop => s
  | .sysReset => { s with toRegisters := Registers.zero }
  | .sysInit => initialised s
  | .locInc lr => setLoc lr (s.locs.get lr).inc s
  | .locDec lr => setLoc lr (s.locs.get lr).dec s
  | .locBack lr n => setLoc lr (Location.back s.locs.start n (s.locs.get lr)) s
  | .locCmp la lb => { s with eqFlag := (s.locs.get la).same (s.locs.get lb) }
  | .locMov la lb => setLoc la (s.locs.get lb) s
  | .posDecode => loadPositions s
  | .trgLutgen set => storeLut (s.lut.setTable set (buildLutEntry s.genValue s.genMask)) s
  | .trgFunc op func slot neg target =>
      storeLut (s.lut.setGlue target (addTriggerFunction op func slot neg (s.lut.glue target))) s
  | .trgCompile => { s with lut := compileFile s.params s.spec, tphase := .compiled }
  | .trgXmit => { transmit (xmitTransactions s.params s.lut) s with tphase := .sent }
  | .trgEval set => { s with hitFlag := lutEval (s.lut.table set) s.x0 }
  | .decSetup => setupPass s
  | .decStep => decodeRows s.params.fetchChunkRows s
  | .decDeint k => { s with x1 := deint (spe s) s.x0 k }
  | .decReint k => { s with x1 := s.x1 ||| reint (spe s) s.x0 k }
  | .cluster r => if eventsDue s = 0 then s else runRecord r (eventsDue s) s

/-- The operations that no pending error stops: the system operations (R328) and the record, which has no
gate of its own (log 8). -/
def ungated : Instr → Bool
  | .sysNop | .sysReset | .sysInit | .cluster _ => true
  | _ => false

theorem exec_of_ungated {i : Instr} (h : ungated i = true) (s : State) :
    exec i s = .next (effect i s) := by
  cases i with
  | sysNop | sysReset | sysInit | cluster r => rfl
  | _ => cases h

/-- R328: the gate. -/
theorem exec_of_pending {i : Instr} {s : State} (h : ungated i = false) (he : s.errs.pending = true) :
    exec i s = .next s := by
  cases i with
  | sysNop | sysReset | sysInit | cluster r => cases h
  | _ => exact congrArg Host.Outcome.next (gated_of_pending he _)

/-- The outcome of an instruction with no error pending. -/
def outcomeOf (i : Instr) (s : State) : State :=
  match refusal i s with
  | some (code, info) => recorded code info s
  | none => effect i s

theorem inPhase_eq {s : State} (he : s.errs.pending = false) (ph : DPhase) (w : Word)
    (body : State → State) : inPhase ph w body s =
      if (s.dec.phase == ph) = false then recorded 0x52 w s else body s := by
  rcases inPhase_cases ph w body s with ⟨h, -⟩ | ⟨-, hp, e⟩ | ⟨-, hp, e⟩
  · rw [he] at h
    cases h
  · rw [e, if_neg (by simp [hp])]
  · rw [e, if_pos (by simp [hp])]

theorem unlessSent_eq {s : State} (he : s.errs.pending = false) (w : Word) (body : State → State) :
    unlessSent w body s =
      if (s.tphase == .empty || s.tphase == .compiled) = false then recorded 0x52 w s else body s := by
  rcases unlessSent_cases w body s with ⟨h, -⟩ | ⟨-, hp, e⟩ | ⟨-, hp, e⟩
  · rw [he] at h
    cases h
  · rw [e, if_neg]
    cases ht : s.tphase with
    | sent => exact absurd ht hp
    | _ => decide
  · rw [e, hp]
    rfl

theorem withSub_eq {s : State} (he : s.errs.pending = false) (w : Word) (k : Nat)
    (body : State → State) :
    withSub w k body s = if k < spe s then body s else recorded 0x51 w s := by
  rcases withSub_cases w k body s with ⟨h, -⟩ | ⟨-, hk, e⟩ | ⟨-, hk, e⟩
  · rw [he] at h
    cases h
  · rw [e, if_pos hk]
  · rw [e, if_neg (Nat.not_lt.mpr hk)]

theorem outcomeOf_of_refusal {i : Instr} {s : State} {code : BitVec 8} {info : Word}
    (h : refusal i s = some (code, info)) : outcomeOf i s = recorded code info s := by
  rw [outcomeOf, h]

theorem outcomeOf_of_no_refusal {i : Instr} {s : State} (h : refusal i s = none) :
    outcomeOf i s = effect i s := by
  rw [outcomeOf, h]

theorem refusal_of_not_allowed {i : Instr} {s : State} (h : allowed i s = false) :
    refusal i s = some (0x52, commandWord i) := if_pos h

theorem refusal_of_allowed {i : Instr} {s : State} (h : allowed i s = true) :
    refusal i s = operandRefusal i s := if_neg (by rw [h]; decide)

/-- R322 to R324: with no error pending an instruction is refused, or runs. -/
theorem exec_of_none {s : State} (he : s.errs.pending = false) (i : Instr) :
    exec i s = .next (outcomeOf i s) := by
  cases ha : allowed i s with
  | false =>
    rw [outcomeOf_of_refusal (refusal_of_not_allowed ha)]
    cases i with
    | locInc | locDec | locBack | locMov | decSetup | decStep | posDecode =>
      exact congrArg Host.Outcome.next ((inPhase_eq he ..).trans (if_pos ha))
    | trgLutgen | trgFunc | trgCompile =>
      exact congrArg Host.Outcome.next ((unlessSent_eq he ..).trans (if_pos ha))
    | trgXmit =>
      refine congrArg Host.Outcome.next ((gated_of_none he _).trans ((if_neg ?_).trans (raise_of_none he ..)))
      exact beq_eq_false_iff_ne.mp ha
    | _ => cases ha
  | true =>
    have hr := refusal_of_allowed ha
    have hn : ¬ allowed i s = false := by simp [ha]
    cases i with
    | sysNop | sysReset | sysInit | cluster r => rfl
    | locInc | locDec | locBack | locMov | decSetup | decStep =>
      rw [outcomeOf_of_no_refusal hr]
      exact congrArg Host.Outcome.next ((inPhase_eq he ..).trans (if_neg hn))
    | posDecode =>
      refine congrArg Host.Outcome.next ((inPhase_eq he ..).trans ((if_neg hn).trans ?_))
      by_cases h7 : s.pos.poslen = 7
      · rw [outcomeOf_of_no_refusal (hr.trans (if_pos h7))]
        exact if_pos h7
      · rw [outcomeOf_of_refusal (hr.trans (if_neg h7))]
        exact (if_neg h7).trans (raise_of_none he ..)
    | trgLutgen | trgFunc =>
      rw [outcomeOf_of_no_refusal hr]
      exact congrArg Host.Outcome.next ((unlessSent_eq he ..).trans (if_neg hn))
    | trgCompile =>
      refine congrArg Host.Outcome.next ((unlessSent_eq he ..).trans ((if_neg hn).trans ?_))
      cases hc : checkSpec s with
      | none => rw [outcomeOf_of_no_refusal (hr.trans (by simp [operandRefusal, hc]))]; rfl
      | some e =>
        rw [outcomeOf_of_refusal (hr.trans (by simp [operandRefusal, hc]; exact ⟨rfl, rfl⟩))]
        exact raise_of_none he ..
    | trgXmit =>
      rw [outcomeOf_of_no_refusal hr]
      exact congrArg Host.Outcome.next ((gated_of_none he _).trans (if_pos (beq_iff_eq.mp ha)))
    | locCmp | trgEval =>
      rw [outcomeOf_of_no_refusal hr]
      exact congrArg Host.Outcome.next (gated_of_none he _)
    | decDeint k | decReint k =>
      refine congrArg Host.Outcome.next ((withSub_eq he ..).trans ?_)
      by_cases hk : k < spe s
      · rw [outcomeOf_of_no_refusal (hr.trans (if_pos hk)), if_pos hk]
        rfl
      · rw [outcomeOf_of_refusal (hr.trans (if_neg hk)), if_neg hk]

/-- The two ways an instruction runs through with no error pending. -/
theorem exec_effect {i : Instr} {s : State} (he : s.errs.pending = false) (h : refusal i s = none) :
    exec i s = .next (effect i s) := by
  rw [exec_of_none he, outcomeOf_of_no_refusal h]

theorem exec_refused {i : Instr} {s : State} {code : BitVec 8} {info : Word}
    (he : s.errs.pending = false) (h : refusal i s = some (code, info)) :
    exec i s = .next (recorded code info s) := by
  rw [exec_of_none he, outcomeOf_of_refusal h]

/-- Every instruction answers a next state: unchanged behind the gate, else refused or run. -/
theorem exec_cases (i : Instr) (s : State) :
    (s.errs.pending = true ∧ ungated i = false ∧ exec i s = .next s) ∨
    (s.errs.pending = true ∧ ungated i = true ∧ exec i s = .next (effect i s)) ∨
    (∃ code info, s.errs.pending = false ∧ refusal i s = some (code, info) ∧
      exec i s = .next (recorded code info s)) ∨
    (s.errs.pending = false ∧ refusal i s = none ∧ exec i s = .next (effect i s)) := by
  cases he : s.errs.pending with
  | true =>
    cases hu : ungated i with
    | true => exact .inr (.inl ⟨rfl, rfl, exec_of_ungated hu s⟩)
    | false => exact .inl ⟨rfl, rfl, exec_of_pending hu he⟩
  | false =>
    cases hr : refusal i s with
    | none => exact .inr (.inr (.inr ⟨rfl, rfl, exec_effect he hr⟩))
    | some x => exact .inr (.inr (.inl ⟨x.1, x.2, rfl, rfl, exec_refused he hr⟩))

/-- Settles O12. -/
theorem everyInstructionCompletes : Obligations.EveryInstructionCompletes := by
  intro i s
  rcases exec_cases i s with ⟨-, -, h⟩ | ⟨-, -, h⟩ | ⟨_, _, -, -, h⟩ | ⟨-, -, h⟩
  all_goals exact ⟨_, h⟩

/-! ## One step -/

theorem withInbox_eq_served {s : State} {x : Input} {rest : List Input} (h : s.inbox = x :: rest) :
    withInbox rest s = served s := by
  rw [withInbox, served, h]
  rfl

theorem step_of_nil {s : State} (h : s.inbox = []) : step s = .next s := by
  simp only [step, h]

theorem step_command {s : State} {w : Word} {rest : List Input} {i : Instr}
    (h : s.inbox = .command w :: rest) (hd : decodeCommand w = .ok i) : step s = exec i (served s) := by
  simp only [step, h, decode, hd, ← withInbox_eq_served h]

theorem step_illegal {s : State} {w : Word} {rest : List Input}
    (h : s.inbox = .command w :: rest) (hd : ∀ i, decodeCommand w ≠ .ok i) :
    step s = .next (raise .illegalCommand w (served s)) := by
  simp only [step, h, decode, ← withInbox_eq_served h]
  cases hw : decodeCommand w with
  | ok i => exact absurd hw (hd i)
  | error e => rfl

theorem step_portRead {s : State} {index : BitVec 8} {rest : List Input}
    (h : s.inbox = .portRead index :: rest) : step s = .next (portRead index (served s)) := by
  simp only [step, h, ← withInbox_eq_served h]

theorem step_portWrite {s : State} {index : BitVec 8} {v : Word} {rest : List Input}
    (h : s.inbox = .portWrite index v :: rest) : step s = .next (portWrite index v (served s)) := by
  simp only [step, h, ← withInbox_eq_served h]

theorem step_capture {s : State} {cells : List Host.Cell} {rest : List Input}
    (h : s.inbox = .capture cells :: rest) : step s = captureCells cells (served s) := by
  simp only [step, h, ← withInbox_eq_served h]

/-- R300 whole: a step waits, runs a legal command, takes an illegal one, serves a port transaction, or
takes in captured bytes. -/
theorem step_cases (s : State) :
    (s.inbox = [] ∧ step s = .next s) ∨
    (∃ w rest i, s.inbox = .command w :: rest ∧ decodeCommand w = .ok i ∧ step s = exec i (served s)) ∨
    (∃ w rest, s.inbox = .command w :: rest ∧ (∀ i, decodeCommand w ≠ .ok i) ∧
      step s = .next (raise .illegalCommand w (served s))) ∨
    (∃ index rest, s.inbox = .portRead index :: rest ∧ step s = .next (portRead index (served s))) ∨
    (∃ index v rest, s.inbox = .portWrite index v :: rest ∧
      step s = .next (portWrite index v (served s))) ∨
    (∃ cells rest, s.inbox = .capture cells :: rest ∧ step s = captureCells cells (served s)) := by
  cases h : s.inbox with
  | nil => exact .inl ⟨rfl, step_of_nil h⟩
  | cons x rest =>
    cases x with
    | command w =>
      by_cases hd : ∃ i, decodeCommand w = .ok i
      · obtain ⟨i, hd⟩ := hd
        exact .inr (.inl ⟨w, rest, i, rfl, hd, step_command h hd⟩)
      · have hd := not_exists.mp hd
        exact .inr (.inr (.inl ⟨w, rest, rfl, hd, step_illegal h hd⟩))
    | portRead index => exact .inr (.inr (.inr (.inl ⟨index, rest, rfl, step_portRead h⟩)))
    | portWrite index v => exact .inr (.inr (.inr (.inr (.inl ⟨index, v, rest, rfl, step_portWrite h⟩))))
    | capture cells => exact .inr (.inr (.inr (.inr (.inr ⟨cells, rest, rfl, step_capture h⟩))))

/-- Settles O5. -/
theorem stepRunsTheDecodedCommand : Obligations.StepRunsTheDecodedCommand := by
  intro s w rest i h hd
  exact ⟨step_command h hd, by rw [served_inbox, h]; rfl⟩

end Sys2Proof.Machine
end

section
/-! What DEC.STEP and a register-port write can do, each said once (44_decoder.md R240, 46_system.md
R304). -/

namespace Sys2Proof.Machine

/-! ## The stream and the sample count, whatever the flags -/

/-- From `s` to `t` the stream is only appended to, and `SAMPLES_OUT` counts `n` samples. -/
def Grows (n : Nat) (s t : State) : Prop :=
  ∃ items, t.out = items ++ s.out ∧ t.dec.samplesOut = s.dec.samplesOut + BitVec.ofNat 64 n

theorem Grows.ofEq {s t : State} (ho : t.out = s.out) (hs : t.dec.samplesOut = s.dec.samplesOut) :
    Grows 0 s t := ⟨[], ho, by simp [hs]⟩

theorem Grows.trans {m n : Nat} {s t u : State} (h : Grows m s t) (h' : Grows n t u) :
    Grows (m + n) s u := by
  obtain ⟨is, ho, hs⟩ := h
  obtain ⟨js, ho', hs'⟩ := h'
  exact ⟨js ++ is, by rw [ho', ho, List.append_assoc],
    by rw [hs', hs, BitVec.ofNat_add, BitVec.add_assoc]⟩

theorem placeMarker_grows (s : State) : Grows 0 s (placeMarker s) :=
  ⟨[.trigger], rfl, by simp⟩

theorem softwareCheck_grows (v : Half) (s : State) : Grows 0 s (softwareCheck v s) := by
  unfold softwareCheck
  split
  · exact placeMarker_grows s
  · exact .ofEq rfl rfl

theorem budgetStep_grows (s : State) : Grows 0 s (budgetStep s) := by
  unfold budgetStep
  split <;> exact .ofEq rfl rfl

theorem armStep_grows (s : State) : Grows 0 s (armStep s) := by
  unfold armStep
  split <;> exact .ofEq rfl rfl

theorem forceStep_grows (s : State) : Grows 0 s (forceStep s) := by
  unfold forceStep
  split
  · exact placeMarker_grows s
  · exact .ofEq rfl rfl

theorem locationCheck_grows (s : State) : Grows 0 s (locationCheck s) := by
  unfold locationCheck
  split
  · exact ((budgetStep_grows s).trans (armStep_grows _)).trans (forceStep_grows _)
  · exact .ofEq rfl rfl

theorem emitSample_grows (v : Half) (s : State) : Grows 1 s (emitSample v s) := by
  have hlast : Grows 1 (softwareCheck v s) (emitSample v s) := ⟨[.sample v], rfl, rfl⟩
  have h := (softwareCheck_grows v s).trans hlast
  rwa [Nat.zero_add] at h

theorem emitSamples_grows (vs : List Half) (s : State) : Grows vs.length s (emitSamples vs s) := by
  induction vs generalizing s with
  | nil => exact .ofEq rfl rfl
  | cons v rest ih =>
    rw [List.length_cons, Nat.add_comm]
    exact (emitSample_grows v s).trans (ih _)

theorem runEvent_grows (w : Half) (s : State) : Grows (spe s) s (runEvent w s) := by
  have h := (locationCheck_grows s).trans (emitSamples_grows (wordSamples s w) (locationCheck s))
  rwa [wordSamples_length, Nat.zero_add] at h

theorem runEvents_grows (ws : List Half) (s : State) : Grows (ws.length * spe s) s (runEvents ws s) := by
  induction ws generalizing s with
  | nil => rw [List.length_nil, Nat.zero_mul]; exact .ofEq rfl rfl
  | cons w rest ih =>
    have h := (runEvent_grows w s).trans (ih (runEvent w s))
    rw [(runEvent_onlyPass w s).spe] at h
    rw [List.length_cons, Nat.add_one_mul, Nat.add_comm]
    exact h

theorem expectTs_grows (ts : Half) (s : State) : Grows 0 s (expectTs ts s) := by
  unfold expectTs
  split <;> exact .ofEq rfl rfl

theorem gapOf_expectTs (r : ClusterRecord) (s : State) : gapOf r.ts (expectTs r.ts s) = recordGap r s := by
  rw [gapOf, expectTs_lastTs]
  rfl

theorem words_take_length (r : ClusterRecord) {m : Nat} (hm : m ≤ 7) : (r.words.take m).length = m := by
  simp [ClusterRecord.words, hm]

/-- R242: the samples a record puts on the stream, counted. -/
theorem runRecord_grows (r : ClusterRecord) {m : Nat} (hm : m ≤ 7) (s : State) :
    Grows ((recordGap r s + m) * 2 ^ s.config.toNat) s (runRecord r m s) := by
  have hs := (expectTs_onlyPass r.ts s).spe
  have hfill := emitSamples_grows
    (List.replicate (recordGap r s * spe s) (expectTs r.ts s).dec.lastSample) (expectTs r.ts s)
  have hstart := (expectTs_grows r.ts s).trans hfill
  have hframe := (expectTs_onlyPass r.ts s).trans (emitSamples_onlyPass
    (List.replicate (recordGap r s * spe s) (expectTs r.ts s).dec.lastSample) (expectTs r.ts s))
  simp only [runRecord, gapOf_expectTs, emitFill_eq, hs]
  generalize emitSamples (List.replicate (recordGap r s * spe s) (expectTs r.ts s).dec.lastSample)
    (expectTs r.ts s) = u at hstart hframe
  have hrun := runEvents_grows (r.words.take m)
    { u with dec := { u.dec with lastTs := r.ts + BitVec.ofNat 16 Config.eventsPerCluster } }
  have h := (hstart.trans (.ofEq rfl rfl)).trans hrun
  have hu : spe { u with dec := { u.dec with
      lastTs := r.ts + BitVec.ofNat 16 Config.eventsPerCluster } } = spe s := hframe.spe
  rw [hu, words_take_length r hm, List.length_replicate, Nat.zero_add, Nat.add_zero, ← Nat.add_mul,
    spe_eq] at h
  exact h

theorem decodeClusters_grows (buf : List Byte) (fuel c nEv : Nat) (s : State) :
    ∃ n, Grows n s (decodeClusters buf fuel c nEv s) := by
  induction fuel generalizing c nEv s with
  | zero => exact ⟨0, .ofEq rfl rfl⟩
  | succ k ih =>
    unfold decodeClusters
    split
    · exact ⟨0, .ofEq rfl rfl⟩
    · obtain ⟨n, hn⟩ := ih (c + 1) (nEv - min Config.eventsPerCluster nEv)
        (runRecord (recordAt buf c) (min Config.eventsPerCluster nEv) s)
      exact ⟨_, (runRecord_grows _ (Nat.min_le_left _ _) s).trans hn⟩

/-! ## DEC.STEP -/

/-- `t` differs from `s` only in what DEC.STEP writes: the cursor, unit D's bookkeeping, the stream, which
is appended to, the environment's answers and, for a read that fails, the error registers. -/
def OnlyStep (s t : State) : Prop :=
  ∃ (iter : Location) (d : Decoder) (items : List OutItem) (answers : List MemAnswer) (e : ErrorRegs),
    t = { s with
      locs := { s.locs with iter := iter }, dec := d, errs := e, out := items ++ s.out,
      answers := answers } ∧
    (e = s.errs ∨ ∃ info, s.errs.pending = false ∧ e = ⟨true, 0x11, info⟩)

theorem finishPass_onlyStep (s : State) : OnlyStep s (finishPass s) := by
  unfold finishPass
  split
  · exact ⟨s.locs.iter, { s.dec with phase := .done }, [], s.answers, s.errs, rfl, .inl rfl⟩
  · exact ⟨s.locs.iter, s.dec, [], s.answers, s.errs, rfl, .inl rfl⟩

/-- One row read and decoded. -/
theorem decodedRow_onlyStep (buf : List Byte) (nEv : Nat) (rest : List MemAnswer) (s : State) :
    ∃ (iter : Location) (d : Decoder) (items : List OutItem),
      rowDone (decodeRow buf nEv { s with answers := rest }) = { s with
        locs := { s.locs with iter := iter }, dec := d, out := items ++ s.out, answers := rest } := by
  obtain ⟨n, items, ho, -⟩ := decodeClusters_grows buf Config.clustersPerRow 0 nEv { s with answers := rest }
  obtain ⟨iter, d, out, h, -⟩ := decodeRow_onlyPass buf nEv { s with answers := rest }
  rw [decodeRow] at h
  rw [h] at ho
  refine ⟨iter, { d with linesDone := d.linesDone + 1 }, items, ?_⟩
  rw [decodeRow, h, ← show out = items ++ s.out from ho]
  rfl

theorem decodeRows_onlyStep (n : Nat) (s : State) : OnlyStep s (decodeRows n s) := by
  induction n generalizing s with
  | zero => exact finishPass_onlyStep s
  | succ n ih =>
    unfold decodeRows
    split
    · exact finishPass_onlyStep s
    · obtain ⟨rest, hr, -⟩ := readRow_cases (currentRow s) s
      split
      next t he =>
        rw [he] at hr
        obtain rfl : t = _ := hr
        rcases raise_cases .ioMemRead ((currentRow s).setWidth 32) { s with answers := rest } with
          ⟨hp, e⟩ | ⟨hp, e⟩
        · exact ⟨s.locs.iter, s.dec, [], rest, s.errs, e, .inl rfl⟩
        · exact ⟨s.locs.iter, s.dec, [], rest, _, e, .inr ⟨_, hp, rfl⟩⟩
      next buf t he =>
        rw [he] at hr
        obtain rfl : t = _ := hr
        obtain ⟨iter, d, items, h⟩ := decodedRow_onlyStep buf (rowEvents { s with answers := rest }) rest s
        obtain ⟨iter', d', items', answers, e, h', hc⟩ :=
          ih (rowDone (decodeRow buf (rowEvents { s with answers := rest }) { s with answers := rest }))
        rw [h] at h' hc
        rw [h]
        exact ⟨iter', d', items' ++ items, answers, e, by rw [h', List.append_assoc], hc⟩

/-! ## The register port -/

theorem setWidth_event_eq_seven_iff (v : Word) : v.setWidth 3 = (7 : BitVec 3) ↔ v.toNat % 8 = 7 := by
  rw [← BitVec.toNat_inj, BitVec.toNat_setWidth]
  rfl

theorem setWidth_tier_eq_three_iff (v : Word) : v.setWidth 2 = (3 : BitVec 2) ↔ v.toNat % 4 = 3 := by
  rw [← BitVec.toNat_inj, BitVec.toNat_setWidth]
  rfl

theorem reduceRaw_toNat (v : Word) : (reduceRaw v).toNat = v.toNat % 2 ^ 24 := by
  rw [reduceRaw, BitVec.toNat_ofNat, Nat.mod_mod]

/-- What a served register-port write changes, R304: by the kind of the register written. -/
inductive Written (s : State) : State → Prop
  /-- a value that its check refuses (R25, R30) -/
  | refused {code : BitVec 8} (info : Word) (h : code = 0x22 ∨ code = 0x33) :
      Written s (recorded code info s)
  /-- a field of a location register -/
  | location (r : LocReg) (l : Location) (hp : s.dec.phase = .idle)
      (hl : (s.locs.get r).legal → l.legal) : Written s (setLoc r l s)
  /-- a member of the lookup-table file -/
  | file (f : LutFile) (ht : s.tphase ≠ .sent) : Written s (storeLut f s)
  /-- the trigger specification or `CONFIG` -/
  | specification (p : TriggerSpec) (c : BitVec 2) (hp : s.dec.phase = .idle) (ht : s.tphase = .empty)
      (hc : s.config ≠ 3 → c ≠ 3) : Written s { s with spec := p, config := c }
  /-- `CAPSTAT` or the position response -/
  | capture (p : PositionRegs) (c : BitVec 2) (hp : s.dec.phase = .idle) :
      Written s { s with pos := p, capstat := c }
  /-- a scratch register -/
  | scratch (a b g m : Half) : Written s { s with x0 := a, x1 := b, genValue := g, genMask := m }

theorem storeLoc_written {s : State} (he : s.errs.pending = false) (hp : s.dec.phase = .idle) (r : LocReg)
    (f : LocField) (v : Word) : Written s (storeLoc r f v s) := by
  cases f with
  | raw =>
    unfold storeLoc
    rcases breakDown_cases v with ⟨-, h⟩ | ⟨-, h, hl⟩
    · simp only [h, raise_of_none he]
      exact .refused _ (.inl rfl)
    · simp only [h]
      exact .location r _ hp fun _ => hl
  | row => exact .location r _ hp id
  | cluster => exact .location r _ hp id
  | event =>
    simp only [storeLoc, raise_of_none he]
    split
    · exact .refused _ (.inl rfl)
    next h => exact .location r _ hp fun _ => h

/-- R304: what an accepted write does. -/
theorem storeReg_written {s : State} (he : s.errs.pending = false) {r : PortReg}
    (hw : portWritable s r = true) (v : Word) : Written s (storeReg r v s) := by
  cases r with
  | config =>
    simp only [portWritable, Bool.and_eq_true, beq_iff_eq] at hw
    simp only [storeReg, raise_of_none he]
    split
    · exact .refused _ (.inr rfl)
    next h => exact .specification s.spec _ hw.1 hw.2 fun _ => h
  | simpleValue | simpleMask | risingMask | fallingMask =>
    simp only [portWritable, Bool.and_eq_true, beq_iff_eq] at hw
    exact .specification _ s.config hw.1 hw.2 id
  | capstat => exact .capture s.pos _ (beq_iff_eq.mp hw)
  | posbufLo | posbufHi | poslen => exact .capture _ s.capstat (beq_iff_eq.mp hw)
  | loc r f => exact storeLoc_written he (beq_iff_eq.mp hw) r f v
  | table | glue | param => exact .file _ (bne_iff_ne.mp hw)
  | x0 => exact .scratch _ s.x1 s.genValue s.genMask
  | x1 => exact .scratch s.x0 _ s.genValue s.genMask
  | genValue => exact .scratch s.x0 s.x1 _ s.genMask
  | genMask => exact .scratch s.x0 s.x1 s.genValue _
  | _ => cases hw

theorem portWrite_of_register {s : State} (he : s.errs.pending = false) {index : BitVec 8} {r : PortReg}
    (hr : portReg index = some r) (v : Word) : portWrite index v s =
      if portWritable s r = true then storeReg r v s else recorded 0x53 (index.setWidth 32) s := by
  rw [portWrite, gated_of_none he]
  simp only [hr, raise_of_none he]
  rfl

theorem portWrite_of_none {s : State} (he : s.errs.pending = false) {index : BitVec 8}
    (hr : portReg index = none) (v : Word) :
    portWrite index v s = recorded 0x53 (index.setWidth 32) s := by
  rw [portWrite, gated_of_none he]
  simp only [hr, raise_of_none he]
  rfl

/-- R22 whole: a register-port write is ignored, refused, or served. -/
theorem portWrite_cases (index : BitVec 8) (v : Word) (s : State) :
    (s.errs.pending = true ∧ portWrite index v s = s) ∨
    (s.errs.pending = false ∧ portWrite index v s = recorded 0x53 (index.setWidth 32) s) ∨
    (s.errs.pending = false ∧ Written s (portWrite index v s)) := by
  cases he : s.errs.pending with
  | true => exact .inl ⟨rfl, gated_of_pending he _⟩
  | false =>
    cases hr : portReg index with
    | none => exact .inr (.inl ⟨rfl, portWrite_of_none he hr v⟩)
    | some r =>
      rw [portWrite_of_register he hr]
      split
      next hw => exact .inr (.inr ⟨rfl, storeReg_written he hw v⟩)
      · exact .inr (.inl ⟨rfl, rfl⟩)

/-- R22 whole: a register-port read replies, and records an error on an unassigned index. -/
theorem portRead_cases (index : BitVec 8) (s : State) :
    (∃ v, portRead index s = reply v s) ∨
    (s.errs.pending = false ∧ portRead index s = reply 0 (recorded 0x53 (index.setWidth 32) s)) := by
  unfold portRead
  split
  · exact .inl ⟨_, rfl⟩
  · rcases raise_cases .badAccess (index.setWidth 32) s with ⟨-, e⟩ | ⟨he, e⟩
    · exact .inl ⟨0, by rw [e]⟩
    · exact .inr ⟨he, by rw [e]; rfl⟩

end Sys2Proof.Machine
end

section
/-! The rules of the whole machine (60_exceptions.md R321 to R329, 70_reset_and_hazards.md R370,
20_memory.md R63 to R66): each follows from one account of what a step can do. -/

namespace Sys2Proof.Machine

/-! ## What a step can do -/

/-- The next states of a step, by the input it serves (46_system.md R300). -/
inductive Stepped (s : State) : State → Prop
  /-- nothing is issued -/
  | waits (h : s.inbox = []) : Stepped s s
  /-- a command or a write while an error is pending (R328) -/
  | ignored (he : s.errs.pending = true) : Stepped s (served s)
  /-- an error other than that of a failed read -/
  | refused {code : BitVec 8} (info : Word) (he : s.errs.pending = false) (hc : code ∈ errorCodes)
      (hr : code ≠ 0x11) : Stepped s (recorded code info (served s))
  /-- a command instruction that runs -/
  | ran {w : Word} {rest : List Input} (i : Instr) (h : s.inbox = .command w :: rest)
      (hd : decodeCommand w = .ok i)
      (hg : ungated i = true ∨ s.errs.pending = false ∧ refusal i (served s) = none) :
      Stepped s (effect i (served s))
  /-- a register-port read -/
  | replied (v : Word) : Stepped s (reply v (served s))
  /-- a register-port read of an unassigned index -/
  | unassigned (info : Word) (he : s.errs.pending = false) :
      Stepped s (reply 0 (recorded 0x53 info (served s)))
  /-- a register-port write that is served -/
  | wrote {t : State} (he : s.errs.pending = false) (h : Written (served s) t) : Stepped s t
  /-- bytes of the capture device -/
  | captured {cells : List Host.Cell} {rest : List Input} (h : s.inbox = .capture cells :: rest)
      (hc : ∀ c ∈ cells, c.1 < 33554432) :
      Stepped s { served s with mem := s.mem.writeCells cells }

theorem checkSpec_code {s : State} {e : ErrCode} (h : checkSpec s = some e) :
    e = .tooManyEdges ∨ e = .fastEdges := by
  unfold checkSpec at h
  split at h
  · exact .inl (Option.some.inj h).symm
  · split at h
    · exact .inr (Option.some.inj h).symm
    · cases h

/-- The codes an instruction is refused with. -/
theorem refusal_code {i : Instr} {s : State} {code : BitVec 8} {info : Word}
    (h : refusal i s = some (code, info)) :
    code ∈ [0x52, 0x21, 0x31, 0x32, 0x51] ∧ (code = 0x52 → allowed i s = false) := by
  cases ha : allowed i s with
  | false =>
    rw [refusal_of_not_allowed ha] at h
    cases h
    exact ⟨by decide, fun _ => rfl⟩
  | true =>
    rw [refusal_of_allowed ha] at h
    unfold operandRefusal at h
    split at h
    · split at h <;> cases h
      decide
    · cases hc : checkSpec s with
      | none => rw [hc] at h; cases h
      | some e =>
        rw [hc] at h
        cases h
        rcases checkSpec_code hc with rfl | rfl <;> decide
    · split at h <;> cases h
      decide
    · split at h <;> cases h
      decide
    · cases h

theorem step_stepped {s t : State} (h : step s = .next t) : Stepped s t := by
  rcases step_cases s with ⟨hi, e⟩ | ⟨w, rest, i, hi, hd, e⟩ | ⟨w, rest, hi, hd, e⟩ |
    ⟨index, rest, hi, e⟩ | ⟨index, v, rest, hi, e⟩ | ⟨cells, rest, hi, e⟩
  all_goals rw [e] at h
  · cases h
    exact .waits hi
  · rcases exec_cases i (served s) with ⟨he, -, e⟩ | ⟨-, hu, e⟩ | ⟨code, info, he, hr, e⟩ | ⟨he, hr, e⟩
    all_goals rw [e] at h; cases h
    · exact .ignored he
    · exact .ran i hi hd (.inl hu)
    · have hc := (refusal_code hr).1
      have codes : ∀ c ∈ [(0x52 : BitVec 8), 0x21, 0x31, 0x32, 0x51], c ∈ errorCodes ∧ c ≠ 0x11 := by
        decide
      exact .refused info he (codes code hc).1 (codes code hc).2
    · exact .ran i hi hd (.inr ⟨he, hr⟩)
  · rcases raise_cases .illegalCommand w (served s) with ⟨he, e⟩ | ⟨he, e⟩
    all_goals rw [e] at h; cases h
    · exact .ignored he
    · exact .refused w he (by decide) (by decide)
  · rcases portRead_cases index (served s) with ⟨v, e⟩ | ⟨he, e⟩
    all_goals rw [e] at h; cases h
    · exact .replied v
    · exact .unassigned _ he
  · rcases portWrite_cases index v (served s) with ⟨he, e⟩ | ⟨he, e⟩ | ⟨he, hw⟩
    · rw [e] at h
      cases h
      exact .ignored he
    · rw [e] at h
      cases h
      exact .refused _ he (by decide) (by decide)
    · cases h
      exact .wrote he hw
  · rcases captureCells_cases cells (served s) with ⟨c, -, -, e⟩ | ⟨hc, e⟩
    all_goals rw [e] at h; cases h
    exact .captured hi hc

/-! ## What a command instruction leaves unchanged -/

theorem effect_params {i : Instr} (hi : i.isCommand = true) (s : State) :
    (effect i s).params = s.params := by
  cases i with
  | cluster r => cases hi
  | decStep =>
    obtain ⟨iter, d, items, answers, e, h, -⟩ := decodeRows_onlyStep s.params.fetchChunkRows s
    exact congrArg (·.params) h
  | _ => rfl

theorem effect_mem {i : Instr} (hi : i.isCommand = true) (s : State) : (effect i s).mem = s.mem := by
  cases i with
  | cluster r => cases hi
  | decStep =>
    obtain ⟨iter, d, items, answers, e, h, -⟩ := decodeRows_onlyStep s.params.fetchChunkRows s
    exact congrArg (·.mem) h
  | _ => rfl

/-- R65: only DEC.STEP appends to the output stream. -/
theorem effect_out {i : Instr} (hi : i.isCommand = true) (s : State) :
    ∃ items, (effect i s).out = items ++ s.out ∧ (i ≠ .decStep → items = []) := by
  cases i with
  | cluster r => cases hi
  | decStep =>
    obtain ⟨iter, d, items, answers, e, h, -⟩ := decodeRows_onlyStep s.params.fetchChunkRows s
    exact ⟨items, congrArg (·.out) h, fun hn => absurd rfl hn⟩
  | _ => exact ⟨[], rfl, fun _ => rfl⟩

/-- R66: only TRG.XMIT appends to the REGW port. -/
theorem effect_regw {i : Instr} (hi : i.isCommand = true) (s : State) :
    ∃ txs, (effect i s).regw = txs ++ s.regw ∧ (i ≠ .trgXmit → txs = []) := by
  cases i with
  | cluster r => cases hi
  | decStep =>
    obtain ⟨iter, d, items, answers, e, h, -⟩ := decodeRows_onlyStep s.params.fetchChunkRows s
    exact ⟨[], congrArg (·.regw) h, fun _ => rfl⟩
  | trgXmit => exact ⟨_, rfl, fun hn => absurd rfl hn⟩
  | _ => exact ⟨[], rfl, fun _ => rfl⟩

theorem effect_spec_config {i : Instr} (hi : i.isCommand = true) (hr : i ≠ .sysReset) (s : State) :
    (effect i s).spec = s.spec ∧ (effect i s).config = s.config := by
  cases i with
  | cluster r => cases hi
  | sysReset => exact absurd rfl hr
  | decStep =>
    obtain ⟨iter, d, items, answers, e, h, -⟩ := decodeRows_onlyStep s.params.fetchChunkRows s
    exact ⟨congrArg (·.spec) h, congrArg (·.config) h⟩
  | _ => exact ⟨rfl, rfl⟩

/-- R36: an instruction that runs while the file is sent leaves it. -/
theorem effect_lut_of_sent {i : Instr} (hi : i.isCommand = true) (hr : i ≠ .sysReset) (hn : i ≠ .sysInit)
    {s : State} (hg : allowed i s = true) (ht : s.tphase = .sent) :
    (effect i s).lut = s.lut ∧ (effect i s).tphase = .sent := by
  cases i with
  | cluster r => cases hi
  | sysReset => exact absurd rfl hr
  | sysInit => exact absurd rfl hn
  | decStep =>
    obtain ⟨iter, d, items, answers, e, h, -⟩ := decodeRows_onlyStep s.params.fetchChunkRows s
    exact ⟨congrArg (·.lut) h, (congrArg (·.tphase) h).trans ht⟩
  | trgLutgen | trgFunc | trgCompile | trgXmit =>
    simp only [allowed, ht] at hg
    cases hg
  | _ => exact ⟨rfl, ht⟩

/-- R326, R329: the error registers stay, are cleared by a reset, or hold a failed read of DEC.STEP. -/
theorem effect_errs {i : Instr} (hi : i.isCommand = true) (s : State) :
    (i ≠ .sysReset ∧ i ≠ .sysInit ∧ (effect i s).errs = s.errs) ∨
    ((i = .sysReset ∨ i = .sysInit) ∧ (effect i s).errs = ⟨false, 0, 0⟩) ∨
    (s.errs.pending = false ∧ ∃ info, (effect i s).errs = ⟨true, 0x11, info⟩) := by
  cases i with
  | cluster r => cases hi
  | sysReset => exact .inr (.inl ⟨.inl rfl, rfl⟩)
  | sysInit => exact .inr (.inl ⟨.inr rfl, rfl⟩)
  | decStep =>
    obtain ⟨iter, d, items, answers, e, h, he⟩ := decodeRows_onlyStep s.params.fetchChunkRows s
    have he' : (effect .decStep s).errs = e := congrArg (·.errs) h
    rcases he with rfl | ⟨info, hp, rfl⟩
    · exact .inl ⟨nofun, nofun, he'⟩
    · exact .inr (.inr ⟨hp, info, he'⟩)
  | _ => exact .inl ⟨nofun, nofun, rfl⟩

/-- A decoded command instruction, and its word. -/
theorem isCommand_of_decode {w : Word} {i : Instr} (h : decodeCommand w = .ok i) : i.isCommand = true :=
  (commandWord_of_decodeCommand h).1

/-- The input that is served is the command word of the instruction. -/
theorem head_of_decode {s : State} {w : Word} {rest : List Input} {i : Instr}
    (h : s.inbox = .command w :: rest) (hd : decodeCommand w = .ok i) :
    s.inbox.head? = some (.command (commandWord i)) := by
  rw [h, (commandWord_of_decodeCommand hd).2.2]
  rfl

theorem allowed_of_runs {i : Instr} {s : State} {w : Word} (hd : decodeCommand w = .ok i)
    (h : ungated i = true ∨ s.errs.pending = false ∧ refusal i (served s) = none) :
    allowed i (served s) = true := by
  rcases h with h | ⟨-, h⟩
  · cases i with
    | sysNop | sysReset | sysInit | cluster r => rfl
    | _ => cases h
  · cases ha : allowed i (served s) with
    | true => rfl
    | false => rw [refusal_of_not_allowed ha] at h; cases h

/-! ## The statements -/

/-- Settles O7: a word outside the opcode map does not decode; a `k` not below SPE decodes and is refused
by the instruction. -/
theorem illegalCommandIsRecorded : Obligations.IllegalCommandIsRecorded := by
  intro s w rest h he hw
  have he' : (served s).errs.pending = false := he
  rcases hw with hw | ⟨k, hk, hs, hw⟩
  · have hd : ∀ i, decodeCommand w ≠ .ok i := fun i hi =>
      hw ((decodedWordsAreTheOpcodeMap w).mp ⟨i, hi⟩)
    rw [step_illegal h hd]
    exact congrArg Host.Outcome.next (raise_of_none he' _ _)
  · have hwf : ∀ i : Instr, i = .decDeint k ∨ i = .decReint k → i.isCommand = true ∧ i.wf = true := by
      rintro i (rfl | rfl) <;> exact ⟨rfl, decide_eq_true (Nat.lt_succ_of_le hk)⟩
    obtain ⟨i, hi, hn⟩ : ∃ i : Instr, (i = .decDeint k ∨ i = .decReint k) ∧ w.toNat = i.number := by
      rcases hw with hw | hw
      · exact ⟨_, .inl rfl, hw⟩
      · exact ⟨_, .inr rfl, hw⟩
    have hd := (decodeCommand_eq_ok_iff_number w i).mpr ⟨(hwf i hi).1, (hwf i hi).2, hn⟩
    have hr : refusal i (served s) = some (0x51, commandWord i) := by
      rcases hi with rfl | rfl <;>
        exact (refusal_of_allowed rfl).trans (if_neg (Nat.not_lt.mpr hs))
    rw [step_command h hd, exec_refused he' hr, (commandWord_of_decodeCommand hd).2.2]

/-- Settles O8. -/
theorem pendingErrorGate : Obligations.PendingErrorGate := by
  intro s x rest h he
  have he' : (served s).errs.pending = true := he
  refine ⟨?_, ?_, ?_⟩
  · rintro w rfl h0 h1 h2
    by_cases hd : ∃ i, decodeCommand w = .ok i
    · obtain ⟨i, hd⟩ := hd
      obtain ⟨hc, -, hw⟩ := commandWord_of_decodeCommand hd
      have hu : ungated i = false := by
        cases i with
        | sysNop => exact absurd hw.symm h0
        | sysReset => exact absurd hw.symm h1
        | sysInit => exact absurd hw.symm h2
        | cluster r => cases hc
        | _ => rfl
      rw [step_command h hd, exec_of_pending hu he']
    · rw [step_illegal h (not_exists.mp hd)]
      exact congrArg Host.Outcome.next (if_pos he)
  · rintro index v rfl
    rw [step_portWrite h]
    exact congrArg Host.Outcome.next (gated_of_pending he' _)
  · rintro index rfl
    rw [step_portRead h, portRead]
    cases portReg index with
    | some r => rfl
    | none => exact congrArg (fun t => Host.Outcome.next (reply 0 t)) (if_pos he)

/-- Settles O9: 0x52 is the code of the phase check alone. -/
theorem sequenceErrorsByPhase : Obligations.SequenceErrorsByPhase := by
  intro i s hi he
  refine ⟨fun ha => exec_refused he (refusal_of_not_allowed ha), ?_⟩
  rintro ha t ht ⟨hp, hc⟩
  have hi : i.isCommand = true := by
    cases i with
    | cluster r => exact absurd rfl (hi r)
    | _ => rfl
  cases hr : refusal i s with
  | some x =>
    obtain ⟨code, info⟩ := x
    rw [exec_refused he hr] at ht
    cases ht
    exact absurd (ha.symm.trans ((refusal_code hr).2 hc)) nofun
  | none =>
    rw [exec_effect he hr] at ht
    cases ht
    rcases effect_errs hi s with ⟨-, -, e⟩ | ⟨-, e⟩ | ⟨-, info, e⟩
    · rw [e, he] at hp
      cases hp
    · rw [e] at hp
      cases hp
    · rw [e] at hc
      cases hc

theorem Written.errs {s t : State} (h : Written s t) :
    t.errs = s.errs ∨ ∃ code info, t = recorded code info s := by
  cases h with
  | refused info h => exact .inr ⟨_, info, rfl⟩
  | _ => exact .inl rfl

/-- Settles O10: an error is recorded as the only change, or is that of a failed read. -/
theorem errorsArePrecise : Obligations.ErrorsArePrecise := by
  intro s t h he hp hc
  have absurd_of : t.errs = s.errs → False := fun e => by rw [e, he] at hp; cases hp
  cases step_stepped h with
  | waits | ignored | replied | captured => exact (absurd_of rfl).elim
  | refused | unassigned => exact ⟨rfl, rfl, rfl, rfl⟩
  | ran i hi hd hg =>
    rcases effect_errs (isCommand_of_decode hd) (served s) with ⟨-, -, e⟩ | ⟨-, e⟩ | ⟨-, info, e⟩
    · exact (absurd_of e).elim
    · rw [e] at hp
      cases hp
    · exact absurd (congrArg ErrorRegs.code e) hc
  | wrote _ hw =>
    rcases hw.errs with e | ⟨code, info, rfl⟩
    · exact (absurd_of e).elim
    · exact ⟨rfl, rfl, rfl, rfl⟩

/-- Settles O11. -/
theorem firstErrorIsKept : Obligations.FirstErrorIsKept := by
  intro s t h he
  split
  next hc =>
    obtain ⟨i, hi, hw⟩ : ∃ i, (i = .sysReset ∨ i = .sysInit) ∧
        s.inbox.head? = some (.command (commandWord i)) := by
      rcases hc with hc | hc
      · exact ⟨.sysReset, .inl rfl, hc⟩
      · exact ⟨.sysInit, .inr rfl, hc⟩
    obtain ⟨rest, hi'⟩ := List.head?_eq_some_iff.mp hw
    rcases hi with rfl | rfl
    all_goals
      rw [step_command hi' (decodeCommand_commandWord rfl rfl), exec_of_ungated rfl] at h
      cases h
      rfl
  next hc =>
    cases step_stepped h with
    | waits | ignored | replied | captured => rfl
    | refused _ hf | unassigned _ hf | wrote hf => exact absurd (he.symm.trans hf) nofun
    | ran i hi hd hg =>
      have hw := head_of_decode hi hd
      rcases effect_errs (isCommand_of_decode hd) (served s) with ⟨-, -, e⟩ | ⟨rfl | rfl, -⟩ | ⟨hf, -⟩
      · exact e
      · exact absurd (.inl hw) hc
      · exact absurd (.inr hw) hc
      · exact absurd (he.symm.trans hf) nofun

/-- Settles O16. -/
theorem sentFileIsImmutable : Obligations.SentFileIsImmutable := by
  intro s t h ht hr hn
  cases step_stepped h with
  | waits | ignored | refused | replied | unassigned | captured => exact ⟨rfl, ht⟩
  | ran i hi hd hg =>
    have hw := head_of_decode hi hd
    refine effect_lut_of_sent (isCommand_of_decode hd) ?_ ?_ (allowed_of_runs hd hg) ht
    · rintro rfl
      exact hr hw
    · rintro rfl
      exact hn hw
  | wrote _ hw =>
    cases hw with
    | file f hs => exact absurd ht hs
    | _ => exact ⟨rfl, ht⟩

/-- Settles O17. -/
theorem specificationIsFrozen : Obligations.SpecificationIsFrozen := by
  intro s t h hu hr
  cases step_stepped h with
  | waits | ignored | refused | replied | unassigned | captured => exact ⟨rfl, rfl⟩
  | ran i hi hd hg =>
    refine effect_spec_config (isCommand_of_decode hd) ?_ (served s)
    rintro rfl
    exact hr (head_of_decode hi hd)
  | wrote _ hw =>
    cases hw with
    | specification p c hp he =>
      rcases hu with hu | hu
      · exact absurd he hu
      · exact absurd hp hu
    | _ => exact ⟨rfl, rfl⟩

/-- Settles O18. -/
theorem portsAreAppendOnlyAndMemoryIsRead : Obligations.PortsAreAppendOnlyAndMemoryIsRead := by
  intro s t h
  cases step_stepped h with
  | waits | ignored | refused | replied | unassigned =>
    exact ⟨fun _ _ => rfl, ⟨[], rfl, fun _ => rfl⟩, ⟨[], rfl, fun _ => rfl⟩⟩
  | captured hi =>
    refine ⟨fun hn => absurd (congrArg List.head? hi) (hn _), ⟨[], rfl, fun _ => rfl⟩,
      ⟨[], rfl, fun _ => rfl⟩⟩
  | ran i hi hd hg =>
    have hc := isCommand_of_decode hd
    have hw := head_of_decode hi hd
    obtain ⟨items, ho, hs⟩ := effect_out hc (served s)
    obtain ⟨txs, hx, ht⟩ := effect_regw hc (served s)
    refine ⟨fun _ a => by rw [effect_mem hc]; rfl, ⟨items, ho, fun hn => hs ?_⟩,
      ⟨txs, hx, fun hn => ht ?_⟩⟩
    · rintro rfl
      exact hn hw
    · rintro rfl
      exact hn hw
  | wrote _ hw =>
    cases hw with
    | _ => exact ⟨fun _ _ => rfl, ⟨[], rfl, fun _ => rfl⟩, ⟨[], rfl, fun _ => rfl⟩⟩

/-- Settles O19. -/
theorem parametersAreConstant : Obligations.ParametersAreConstant := by
  intro s t h
  cases step_stepped h with
  | waits | ignored | refused | replied | unassigned | captured => rfl
  | ran i hi hd hg => exact effect_params (isCommand_of_decode hd) (served s)
  | wrote _ hw => cases hw with
    | _ => rfl

/-- Settles O59: of the inputs only a capture event can stop, and it names the address. -/
theorem onlyAForeignAddressStops : Obligations.OnlyAForeignAddressStops := by
  intro s
  rcases step_cases s with ⟨-, e⟩ | ⟨w, rest, i, -, -, e⟩ | ⟨w, rest, -, -, e⟩ |
    ⟨index, rest, -, e⟩ | ⟨index, v, rest, -, e⟩ | ⟨cells, rest, hi, e⟩
  case inr.inl =>
    obtain ⟨t, ht⟩ := everyInstructionCompletes i (served s)
    rw [e, ht]
    exact ⟨nofun, nofun⟩
  case inr.inr.inr.inr.inr =>
    rw [e]
    rcases captureCells_cases cells (served s) with ⟨c, hc, ha, e⟩ | ⟨-, e⟩
    · rw [e]
      refine ⟨fun f hf => ?_, nofun⟩
      cases hf
      exact ⟨cells, rest, c.1, c.2, hi, hc, ha, rfl⟩
    · rw [e]
      exact ⟨nofun, nofun⟩
  all_goals
    rw [e]
    exact ⟨nofun, nofun⟩

end Sys2Proof.Machine
end

section
/-! Reset (70_reset_and_hazards.md R360) and the invariants that every step keeps. -/

namespace Sys2Proof.Machine

/-! ## The registers after SYS.RESET -/

/-- The state after SYS.RESET: every register of 10_state.md is 0. -/
def cleared (s : State) : State := { s with toRegisters := Registers.zero }

theorem exec_sysReset (s : State) : exec .sysReset s = .next (cleared s) := rfl

/-- With every register 0, SYS.INIT has nothing to clear and nothing to keep. -/
theorem initialised_cleared (s : State) : initialised (cleared s) = cleared s := rfl

theorem portValue_cleared (s : State) (r : PortReg) :
    portValue (cleared s) r = if r = .spe then 1 else 0 := by
  by_cases hk : r ∈ keptByInit
  · revert r
    simp only [keptByInit, List.forall_mem_cons]
    exact ⟨rfl, rfl, rfl, rfl, rfl, rfl, rfl, rfl, rfl, rfl, List.forall_mem_nil _⟩
  · have hspe : r ≠ .spe := by
      rintro rfl
      exact hk (by decide)
    rw [if_neg hspe]
    by_cases hs : r = .status
    · rw [hs, ← initialised_cleared]
      refine (status_initialised (cleared s)).trans (if_pos ?_)
      show Registers.zero.spec.useTrig = false
      decide
    · rw [← initialised_cleared]
      exact portValue_initialised_of_cleared (cleared s) hk hs

theorem portReg_eq_spe_iff : ∀ index : BitVec 8, portReg index = some .spe ↔ index = 0x04 := by
  decide

/-- Settles O15: the reset machine is a cleared one, and 0x04 is the index of `SPE` alone. -/
theorem resetRegistersReadZero : Obligations.ResetRegistersReadZero := by
  intro index r hr
  have h := portValue_cleared State.reset r
  rw [show portValue State.reset r = portValue (cleared State.reset) r from rfl, h]
  refine if_congr ?_ rfl rfl
  rw [← portReg_eq_spe_iff, hr, Option.some.injEq]

/-- Settles O21. -/
theorem resetClearsEveryRegister : Obligations.ResetClearsEveryRegister := fun s =>
  ⟨cleared s, exec_sysReset s, rfl, portValue_cleared s⟩

/-! ## The invariants: which changes keep them -/

/-- The clauses that concern the error registers, R29. -/
structure ErrorInv (e : ErrorRegs) : Prop where
  no_error : e.pending = false → e.code = 0 ∧ e.info = 0
  error_code : e.pending = true → e.code ∈ errorCodes

theorem Inv.errorInv {s : State} (h : Inv s) : ErrorInv s.errs := ⟨h.no_error, h.error_code⟩

theorem errorInv_recorded {code : BitVec 8} (h : code ∈ errorCodes) (info : Word) :
    ErrorInv ⟨true, code, info⟩ := ⟨nofun, fun _ => h⟩

theorem Inv.refineInv {s : State} (h : Inv s) : RefineInv s.dec :=
  ⟨h.budget_bound, h.armed_budget, h.armed_unmatched, h.armed_valid, h.matched_valid, h.markers_count⟩

/-- The clauses outside unit D: they concern each one register, the memory or the parameters. -/
structure OuterInv (s : State) : Prop where
  tier_legal : s.config ≠ 3
  empty_file : s.tphase = .empty → s.lut = Registers.zero.lut
  errors : ErrorInv s.errs
  mem_wf : Memory.wf s.mem
  params_wf : s.params.wf

theorem Inv.outerInv {s : State} (h : Inv s) : OuterInv s :=
  ⟨h.tier_legal, h.empty_file, h.errorInv, h.mem_wf, h.params_wf⟩

/-- The clauses on unit D's pass: the locations, the bookkeeping and `CAPSTAT`. -/
structure PassInv (s : State) : Prop where
  locs_legal : ∀ r, (s.locs.get r).legal
  refine_inv : RefineInv s.dec
  lines_bound : s.dec.linesDone.toNat ≤ s.dec.linesTotal.toNat ∧ s.dec.linesTotal.toNat ≤ 32768
  idle_decoder : s.dec.phase = .idle → s.dec = Registers.zero.dec
  pass_shape : s.dec.phase ≠ .idle → s.locs.start = passStart s ∧ s.dec.linesTotal = passLines s
  ready_cursor : s.dec.phase = .ready →
    s.dec.linesDone ≠ s.dec.linesTotal ∧ s.locs.iter = ⟨currentRow s, 0, 0⟩
  done_cursor : s.dec.phase = .done → s.dec.linesDone = s.dec.linesTotal ∧ s.locs.iter = passEnd s

theorem Inv.passInv {s : State} (h : Inv s) : PassInv s :=
  ⟨h.locs_legal, h.refineInv, h.lines_bound, h.idle_decoder, h.pass_shape, h.ready_cursor, h.done_cursor⟩

theorem inv_iff (s : State) : Inv s ↔ PassInv s ∧ OuterInv s := by
  refine ⟨fun h => ⟨h.passInv, h.outerInv⟩, fun ⟨h, h'⟩ => ?_⟩
  exact { h, h.refine_inv, h', h'.errors with }

/-- A change that leaves the locations, unit D's bookkeeping and `CAPSTAT` keeps the clauses on the pass. -/
theorem PassInv.congr {s t : State} (h : PassInv s) (hl : t.locs = s.locs) (hd : t.dec = s.dec)
    (hc : t.capstat = s.capstat) : PassInv t := by
  obtain ⟨h1, h2, h3, h4, h5, h6, h7⟩ := h
  have hw : wrapped t = wrapped s := by rw [wrapped, wrapped, hc]
  refine ⟨?_, ?_, ?_, ?_, ?_, ?_, ?_⟩ <;>
    simp only [hl, hd, passStart, passLines, passEnd, currentRow, hw] <;> assumption

/-- Without a pass the clauses ask for legal locations and the idle bookkeeping alone. -/
theorem PassInv.of_idle {s : State} (hl : ∀ r, (s.locs.get r).legal) (hd : s.dec = Registers.zero.dec) :
    PassInv s := by
  have hp : s.dec.phase = .idle := by rw [hd]; rfl
  refine ⟨hl, ?_, ?_, fun _ => hd, fun h => absurd hp h, ?_, ?_⟩
  · rw [hd]
    constructor <;> decide
  · rw [hd]
    decide
  · rw [hp]
    nofun
  · rw [hp]
    nofun

theorem zero_locs_legal (r : LocReg) : (Registers.zero.locs.get r).legal := by cases r <;> decide

/-- Settles O13. -/
theorem resetIsAGoodState : Obligations.ResetIsAGoodState := by
  refine (inv_iff _).mpr ⟨.of_idle zero_locs_legal rfl, ?_⟩
  exact ⟨by decide, fun _ => rfl, ⟨fun _ => ⟨rfl, rfl⟩, nofun⟩, by decide, by decide⟩

/-! ## DEC.SETUP -/

theorem passLines_toNat (s : State) :
    (passLines s).toNat = if wrapped s then 32767 else s.locs.stop.row.toNat + 1 := by
  have := s.locs.stop.row.isLt
  unfold passLines
  split
  · rfl
  · rw [BitVec.toNat_add, BitVec.toNat_setWidth]
    simp only [BitVec.ofNat_eq_ofNat, BitVec.toNat_ofNat, Nat.reducePow, Nat.reduceMod]
    omega

theorem passStart_eq (s : State) :
    passStart s = ⟨if wrapped s then s.locs.stop.row + 1 else 0, 0, 0⟩ := by
  unfold passStart
  split <;> rfl

theorem passStart_legal (s : State) : (passStart s).legal := by
  rw [passStart_eq]
  show (0 : BitVec 3) ≠ 7
  decide

theorem passArm_legal {s : State} (h : s.locs.trig.legal) : (passArm s).legal := by
  unfold passArm
  split
  · exact Location.back_legal h _
  · exact passStart_legal s

/-- R232: a pass just set up has a row to decode and stands at its start. -/
theorem setupPass_ready_cursor (s : State) :
    (setupPass s).dec.linesDone ≠ (setupPass s).dec.linesTotal ∧
      (setupPass s).locs.iter = ⟨currentRow (setupPass s), 0, 0⟩ := by
  constructor
  · intro e
    have he := congrArg BitVec.toNat e
    rw [show (setupPass s).dec.linesTotal = passLines s from rfl, passLines_toNat] at he
    change 0 = _ at he
    split at he <;> omega
  · show passStart s = ⟨(passStart s).row + 0#15, 0, 0⟩
    rw [BitVec.add_zero, passStart_eq]

theorem setupPass_passInv {s : State} (h : PassInv s) : PassInv (setupPass s) where
  locs_legal r := by
    cases r with
    | start | iter => exact passStart_legal s
    | stop => exact h.locs_legal .stop
    | trig => exact h.locs_legal .trig
    | arm => exact passArm_legal (h.locs_legal .trig)
  refine_inv := by
    constructor
    case markers_count => rfl
    case budget_bound => exact Nat.zero_le _
    all_goals nofun
  lines_bound := by
    refine ⟨Nat.zero_le _, ?_⟩
    show (passLines s).toNat ≤ 32768
    have := s.locs.stop.row.isLt
    rw [passLines_toNat]
    split <;> omega
  idle_decoder := nofun
  pass_shape _ := ⟨rfl, rfl⟩
  ready_cursor _ := setupPass_ready_cursor s
  done_cursor := nofun

/-! ## DEC.STEP, row by row -/

/-- Where a pass stands between two rows of a DEC.STEP. -/
structure RowCursor (s : State) : Prop where
  stop_legal : s.locs.stop.legal
  lines_bound : s.dec.linesDone.toNat ≤ s.dec.linesTotal.toNat
  start_eq : s.locs.start = passStart s
  total_eq : s.dec.linesTotal = passLines s
  phase_eq : s.dec.phase = .ready
  cursor : s.locs.iter = if s.dec.linesDone = s.dec.linesTotal then passEnd s else ⟨currentRow s, 0, 0⟩

/-- What holds between two rows of a DEC.STEP. -/
structure BetweenRows (s : State) : Prop extends RowCursor s where
  locs_legal : ∀ r, (s.locs.get r).legal
  refine_inv : RefineInv s.dec

theorem PassInv.betweenRows {s : State} (h : PassInv s) (hp : s.dec.phase = .ready) : BetweenRows s where
  locs_legal := h.locs_legal
  refine_inv := h.refine_inv
  stop_legal := h.locs_legal .stop
  lines_bound := h.lines_bound.1
  start_eq := (h.pass_shape (by rw [hp]; nofun)).1
  total_eq := (h.pass_shape (by rw [hp]; nofun)).2
  phase_eq := hp
  cursor := by rw [if_neg (h.ready_cursor hp).1, (h.ready_cursor hp).2]

theorem RowCursor.total_le {s : State} (h : RowCursor s) : s.dec.linesTotal.toNat ≤ 32768 := by
  have := s.locs.stop.row.isLt
  rw [h.total_eq, passLines_toNat]
  split <;> omega

/-- A DEC.STEP that ends before the last row. -/
theorem BetweenRows.passInv_of_ready {s : State} (h : BetweenRows s)
    (hn : s.dec.linesDone ≠ s.dec.linesTotal) : PassInv s where
  locs_legal := h.locs_legal
  refine_inv := h.refine_inv
  lines_bound := ⟨h.lines_bound, h.total_le⟩
  idle_decoder hp := by rw [h.phase_eq] at hp; cases hp
  pass_shape _ := ⟨h.start_eq, h.total_eq⟩
  ready_cursor _ := ⟨hn, by rw [h.cursor, if_neg hn]⟩
  done_cursor hp := by rw [h.phase_eq] at hp; cases hp

/-- A DEC.STEP that ends after the last row. -/
theorem BetweenRows.passInv_of_done {s : State} (h : BetweenRows s)
    (hn : s.dec.linesDone = s.dec.linesTotal) :
    PassInv { s with dec := { s.dec with phase := .done } } where
  locs_legal := h.locs_legal
  refine_inv := h.refine_inv.congr rfl rfl rfl rfl rfl
  lines_bound := ⟨h.lines_bound, h.total_le⟩
  idle_decoder := nofun
  pass_shape _ := ⟨h.start_eq, h.total_eq⟩
  ready_cursor := nofun
  done_cursor _ := ⟨hn, h.cursor.trans (if_pos hn)⟩

theorem BetweenRows.finishPass {s : State} (h : BetweenRows s) : PassInv (finishPass s) := by
  unfold Machine.finishPass
  split
  next hn => exact h.passInv_of_done hn
  next hn => exact h.passInv_of_ready hn

/-- The last row of a pass, R235. -/
theorem rowEvents_eq (s : State) : rowEvents s =
    if wrapped s = false ∧ s.dec.linesDone + 1 = s.dec.linesTotal then s.locs.stop.evIndex else 448 := by
  refine if_congr ?_ rfl rfl
  rw [Bool.and_eq_true, Bool.not_eq_true', beq_iff_eq, BitVec.eq_sub_iff_add_eq]

theorem evIndex_eq (l : Location) : l.evIndex = l.cluster.toNat * 7 + l.event.toNat := rfl

theorem rowEvents_le {s : State} (h : s.locs.stop.legal) : rowEvents s ≤ 448 := by
  have hc := s.locs.stop.cluster.isLt
  have he := (Location.legal_iff _).mp h
  rw [rowEvents_eq, evIndex_eq]
  split <;> omega

theorem row_legal (row : BitVec 15) : (⟨row, 0, 0⟩ : Location).legal := by
  show (0 : BitVec 3) ≠ 7
  decide

theorem row_position (row : BitVec 15) : (⟨row, 0, 0⟩ : Location).position = row.toNat * 448 := by
  simp [Location.position_eq]

theorem passEnd_legal {s : State} (h : s.locs.stop.legal) : (passEnd s).legal := by
  unfold passEnd
  split
  · exact row_legal _
  · exact h

theorem RowCursor.currentRow_toNat {s : State} (h : RowCursor s) : (currentRow s).toNat =
    ((if wrapped s then s.locs.stop.row.toNat + 1 else 0) + s.dec.linesDone.toNat) % 32768 := by
  rw [currentRow, h.start_eq, passStart_eq, BitVec.toNat_add, BitVec.toNat_setWidth]
  split
  · rw [BitVec.toNat_add]
    simp
  · simp

/-- R238, R240: decoding the events of a row leads to the start of the next one, or to `End`. -/
theorem RowCursor.cursor_next {s : State} (h : RowCursor s)
    (hn : s.dec.linesDone ≠ s.dec.linesTotal) {l : Location} (hl : l.legal)
    (hp : l.position = ((⟨currentRow s, 0, 0⟩ : Location).position + rowEvents s) % locationCount) :
    l = if s.dec.linesDone + 1 = s.dec.linesTotal then passEnd s else ⟨currentRow s + 1, 0, 0⟩ := by
  have hstop := h.stop_legal
  have hrow := h.currentRow_toNat
  have hstoprow := s.locs.stop.row.isLt
  have hdone := s.dec.linesDone.isLt
  have htotal := passLines_toNat s
  rw [← h.total_eq] at htotal
  rw [row_position, rowEvents_eq] at hp
  simp only [locationCount, Config.rows, Config.eventsPerRow] at hp
  split
  next hlast =>
    have hd : s.dec.linesDone.toNat + 1 = s.dec.linesTotal.toNat := by
      have hle := h.lines_bound
      have hne : s.dec.linesDone.toNat ≠ s.dec.linesTotal.toNat := fun e =>
        hn (BitVec.eq_of_toNat_eq e)
      have he := congrArg BitVec.toNat hlast
      rw [BitVec.toNat_add] at he
      simp only [BitVec.ofNat_eq_ofNat, BitVec.toNat_ofNat, Nat.reducePow, Nat.reduceMod] at he
      omega
    refine Location.position_inj hl (passEnd_legal hstop) ?_
    cases hw : wrapped s with
    | true =>
      rw [passEnd, if_pos hw, row_position]
      simp only [hw, hlast, Bool.true_eq_false, false_and, if_false, if_true] at hp htotal hrow
      omega
    | false =>
      have hlt := Location.position_lt hstop
      rw [passEnd, if_neg (by rw [hw]; nofun)]
      simp only [hw, hlast, and_self, if_true, Bool.false_eq_true, if_false] at hp htotal hrow
      rw [evIndex_eq] at hp
      rw [hp]
      simp only [Location.position_eq, locationCount, Config.rows, Config.eventsPerRow] at hlt ⊢
      omega
  next hlast =>
    refine Location.position_inj hl (row_legal _) ?_
    rw [if_neg (fun hc => hlast hc.2)] at hp
    rw [row_position, BitVec.toNat_add, hp]
    simp only [BitVec.ofNat_eq_ofNat, BitVec.toNat_ofNat, Nat.reducePow, Nat.reduceMod]
    omega

theorem RowCursor.iter_legal {s : State} (h : RowCursor s) : s.locs.iter.legal := by
  rw [h.cursor]
  split
  · exact passEnd_legal h.stop_legal
  · exact row_legal _

/-- One row read and decoded: the cursor. -/
theorem RowCursor.rowDone {s : State} (h : RowCursor s) (hn : s.dec.linesDone ≠ s.dec.linesTotal)
    (buf : List Byte) (rest : List MemAnswer) :
    RowCursor (rowDone (decodeRow buf (rowEvents s) { s with answers := rest })) := by
  have hcur : s.locs.iter = ⟨currentRow s, 0, 0⟩ := by rw [h.cursor, if_neg hn]
  obtain ⟨hl, hp⟩ := decodeRow_iter buf (rowEvents s) { s with answers := rest } h.iter_legal
    (rowEvents_le h.stop_legal)
  obtain ⟨iter, d, out, e, hphase, -, hdone, htotal⟩ :=
    decodeRow_onlyPass buf (rowEvents s) { s with answers := rest }
  rw [e] at hl hp ⊢
  change iter.position = (s.locs.iter.position + _) % _ at hp
  rw [hcur] at hp
  have hnext := h.cursor_next hn hl hp
  change d.linesDone = s.dec.linesDone at hdone
  change d.linesTotal = s.dec.linesTotal at htotal
  exact {
    stop_legal := h.stop_legal
    lines_bound := by
      show (d.linesDone + 1).toNat ≤ d.linesTotal.toNat
      have hle := h.lines_bound
      have hne : s.dec.linesDone.toNat ≠ s.dec.linesTotal.toNat := fun e =>
        hn (BitVec.eq_of_toNat_eq e)
      rw [hdone, htotal, BitVec.toNat_add]
      simp only [BitVec.ofNat_eq_ofNat, BitVec.toNat_ofNat, Nat.reducePow, Nat.reduceMod]
      omega
    start_eq := h.start_eq
    total_eq := htotal.trans h.total_eq
    phase_eq := hphase.trans h.phase_eq
    cursor := by
      show iter = if d.linesDone + 1 = d.linesTotal then passEnd s else
        ⟨s.locs.start.row + (d.linesDone + 1).setWidth 15, 0, 0⟩
      have hw : (s.dec.linesDone + 1).setWidth 15 = s.dec.linesDone.setWidth 15 + 1 :=
        BitVec.setWidth_add _ _ (by decide)
      rw [hdone, htotal, hw, ← BitVec.add_assoc]
      exact hnext }

/-- One row read and decoded. -/
theorem BetweenRows.rowDone {s : State} (h : BetweenRows s) (hn : s.dec.linesDone ≠ s.dec.linesTotal)
    (buf : List Byte) (rest : List MemAnswer) :
    BetweenRows (rowDone (decodeRow buf (rowEvents s) { s with answers := rest })) := by
  have hcursor := h.toRowCursor.rowDone hn buf rest
  have hiter := hcursor.iter_legal
  have hr : RefineInv (decodeRow buf (rowEvents s) { s with answers := rest }).dec :=
    decodeRow_refineInv buf (rowEvents s) (s := { s with answers := rest }) h.refine_inv
  refine ⟨hcursor, fun r => ?_, hr.congr rfl rfl rfl rfl rfl⟩
  obtain ⟨iter, d, out, e, -⟩ := decodeRow_onlyPass buf (rowEvents s) { s with answers := rest }
  rw [e] at hiter ⊢
  cases r with
  | iter => exact hiter
  | start => exact h.locs_legal .start
  | stop => exact h.locs_legal .stop
  | trig => exact h.locs_legal .trig
  | arm => exact h.locs_legal .arm

theorem BetweenRows.withAnswers {s : State} (h : BetweenRows s) (rest : List MemAnswer) :
    BetweenRows { s with answers := rest } :=
  ⟨⟨h.stop_legal, h.lines_bound, h.start_eq, h.total_eq, h.phase_eq, h.cursor⟩, h.locs_legal, h.refine_inv⟩

/-- R240: however a DEC.STEP ends, the clauses on the pass hold. -/
theorem decodeRows_passInv (n : Nat) {s : State} (h : BetweenRows s) : PassInv (decodeRows n s) := by
  induction n generalizing s with
  | zero => exact h.finishPass
  | succ n ih =>
    unfold decodeRows
    split
    · exact h.finishPass
    next hn =>
      obtain ⟨rest, hr, -⟩ := readRow_cases (currentRow s) s
      split
      next t he =>
        rw [he] at hr
        obtain rfl : t = _ := hr
        exact ((h.withAnswers rest).passInv_of_ready hn).congr (raise_locs ..) (raise_dec ..) (raise_capstat ..)
      next buf t he =>
        rw [he] at hr
        obtain rfl : t = _ := hr
        exact ih (h.rowDone hn buf rest)

/-! ## Every instruction and every input -/

theorem PassInv.setLoc {s : State} (h : PassInv s) (hp : s.dec.phase = .idle) {r : LocReg} {l : Location}
    (hl : l.legal) : PassInv (setLoc r l s) := by
  refine .of_idle (fun r' => ?_) (h.idle_decoder hp)
  rw [setLoc_locs, locations_get_set]
  split
  · exact hl
  · exact h.locs_legal r'

theorem effect_passInv {i : Instr} (hi : i.isCommand = true) {s : State} (hg : allowed i s = true)
    (h : PassInv s) : PassInv (effect i s) := by
  cases i with
  | cluster r => cases hi
  | sysNop => exact h
  | sysReset | sysInit => exact .of_idle zero_locs_legal rfl
  | locInc lr => exact h.setLoc (beq_iff_eq.mp hg) (Location.inc_legal (h.locs_legal lr))
  | locDec lr => exact h.setLoc (beq_iff_eq.mp hg) (Location.dec_legal (h.locs_legal lr))
  | locBack lr n => exact h.setLoc (beq_iff_eq.mp hg) (Location.back_legal (h.locs_legal lr) n)
  | locMov la lb => exact h.setLoc (beq_iff_eq.mp hg) (h.locs_legal lb)
  | posDecode =>
    refine .of_idle (fun r => ?_) (h.idle_decoder (beq_iff_eq.mp hg))
    cases r with
    | trig | stop => exact adjust_legal _
    | start => exact h.locs_legal .start
    | arm => exact h.locs_legal .arm
    | iter => exact h.locs_legal .iter
  | decSetup => exact setupPass_passInv h
  | decStep => exact decodeRows_passInv _ (h.betweenRows (beq_iff_eq.mp hg))
  | locCmp | trgLutgen | trgFunc | trgCompile | trgXmit | trgEval | decDeint | decReint =>
    exact h.congr rfl rfl rfl

theorem effect_outerInv {i : Instr} (hi : i.isCommand = true) {s : State} (h : OuterInv s) :
    OuterInv (effect i s) where
  tier_legal := by
    by_cases hr : i = .sysReset
    · rw [hr]
      show (0 : BitVec 2) ≠ 3
      decide
    · rw [(effect_spec_config hi hr s).2]
      exact h.tier_legal
  empty_file := by
    cases i with
    | cluster r => cases hi
    | sysReset | sysInit => exact fun _ => rfl
    | trgLutgen | trgFunc =>
      intro ht
      simp only [effect, storeLut_tphase] at ht
      split at ht
      · cases ht
      next hn => exact absurd ht hn
    | trgCompile | trgXmit => nofun
    | decStep =>
      obtain ⟨iter, d, items, answers, e, he, -⟩ := decodeRows_onlyStep s.params.fetchChunkRows s
      rw [show effect .decStep s = _ from he]
      exact h.empty_file
    | _ => exact h.empty_file
  errors := by
    rcases effect_errs hi s with ⟨-, -, e⟩ | ⟨-, e⟩ | ⟨-, info, e⟩ <;> rw [e]
    · exact h.errors
    · exact ⟨fun _ => ⟨rfl, rfl⟩, nofun⟩
    · exact errorInv_recorded (by decide) info
  mem_wf := by
    rw [effect_mem hi]
    exact h.mem_wf
  params_wf := by
    rw [effect_params hi]
    exact h.params_wf

/-- A change of nothing but the input list and the replies. -/
theorem Inv.withPorts {s : State} (h : Inv s) (inbox : List Input) (replies : List Word) :
    Inv { s with inbox := inbox, replies := replies } :=
  (inv_iff _).mpr ⟨h.passInv.congr rfl rfl rfl, h.tier_legal, h.empty_file, h.errorInv, h.mem_wf, h.params_wf⟩

theorem Inv.recorded {s : State} (h : Inv s) {code : BitVec 8} (hc : code ∈ errorCodes) (info : Word) :
    Inv (recorded code info s) :=
  (inv_iff _).mpr ⟨h.passInv.congr rfl rfl rfl, h.tier_legal, h.empty_file, errorInv_recorded hc info,
    h.mem_wf, h.params_wf⟩

theorem Inv.written {s t : State} (h : Inv s) (hw : Written s t) : Inv t := by
  have hp := h.passInv
  have ho := h.outerInv
  cases hw with
  | refused info hc =>
    refine h.recorded ?_ info
    rcases hc with rfl | rfl <;> decide
  | location r l hi hl =>
    exact (inv_iff _).mpr ⟨hp.setLoc hi (hl (h.locs_legal r)), ho.1, ho.2, ho.3, ho.4, ho.5⟩
  | file f ht =>
    refine (inv_iff _).mpr ⟨hp.congr rfl rfl rfl, ho.1, fun he => ?_, ho.3, ho.4, ho.5⟩
    rw [storeLut_tphase] at he
    split at he
    · cases he
    next hn => exact absurd he hn
  | specification p c hi ht hc =>
    exact (inv_iff _).mpr ⟨hp.congr rfl rfl rfl, hc ho.1, ho.2, ho.3, ho.4, ho.5⟩
  | capture p c hi =>
    exact (inv_iff _).mpr ⟨.of_idle hp.locs_legal (hp.idle_decoder hi), ho.1, ho.2, ho.3, ho.4, ho.5⟩
  | scratch a b g m =>
    exact (inv_iff _).mpr ⟨hp.congr rfl rfl rfl, ho.1, ho.2, ho.3, ho.4, ho.5⟩

/-- Settles O14. -/
theorem everyStepKeepsGoodStates : Obligations.EveryStepKeepsGoodStates := by
  intro s t h ht
  have hs : Inv (served s) := h.withPorts _ _
  cases step_stepped ht with
  | waits => exact h
  | ignored => exact hs
  | refused info _ hc => exact hs.recorded hc info
  | ran i hi hd hg =>
    have hc := isCommand_of_decode hd
    exact (inv_iff _).mpr ⟨effect_passInv hc (allowed_of_runs hd hg) hs.passInv,
      effect_outerInv hc hs.outerInv⟩
  | replied v => exact hs.withPorts _ _
  | unassigned info => exact (hs.recorded (by decide) info).withPorts _ _
  | wrote _ hw => exact hs.written hw
  | captured _ hc =>
    exact (inv_iff _).mpr ⟨hs.passInv.congr rfl rfl rfl, h.tier_legal, h.empty_file, h.errorInv,
      Memory.wf_writeCells h.mem_wf hc, h.params_wf⟩

end Sys2Proof.Machine
end

section
/-! The location operations LOC.INC, LOC.BACK, LOC.MOV and the position decode POS.DECODE (40_addresser.md
R134, R139 to R148). -/

namespace Sys2Proof.Machine

theorem refusal_of_idle {i : Instr} {s : State} (ha : allowed i s = (s.dec.phase == .idle))
    (hp : s.dec.phase = .idle) : refusal i s = operandRefusal i s :=
  refusal_of_allowed (by rw [ha, hp]; rfl)

/-- R134 by raw offsets: a reserved slot is stepped over, circularly. -/
theorem Location.inc_pack {l : Location} (hl : l.legal) :
    l.inc.pack = l.pack + (if l.event = 6 then 2 else 1) := by
  have hinc := Location.inc_toNat hl
  have hr := l.row.isLt
  have hc := l.cluster.isLt
  have he := (Location.legal_iff l).mp hl
  have h6 : l.event = 6 ↔ ¬ l.event.toNat < 6 := by
    rw [← BitVec.toNat_inj]
    show l.event.toNat = 6 ↔ _
    omega
  apply BitVec.eq_of_toNat_eq
  rw [BitVec.toNat_add, Location.pack_toNat, Location.pack_toNat]
  simp only [h6]
  split_ifs at hinc ⊢ <;> simp only [Prod.mk.injEq] at hinc <;> simp <;> omega

/-- Settles O23. -/
theorem locIncMovesToTheNextLocation : Obligations.LocIncMovesToTheNextLocation := by
  intro s lr he hp hl
  exact ⟨_, exec_effect he (refusal_of_idle rfl hp), Location.inc_toNat hl, Location.inc_pack hl⟩

/-- Settles O25. -/
theorem locBackWalksToTheFloor : Obligations.LocBackWalksToTheFloor := by
  intro s lr n he hp hl hf
  exact ⟨_, exec_effect he (refusal_of_idle rfl hp), Location.back_legal hl n,
    Location.back_position hf hl n⟩

/-- Settles O27. -/
theorem locMovCopiesTheLocation : Obligations.LocMovCopiesTheLocation := by
  intro s la lb he hp
  exact ⟨_, exec_effect he (refusal_of_idle rfl hp), rfl, fun r => locations_get_set ..⟩

theorem parseTrig_toNat (lo : BitVec 32) : (parseTrig lo).toNat = lo.toNat % 16777216 := by
  simp [parseTrig]

theorem parseStop_toNat (lo : BitVec 32) (hi : BitVec 24) :
    (parseStop lo hi).toNat = lo.toNat / 16777216 + 256 * (hi.toNat % 65536) := by
  have hlo := lo.isLt
  rw [parseStop, BitVec.toNat_append, ← Nat.shiftLeft_add_eq_or_of_lt (BitVec.isLt _)]
  simp only [BitVec.extractLsb'_toNat, Nat.shiftLeft_eq, Nat.shiftRight_eq_div_pow, Nat.reducePow]
  omega

theorem parseStatus_toNat (hi : BitVec 24) : (parseStatus hi).toNat = hi.toNat / 65536 := by
  have := hi.isLt
  simp [parseStatus, Nat.shiftRight_eq_div_pow]
  omega

/-- Settles O28. -/
theorem posDecodeLoadsAdjustedPositions : Obligations.PosDecodeLoadsAdjustedPositions := by
  intro s he hp h7
  refine ⟨_, _, _, exec_effect he ((refusal_of_idle rfl hp).trans (if_pos h7)), ?_, ?_, ?_,
    adjust_legal _, adjust_legal _⟩
  · rw [Location.pack_ofRaw, adjust_toNat, parseTrig_toNat]
  · rw [Location.pack_ofRaw, adjust_toNat, parseStop_toNat]
  · exact parseStatus_toNat _

/-- Settles O29. -/
theorem posDecodeRejectsAWrongLength : Obligations.PosDecodeRejectsAWrongLength := by
  intro s he hp h7
  exact exec_refused he ((refusal_of_idle rfl hp).trans (if_neg h7))

end Sys2Proof.Machine
end

section
/-! The trigger compiler (41_trigger_lutgen.md to 43_trigger_compile.md). -/

namespace Sys2Proof.Machine

/-! ## The phase check passed -/

theorem refusal_of_not_sent {i : Instr} {s : State}
    (ha : allowed i s = (s.tphase == .empty || s.tphase == .compiled)) (hp : s.tphase ≠ .sent) :
    refusal i s = operandRefusal i s := by
  refine refusal_of_allowed ?_
  rw [ha]
  cases ht : s.tphase with
  | sent => exact absurd ht hp
  | _ => rfl

/-- A file that is not sent is `COMPILED` after a store. -/
theorem storeLut_of_not_sent {s : State} (hp : s.tphase ≠ .sent) (f : LutFile) :
    storeLut f s = { s with lut := f, tphase := .compiled } := by
  unfold storeLut
  cases ht : s.tphase with
  | sent => exact absurd ht hp
  | _ => rfl

/-! ## TRG.LUTGEN and TRG.EVAL -/

theorem extractLsb'_getLsbD (w : Half) (q c : Nat) (hc : c < 4) :
    (w.extractLsb' (4 * q) 4).getLsbD c = w.getLsbD (4 * q + c) := by
  rw [BitVec.getLsbD_extractLsb', decide_eq_true hc, Bool.true_and]

/-- R161: a generated table is true of the patterns that agree with the value on the mask. -/
theorem lutTable_eq_beq (value mask : Half) (q : Nat) (j : BitVec 4) :
    (lutTable value mask q).getLsbD j.toNat =
      ((j &&& mask.extractLsb' (4 * q) 4) ==
        (value.extractLsb' (4 * q) 4 &&& mask.extractLsb' (4 * q) 4)) := by
  rw [Bool.eq_iff_iff, lutTable_getLsbD _ _ _ _ j.isLt, beq_iff_eq]
  constructor
  · intro h
    apply BitVec.eq_of_getLsbD_eq
    intro c hc
    have hv := h c hc
    rw [BitVec.getLsbD_and, BitVec.getLsbD_and, extractLsb'_getLsbD _ _ _ hc, extractLsb'_getLsbD _ _ _ hc]
    cases hm : mask.getLsbD (4 * q + c) with
    | false => rw [Bool.and_false, Bool.and_false]
    | true => rw [hv hm]; rfl
  · intro h c hc hm
    have hv := congrArg (·.getLsbD c) h
    simp only [BitVec.getLsbD_and, extractLsb'_getLsbD _ _ _ hc, hm, Bool.and_true] at hv
    exact hv.symm

theorem buildLutEntry_get (value mask : Half) (q : Fin 4) :
    (buildLutEntry value mask).get q = lutTable value mask q.val := by
  match q with
  | 0 | 1 | 2 | 3 => rfl

/-- Settles O30. -/
theorem lutgenDecidesTheMaskedValue : Obligations.LutgenDecidesTheMaskedValue := by
  intro s set he hp
  refine ⟨buildLutEntry s.genValue s.genMask, ?_, lutEval_buildLutEntry _ _, fun q j => ?_⟩
  · rw [exec_effect he (refusal_of_not_sent rfl hp), effect, storeLut_of_not_sent hp]
  · rw [buildLutEntry_get]
    exact lutTable_eq_beq ..

/-- R163: the index of a quad is the sample's nibble. -/
theorem lutEval_iff (t : TableSet) (v : Half) :
    lutEval t v = true ↔ ∀ q : Fin 4, (t.get q).getLsbD (v.toNat / 16 ^ q.val % 16) = true := by
  have hn : ∀ q, (v.extractLsb' (4 * q) 4).toNat = v.toNat / 16 ^ q % 16 := fun q => by
    rw [BitVec.extractLsb'_toNat, Nat.shiftRight_eq_div_pow, Nat.pow_mul]
  have h0 := hn 0
  have h1 := hn 1
  have h2 := hn 2
  have h3 := hn 3
  rw [Nat.mul_zero] at h0
  simp only [Nat.reduceMul] at h1 h2 h3
  simp only [lutEval, Bool.and_eq_true, h0, h1, h2, h3]
  constructor
  · rintro ⟨⟨⟨e0, e1⟩, e2⟩, e3⟩ q
    match q with
    | 0 => exact e0
    | 1 => exact e1
    | 2 => exact e2
    | 3 => exact e3
  · intro h
    exact ⟨⟨⟨h 0, h 1⟩, h 2⟩, h 3⟩

/-- Settles O31. -/
theorem evalSetsHit : Obligations.EvalSetsHit := by
  intro s set he
  exact ⟨_, exec_effect he rfl, lutEval_iff _ _⟩

/-! ## TRG.FUNC -/

/-- R183 on whole masks. -/
def combineMasks (func : Combinator) (old image : Half) : Half :=
  match func with
  | .and => old &&& image
  | .nand => ~~~ (old &&& image)
  | .or => old ||| image
  | .nor => ~~~ (old ||| image)
  | .xor => old ^^^ image
  | .xnor => ~~~ (old ^^^ image)

theorem combineMasks_getLsbD (func : Combinator) (old image : Half) {j : Nat} (hj : j < 16) :
    (combineMasks func old image).getLsbD j = combine func (old.getLsbD j) (image.getLsbD j) := by
  have hnot : ∀ m : Half, (~~~ m).getLsbD j = !m.getLsbD j := fun m => by
    rw [BitVec.getLsbD_not, decide_eq_true hj, Bool.true_and]
  cases func with
  | and => exact BitVec.getLsbD_and
  | or => exact BitVec.getLsbD_or
  | xor => exact BitVec.getLsbD_xor
  | nand => rw [combineMasks, hnot, BitVec.getLsbD_and, combine]
  | nor => rw [combineMasks, hnot, BitVec.getLsbD_or, combine]
  | xnor =>
    rw [combineMasks, hnot, BitVec.getLsbD_xor, combine]
    cases old.getLsbD j <;> cases image.getLsbD j <;> rfl

/-- R184, R186: the new mask is the combinator applied to the old one and the image of the primitive. -/
theorem addTriggerFunction_eq (op : Prim) (func : Combinator) (slot : EdgeSlot) (neg : Bool) (mask : Half) :
    addTriggerFunction op func slot neg mask = combineMasks func mask (primitiveImage op slot neg) := by
  apply BitVec.eq_of_getLsbD_eq
  intro j hj
  rw [addTriggerFunction_getLsbD _ _ _ _ _ j hj, combineMasks_getLsbD _ _ _ hj,
    primitiveImage_getLsbD _ _ _ j hj]

/-- Settles O32. -/
theorem funcFoldsThePrimitive : Obligations.FuncFoldsThePrimitive := by
  intro s op func slot neg target he hp
  rw [exec_effect he (refusal_of_not_sent rfl hp), effect, storeLut_of_not_sent hp, addTriggerFunction_eq]
  rfl

end Sys2Proof.Machine
end

section
/-! TRG.COMPILE and TRG.XMIT (43_trigger_compile.md R201 to R212). -/

namespace Sys2Proof.Machine

/-! ## The check of the specification, R202 -/

theorem mem_channels (m : Half) (c : Fin 16) : c ∈ channels m ↔ m.getLsbD c.val = true := by
  simp [channels]

theorem popcount_eq_card (m : Half) : popcount m = (channels m).card := by
  have hr : List.range 16 = (List.finRange 16).map Fin.val := by decide
  have hc : channels m = (List.finRange 16).toFinset.filter (m.getLsbD ·.val = true) := by
    rw [channels, List.toFinset_finRange]
  rw [popcount, hr, List.countP_map, List.countP_eq_length_filter, hc, ← List.toFinset_filter,
    List.toFinset_card_of_nodup ((List.nodup_finRange 16).filter _)]
  simp [Function.comp_def]

theorem checkSpec_eq (s : State) : checkSpec s =
    if 2 < (channels s.spec.edges).card then some .tooManyEdges
    else if s.config ∈ s.params.fastTiers ∧ 1 < (channels s.spec.edges).card then some .fastEdges
    else none := by
  rw [checkSpec, popcount_eq_card]
  rfl

/-- TRG.COMPILE of a specification that is accepted. -/
theorem exec_trgCompile {s : State} (he : s.errs.pending = false) (hp : s.tphase ≠ .sent)
    (hc : checkSpec s = none) :
    exec .trgCompile s = .next { s with lut := compileFile s.params s.spec, tphase := .compiled } :=
  exec_effect he ((refusal_of_not_sent rfl hp).trans (by rw [operandRefusal, hc]; rfl))

theorem exec_trgCompile_refused {s : State} (he : s.errs.pending = false) (hp : s.tphase ≠ .sent)
    {e : ErrCode} (hc : checkSpec s = some e) :
    exec .trgCompile s = .next (recorded e.code (s.spec.edges.setWidth 32) s) :=
  exec_refused he ((refusal_of_not_sent rfl hp).trans (by rw [operandRefusal, hc]; rfl))

/-- Settles O33. -/
theorem compileChecksTheSpecification : Obligations.CompileChecksTheSpecification := by
  intro s he hp
  have hs := checkSpec_eq s
  refine ⟨fun h => ?_, fun h hf => ?_, fun h hf => ?_⟩
  · exact exec_trgCompile_refused he hp (hs.trans (if_pos h))
  · have h2 : ¬ 2 < (channels s.spec.edges).card := fun hlt => absurd h (Nat.ne_of_gt hlt)
    exact exec_trgCompile_refused he hp (hs.trans ((if_neg h2).trans (if_pos ⟨hf, by
      rw [show (channels s.spec.edges).card = 2 from h]; decide⟩)))
  · have h1 : ¬ (s.config ∈ s.params.fastTiers ∧ 1 < (channels s.spec.edges).card) := fun hc =>
      hf ⟨hc.1, Nat.le_antisymm h hc.2⟩
    exact ⟨_, exec_trgCompile he hp (hs.trans ((if_neg (Nat.not_lt.mpr h)).trans (if_neg h1)))⟩

theorem checkSpec_of_card {s : State} (h : (channels (s.spec.risingMask ||| s.spec.fallingMask)).card ≤
    if s.config ∈ s.params.fastTiers then 1 else 2) : checkSpec s = none := by
  rw [checkSpec_eq, TriggerSpec.edges]
  split at h
  next hf => rw [if_neg (by omega), if_neg (fun hc => by omega)]
  next hf => rw [if_neg (by omega), if_neg (fun hc => hf hc.1)]

/-! ## The empty specification, R207 -/

/-- Settles O36. -/
theorem compileOfAnEmptySpecificationClears : Obligations.CompileOfAnEmptySpecificationClears := by
  intro s he hp hm hr hf
  have hc : checkSpec s = none := by
    refine checkSpec_of_card ?_
    rw [hr, hf]
    exact Nat.zero_le _
  have hu : compileFile s.params s.spec = Registers.zero.lut :=
    if_neg (by rw [(TriggerSpec.useTrig_eq_false_iff _).mpr ⟨hm, hr, hf⟩]; decide)
  refine ⟨_, exec_trgCompile he hp hc, rfl, fun sel q => ?_, fun g => ?_, fun i => ?_⟩
  · show ((compileFile s.params s.spec).table sel).get q = 0
    rw [hu, zero_lut_table, TableSet.zero_get]
  · show (compileFile s.params s.spec).glue g = 0
    rw [hu, zero_lut_glue]
  · show (compileFile s.params s.spec).param i = 0
    rw [hu, zero_lut_param]

/-! ## The channel scan, R201, channel by channel of the edge masks -/

/-- The edge channels in the order of the scan. -/
def edgeList (p : TriggerSpec) : List Nat := (List.range 16).filter (p.edges.getLsbD ·)

theorem edgeList_eq {p : TriggerSpec} {l : List Nat} (hs : l.Pairwise (· < ·))
    (hm : ∀ i, i ∈ l ↔ i < 16 ∧ p.edges.getLsbD i = true) : edgeList p = l := by
  have hl : (edgeList p).Pairwise (· < ·) := List.Pairwise.filter _ List.pairwise_lt_range
  refine List.Perm.eq_of_pairwise (le := (· < ·)) (fun a b _ _ h h' => ?_) hl hs ?_
  · exact absurd h' (Nat.lt_asymm h)
  · refine (List.perm_ext_iff_of_nodup (hl.imp Nat.ne_of_lt) (hs.imp Nat.ne_of_lt)).mpr fun i => ?_
    rw [hm, edgeList, List.mem_filter, List.mem_range]

/-- What the scan does at an edge channel. -/
def takeChannel (p : TriggerSpec) (acc : LutFile × Nat) (ch : Nat) : LutFile × Nat :=
  if acc.2 = 0 then
    (foldEdge .fall .slot0 p.fallingMask ch (foldEdge .rise .slot0 p.risingMask ch
      { acc.1 with m0d := channelTable ch, m3q := 0 }), 1)
  else if acc.2 = 1 then
    (foldEdge .fall .slot1 p.fallingMask ch (foldEdge .rise .slot1 p.risingMask ch
      { acc.1 with m1d := channelTable ch }), 2)
  else acc

theorem compileChannel_eq (p : TriggerSpec) (acc : LutFile × Nat) (ch : Nat) :
    compileChannel p acc ch = if p.edges.getLsbD ch then takeChannel p acc ch else acc := rfl

/-- The file before the scan. -/
def baseFile (q : Config.Params) (p : TriggerSpec) : LutFile :=
  { m0d := .zero, m1d := .zero, m2d := buildLutEntry p.simpleValue p.simpleMask,
    m3q := 0xFFFF, m3s := 0, m4 := q.m4Simple,
    param0 := q.paramSimple0, param1 := q.paramSimple1, param2 := q.paramSimple2 }

theorem compileFile_eq {q : Config.Params} {p : TriggerSpec} (h : p.useTrig = true) :
    compileFile q p = ((edgeList p).foldl (takeChannel p) (baseFile q p, 0)).1 := by
  rw [edgeList, List.foldl_filter, compileFile, if_pos h]
  rfl

theorem foldEdge_eq (op : Prim) (slot : EdgeSlot) (mask : Half) (ch : Nat) (f : LutFile) :
    foldEdge op slot mask ch f = { f with
      m3q := if mask.getLsbD ch then f.m3q ||| primitiveImage op slot false else f.m3q } := by
  unfold foldEdge
  rw [addTriggerFunction_eq]
  split <;> rfl

/-- R204: the glue of the first edge channel. -/
theorem edgeGlue_one : ∀ r f : Bool, (r || f) = true →
    (if f then (if r then (0 : Half) ||| primitiveImage .rise .slot0 false else 0) |||
        primitiveImage .fall .slot0 false
      else if r then (0 : Half) ||| primitiveImage .rise .slot0 false else 0) =
      edgeGlue r f false false := by decide

/-- R204: the glue of the second edge channel, folded into that of the first. -/
theorem edgeGlue_two : ∀ r0 f0 r1 f1 : Bool, (r0 || f0) = true → (r1 || f1) = true →
    (if f1 then (if r1 then edgeGlue r0 f0 false false ||| primitiveImage .rise .slot1 false
          else edgeGlue r0 f0 false false) ||| primitiveImage .fall .slot1 false
      else if r1 then edgeGlue r0 f0 false false ||| primitiveImage .rise .slot1 false
        else edgeGlue r0 f0 false false) =
      edgeGlue r0 f0 r1 f1 := by decide

theorem edges_getLsbD (p : TriggerSpec) (c : Nat) :
    p.edges.getLsbD c = (p.risingMask.getLsbD c || p.fallingMask.getLsbD c) := BitVec.getLsbD_or

theorem takeChannel_first {p : TriggerSpec} {c : Nat} (hc : p.edges.getLsbD c = true) (f : LutFile) :
    takeChannel p (f, 0) c = ({ f with
      m0d := channelTable c
      m3q := edgeGlue (p.risingMask.getLsbD c) (p.fallingMask.getLsbD c) false false }, 1) := by
  rw [edges_getLsbD] at hc
  simp only [takeChannel, if_true, foldEdge_eq, edgeGlue_one _ _ hc]

theorem takeChannel_second {p : TriggerSpec} {d : Nat} (hd : p.edges.getLsbD d = true) {r0 f0 : Bool}
    (h0 : (r0 || f0) = true) {f : LutFile} (hf : f.m3q = edgeGlue r0 f0 false false) :
    takeChannel p (f, 1) d = ({ f with
      m1d := channelTable d
      m3q := edgeGlue r0 f0 (p.risingMask.getLsbD d) (p.fallingMask.getLsbD d) }, 2) := by
  rw [edges_getLsbD] at hd
  simp only [takeChannel, Nat.one_ne_zero, if_false, if_true, foldEdge_eq, hf, edgeGlue_two _ _ _ _ h0 hd]

/-- R203, R206: with no edge channel the scan changes nothing. -/
theorem compileFile_of_none {q : Config.Params} {p : TriggerSpec} (h : p.useTrig = true)
    (hc : channels p.edges = ∅) : compileFile q p = baseFile q p := by
  have hl : edgeList p = [] := edgeList_eq .nil fun i => by
    refine iff_of_false List.not_mem_nil fun ⟨hi, hb⟩ => ?_
    have : (⟨i, hi⟩ : Fin 16) ∈ channels p.edges := (mem_channels ..).mpr hb
    rw [hc] at this
    exact absurd this (Finset.notMem_empty _)
  rw [compileFile_eq h, hl]
  rfl

theorem compileFile_of_one {q : Config.Params} {p : TriggerSpec} (h : p.useTrig = true) {c : Fin 16}
    (hc : channels p.edges = {c}) : compileFile q p = { baseFile q p with
      m0d := channelTable c.val
      m3q := edgeGlue (p.risingMask.getLsbD c.val) (p.fallingMask.getLsbD c.val) false false } := by
  have hm : ∀ i : Fin 16, p.edges.getLsbD i.val = true ↔ i = c := fun i => by
    rw [← mem_channels, hc, Finset.mem_singleton]
  have hl : edgeList p = [c.val] := edgeList_eq (List.pairwise_singleton ..) fun i => by
    rw [List.mem_singleton]
    exact ⟨fun e => e ▸ ⟨c.isLt, (hm c).mpr rfl⟩, fun ⟨hi, hb⟩ => congrArg Fin.val ((hm ⟨i, hi⟩).mp hb)⟩
  rw [compileFile_eq h, hl, List.foldl_cons, takeChannel_first ((hm c).mpr rfl)]
  rfl

theorem compileFile_of_two {q : Config.Params} {p : TriggerSpec} (h : p.useTrig = true) {c d : Fin 16}
    (hlt : c < d) (hc : channels p.edges = {c, d}) : compileFile q p = { baseFile q p with
      m0d := channelTable c.val, m1d := channelTable d.val
      m3q := edgeGlue (p.risingMask.getLsbD c.val) (p.fallingMask.getLsbD c.val)
        (p.risingMask.getLsbD d.val) (p.fallingMask.getLsbD d.val) } := by
  have hm : ∀ i : Fin 16, p.edges.getLsbD i.val = true ↔ i = c ∨ i = d := fun i => by
    rw [← mem_channels, hc, Finset.mem_insert, Finset.mem_singleton]
  have hl : edgeList p = [c.val, d.val] := edgeList_eq (List.pairwise_pair.mpr hlt) fun i => by
    rw [List.mem_pair]
    constructor
    · rintro (rfl | rfl)
      · exact ⟨c.isLt, (hm c).mpr (.inl rfl)⟩
      · exact ⟨d.isLt, (hm d).mpr (.inr rfl)⟩
    · rintro ⟨hi, hb⟩
      exact ((hm ⟨i, hi⟩).mp hb).imp (congrArg Fin.val) (congrArg Fin.val)
  have hc' := (hm c).mpr (.inl rfl)
  rw [compileFile_eq h, hl, List.foldl_cons, takeChannel_first hc', List.foldl_cons,
    takeChannel_second ((hm d).mpr (.inr rfl)) ((edges_getLsbD ..).symm.trans hc') rfl]
  rfl

/-- R204: the table set of an edge channel reads that channel. -/
theorem lutEval_channelTable (c : Fin 16) (v : Half) : lutEval (channelTable c.val) v = v.getLsbD c.val := by
  have h1 : ((1 <<< c.val : Nat) : Half) = BitVec.twoPow 16 c.val := by revert c; decide
  have hz : (0 : Half) ≠ BitVec.twoPow 16 c.val := by revert c; decide
  rw [channelTable, lutEval_buildLutEntry, h1, BitVec.and_self, BitVec.and_twoPow]
  cases v.getLsbD c.val
  · exact beq_eq_false_iff_ne.mpr hz
  · exact beq_self_eq_true _

theorem useTrig_of_ne_zero {p : TriggerSpec}
    (h : p.simpleMask ||| p.risingMask ||| p.fallingMask ≠ 0) : p.useTrig = true := bne_iff_ne.mpr h

/-- At most two edge channels, and the lower of them named first. -/
theorem channels_cases {m : Half} (h : (channels m).card ≤ 2) :
    channels m = ∅ ∨ (∃ c, channels m = {c}) ∨ ∃ c d, c < d ∧ channels m = {c, d} := by
  rcases Nat.lt_or_eq_of_le h with h | h
  · rcases Nat.lt_or_eq_of_le (Nat.le_of_lt_succ h) with h | h
    · exact .inl (Finset.card_eq_zero.mp (Nat.lt_one_iff.mp h))
    · exact .inr (.inl (Finset.card_eq_one.mp h))
  · obtain ⟨c, d, hne, hc⟩ := Finset.card_eq_two.mp h
    rcases lt_or_gt_of_ne hne with hlt | hlt
    · exact .inr (.inr ⟨c, d, hlt, hc⟩)
    · exact .inr (.inr ⟨d, c, hlt, hc.trans (Finset.pair_comm c d)⟩)

/-- R203, R206: the scan of at most two channels writes no members but `M0D`, `M1D` and `M3Q`. -/
theorem compileFile_constant {q : Config.Params} {p : TriggerSpec} (h : p.useTrig = true)
    (hc : (channels p.edges).card ≤ 2) :
    ∃ m0 m1 m3, compileFile q p = { baseFile q p with m0d := m0, m1d := m1, m3q := m3 } := by
  rcases channels_cases hc with hc | ⟨c, hc⟩ | ⟨c, d, hlt, hc⟩
  · exact ⟨_, _, _, compileFile_of_none h hc⟩
  · exact ⟨_, _, _, compileFile_of_one h hc⟩
  · exact ⟨_, _, _, compileFile_of_two h hlt hc⟩

theorem card_le_two {s : State} (h : (channels (s.spec.risingMask ||| s.spec.fallingMask)).card ≤
    if s.config ∈ s.params.fastTiers then 1 else 2) : (channels s.spec.edges).card ≤ 2 := by
  refine Nat.le_trans h ?_
  split <;> decide

/-- Settles O35. -/
theorem compileFillsTheMembers : Obligations.CompileFillsTheMembers := by
  intro s he hp hc hu
  have hu := useTrig_of_ne_zero hu
  obtain ⟨m0, m1, m3, hf⟩ := compileFile_constant (q := s.params) hu (card_le_two hc)
  refine ⟨_, exec_trgCompile he hp (checkSpec_of_card hc), by rw [hf]; rfl, by rw [hf]; rfl,
    by rw [hf]; rfl, by rw [hf]; rfl, by rw [hf]; rfl, fun v => ?_, fun h0 => ?_, fun c h1 => ?_,
    fun c d hlt h2 => ?_⟩
  · rw [hf]
    exact lutEval_buildLutEntry ..
  · rw [compileFile_of_none hu h0]
    exact ⟨rfl, rfl, rfl⟩
  · rw [compileFile_of_one hu h1]
    exact ⟨lutEval_channelTable c, rfl, rfl⟩
  · rw [compileFile_of_two hu hlt h2]
    exact ⟨lutEval_channelTable c, lutEval_channelTable d, rfl⟩

/-! ## The compiled file and the match of R276 -/

/-- The match on levels is one comparison of masked values. -/
theorem levels_eq (p : TriggerSpec) (cur : Half) :
    ((List.range 16).all fun c => !p.simpleMask.getLsbD c || cur.getLsbD c == p.simpleValue.getLsbD c) =
      ((cur &&& p.simpleMask) == (p.simpleValue &&& p.simpleMask)) := by
  have h := (if_pos (show (0 : Half) ||| 0 = 0 by decide)).symm.trans
    (triggerMatch_eq_matchesSpec .any { p with risingMask := 0, fallingMask := 0 } 0 cur)
  refine Eq.trans ?_ h.symm
  simp [matchesSpec]

/-- An edge channel has its edge between two samples. -/
def edgeFires (p : TriggerSpec) (prev cur : Half) (c : Nat) : Bool :=
  (p.risingMask.getLsbD c && !prev.getLsbD c && cur.getLsbD c) ||
    (p.fallingMask.getLsbD c && prev.getLsbD c && !cur.getLsbD c)

theorem edges_of_edgeFires {p : TriggerSpec} {prev cur : Half} {c : Nat}
    (h : edgeFires p prev cur c = true) : p.edges.getLsbD c = true := by
  rw [edges_getLsbD]
  revert h
  unfold edgeFires
  cases p.risingMask.getLsbD c <;> cases p.fallingMask.getLsbD c <;> simp

/-- R276 in mode `any`, over the channels of the edge masks alone. -/
theorem matchesSpec_any (p : TriggerSpec) (prev cur : Half) : matchesSpec .any p prev cur = true ↔
    ((cur &&& p.simpleMask) == (p.simpleValue &&& p.simpleMask)) = true ∧
      (channels p.edges = ∅ ∨ ∃ c ∈ channels p.edges, edgeFires p prev cur c.val = true) := by
  rw [matchesSpec, levels_eq, Bool.and_eq_true, Bool.or_eq_true]
  refine and_congr_right fun _ => or_congr ?_ ?_
  · rw [List.all_eq_true, Finset.eq_empty_iff_forall_notMem]
    simp only [List.mem_range, mem_channels, edges_getLsbD, Bool.and_eq_true, Bool.not_eq_true',
      Bool.or_eq_true, not_or, Bool.not_eq_true]
    exact ⟨fun h c => h c.val c.isLt, fun h c hc => h ⟨c, hc⟩⟩
  · rw [List.any_eq_true]
    constructor
    · rintro ⟨c, hc, he⟩
      exact ⟨⟨c, List.mem_range.mp hc⟩, (mem_channels ..).mpr (edges_of_edgeFires he), he⟩
    · rintro ⟨c, -, he⟩
      exact ⟨c.val, List.mem_range.mpr c.isLt, he⟩

/-- R204, R205: at the index of R205 the glue is 1 exactly on the edges of its two slots. -/
theorem edgeGlue_getLsbD : ∀ r0 f0 r1 f1 c0 p0 c1 p1 : Bool, (r0 || f0) = true →
    (edgeGlue r0 f0 r1 f1).getLsbD (c0.toNat + 2 * p0.toNat + 4 * c1.toNat + 8 * p1.toNat) =
      ((r0 && !p0 && c0 || f0 && p0 && !c0) || (r1 && !p1 && c1 || f1 && p1 && !c1)) := by
  decide

theorem lutEval_zero (v : Half) : lutEval ⟨0, 0, 0, 0⟩ v = false := by
  simp [lutEval]

/-- Settles O34: the level tables and the glue, by the members of the file for no, one and two edge
channels. -/
theorem compiledFileMatchesTheSpecification : Obligations.CompiledFileMatchesTheSpecification := by
  intro s he hp hc hu
  obtain ⟨f, hexec, -, -, -, -, -, hlevel, hnone, hone, htwo⟩ := compileFillsTheMembers s he hp hc hu
  have key : ∀ prev cur, compiledMatch f prev cur = matchesSpec .any s.spec prev cur := by
    intro prev cur
    rw [Bool.eq_iff_iff, matchesSpec_any, compiledMatch, hlevel, Bool.and_eq_true]
    refine and_congr_right fun _ => ?_
    rcases channels_cases (card_le_two hc) with hch | ⟨c, hch⟩ | ⟨c, d, hlt, hch⟩
    · obtain ⟨h0, h1, hq⟩ := hnone hch
      rw [hch, hq, glueIndex, h0, h1, lutEval_zero, lutEval_zero]
      simp
    · obtain ⟨h0, h1, hq⟩ := hone c hch
      have hc : c ∈ channels s.spec.edges := by rw [hch]; exact Finset.mem_singleton_self c
      rw [mem_channels, edges_getLsbD] at hc
      rw [hch, hq, glueIndex, h0, h0, h1, lutEval_zero, lutEval_zero, edgeGlue_getLsbD _ _ _ _ _ _ _ _ hc]
      simp [edgeFires]
    · obtain ⟨h0, h1, hq⟩ := htwo c d hlt hch
      have hc : c ∈ channels s.spec.edges := by rw [hch]; exact Finset.mem_insert_self c _
      rw [mem_channels, edges_getLsbD] at hc
      rw [hch, hq, glueIndex, h0, h0, h1, h1, edgeGlue_getLsbD _ _ _ _ _ _ _ _ hc]
      simp [edgeFires]
  exact ⟨f, hexec, fun prev cur => ⟨key prev cur, by rw [key, triggerMatch_eq_matchesSpec]⟩⟩

/-! ## TRG.XMIT, R210 and R212 -/

theorem regwBytes_append (w : Half) : w.extractLsb' 8 8 ++ w.extractLsb' 0 8 = w :=
  BitVec.extractLsb'_append_extractLsb'

/-- R212: which entry each bit of a table word is. -/
theorem lutWord_bits (f : LutFile) (a : Nat) :
    (∀ q : Fin 4, (lutWord f a).getLsbD q.val = (f.m0d.get q).getLsbD a ∧
      (lutWord f a).getLsbD (4 + q.val) = (f.m1d.get q).getLsbD a ∧
      (lutWord f a).getLsbD (8 + q.val) = (f.m2d.get q).getLsbD a) ∧
    (lutWord f a).getLsbD 12 = f.m3q.getLsbD a ∧ (lutWord f a).getLsbD 13 = f.m3s.getLsbD a ∧
    (lutWord f a).getLsbD 14 = f.m4.getLsbD a ∧ (lutWord f a).getLsbD 15 = false := by
  refine ⟨fun q => ?_, ?_, ?_, ?_, ?_⟩
  · match q with
    | 0 | 1 | 2 | 3 =>
      exact ⟨lutWord_getLsbD f a _ (by decide), lutWord_getLsbD f a _ (by decide),
        lutWord_getLsbD f a _ (by decide)⟩
  · exact lutWord_getLsbD f a 12 (by decide)
  · exact lutWord_getLsbD f a 13 (by decide)
  · exact lutWord_getLsbD f a 14 (by decide)
  · exact (lutWord_getLsbD f a 15 (by decide)).trans BitVec.getLsbD_zero

/-- R210: where the two transactions of an address stand. -/
theorem xmitTransactions_address (q : Config.Params) (f : LutFile) {a : Nat} (ha : a < 16) :
    (xmitTransactions q f)[2 * a]? = some ⟨q.regTriggerSelect, regwBytes (lutWord f a)⟩ ∧
    (xmitTransactions q f)[2 * a + 1]? =
      some ⟨q.regTriggerSelect2, [q.resetBit ||| q.lutWriteBit ||| BitVec.ofNat 8 a]⟩ := by
  interval_cases a <;> exact ⟨rfl, rfl⟩

/-- Settles O37. -/
theorem xmitSendsTheFile : Obligations.XmitSendsTheFile := by
  intro s he hp
  have ha : allowed .trgXmit s = true := beq_iff_eq.mpr hp
  refine ⟨_, exec_effect he (refusal_of_allowed ha), rfl, fun a h => ?_, _, _, _, _, _, _, rfl,
    regwBytes_append _, regwBytes_append _, regwBytes_append _⟩
  obtain ⟨h1, h2⟩ := xmitTransactions_address s.params s.lut h
  refine ⟨_, _, h1, h2, ?_⟩
  rw [regwBytes_append]
  exact lutWord_bits s.lut a

end Sys2Proof.Machine
end

section
/-! DEC.SETUP (44_decoder.md R232 to R234, 45_refinement.md R270, R271) and the de-interleaving operations
(44_decoder.md R245 to R247). -/

namespace Sys2Proof.Machine

/-! ## DEC.SETUP -/

theorem exec_decSetup {s : State} (he : s.errs.pending = false) (hp : s.dec.phase = .idle) :
    exec .decSetup s = .next (setupPass s) :=
  exec_effect he (refusal_of_idle rfl hp)

/-- Settles O38. -/
theorem setupStartsThePass : Obligations.SetupStartsThePass := by
  intro s he hp
  have hs := passStart_eq s
  have ht := passLines_toNat s
  refine ⟨passStart s, passArm s, passArmValid s, passLines s, exec_decSetup he hp, by rw [hs], by rw [hs],
    fun hw => ?_, fun hw => ?_⟩
  · have hw : ¬ wrapped s = true := by rw [wrapped, hw]; nofun
    rw [if_neg hw] at hs ht
    exact ⟨by rw [hs], ht⟩
  · have hw : wrapped s = true := hw
    rw [if_pos hw] at hs ht
    refine ⟨?_, ht⟩
    rw [hs, BitVec.toNat_add]
    rfl

theorem passArmValid_iff (s : State) : passArmValid s = true ↔ s.capstat.getLsbD 1 = true ∧
    (s.spec.simpleMask ≠ 0 ∨ s.spec.risingMask ≠ 0 ∨ s.spec.fallingMask ≠ 0) := by
  have hu : s.spec.useTrig = true ↔
      s.spec.simpleMask ≠ 0 ∨ s.spec.risingMask ≠ 0 ∨ s.spec.fallingMask ≠ 0 := by
    rw [← Bool.not_eq_false, TriggerSpec.useTrig_eq_false_iff]
    tauto
  rw [passArmValid, Bool.and_eq_true, hu, and_comm]
  rfl

/-- Settles O39: the arm position is a walk back from the trigger position, with `START` as its floor. -/
theorem setupPlacesTheArmPosition : Obligations.SetupPlacesTheArmPosition := by
  intro s he hp hl
  refine ⟨_, exec_decSetup he hp, passArmValid_iff s, fun hv => ?_, fun hv => ?_⟩
  · exact if_neg (by rw [show passArmValid s = false from hv]; nofun)
  · have ha : (setupPass s).locs.arm = Location.back (passStart s) 28 s.locs.trig := if_pos hv
    rw [ha]
    exact ⟨Location.back_legal hl 28, Location.back_position (passStart_legal s) hl 28⟩

/-! ## DEC.DEINT and DEC.REINT -/

theorem refusal_decDeint {s : State} {k : Nat} (h : k < 2 ^ s.config.toNat) :
    refusal (.decDeint k) s = none :=
  (refusal_of_allowed rfl).trans (if_pos (by rw [spe_eq]; exact h))

theorem refusal_decReint {s : State} {k : Nat} (h : k < 2 ^ s.config.toNat) :
    refusal (.decReint k) s = none :=
  (refusal_of_allowed rfl).trans (if_pos (by rw [spe_eq]; exact h))

/-- SPE divides the sixteen bits of a word. -/
theorem spe_dvd (s : State) : 2 ^ s.config.toNat ∣ 16 := by
  have := s.config.isLt
  exact pow_dvd_pow 2 (by omega : s.config.toNat ≤ 4)

theorem lt_div_iff_of_dvd {n i : Nat} (hn : 0 < n) (h : n ∣ 16) : i < 16 / n ↔ n * i < 16 := by
  obtain ⟨m, hm⟩ := h
  rw [hm, Nat.mul_div_cancel_left m hn, Nat.mul_lt_mul_left hn]

/-- Settles O40. -/
theorem deintExtractsTheSubSample : Obligations.DeintExtractsTheSubSample := by
  intro s k he hk
  refine ⟨_, exec_effect he (refusal_decDeint hk), fun i hi => ?_⟩
  rw [spe_eq, deint_getLsbD _ _ _ _ hi,
    decide_eq_decide.mpr (lt_div_iff_of_dvd (Nat.two_pow_pos _) (spe_dvd s))]

/-- Settles O41: a bit belongs to the sub-sample that its number modulo SPE names. -/
theorem reintAccumulatesTheSubSample : Obligations.ReintAccumulatesTheSubSample := by
  intro s k he hk
  refine ⟨_, exec_effect he (refusal_decReint hk), fun i hi => ?_, fun b hb => ?_⟩
  · have hn : 0 < 2 ^ s.config.toNat := Nat.two_pow_pos _
    have hb : 2 ^ s.config.toNat * i + k < 16 := by
      obtain ⟨m, hm⟩ := spe_dvd s
      generalize 2 ^ s.config.toNat = n at *
      have h1 : i < m := by
        rw [hm] at hi
        exact Nat.lt_of_mul_lt_mul_left hi
      calc n * i + k < n * i + n := Nat.add_lt_add_left hk _
        _ = n * (i + 1) := (Nat.mul_succ n i).symm
        _ ≤ n * m := Nat.mul_le_mul_left n h1
        _ = 16 := hm.symm
    rw [BitVec.getLsbD_or, spe_eq, reint_getLsbD _ _ _ _ hb, Nat.mul_add_mod, Nat.mod_eq_of_lt hk,
      Nat.mul_add_div hn, Nat.div_eq_of_lt hk, decide_eq_true rfl, Bool.true_and, Nat.add_zero]
  · rw [BitVec.getLsbD_or, spe_eq]
    rcases Nat.lt_or_ge b 16 with h | h
    · rw [reint_getLsbD _ _ _ _ h, decide_eq_false hb, Bool.false_and, Bool.or_false]
    · rw [BitVec.getLsbD_of_ge _ _ h, BitVec.getLsbD_of_ge _ _ h, Bool.or_false]

/-- A bit of a word, through its sub-sample. -/
theorem reint_deint_getLsbD {n : Nat} (hn : 0 < n) (hd : n ∣ 16) (w : Half) (k : Nat) {b : Nat}
    (hb : b < 16) :
    (reint n (deint n w k) k).getLsbD b = (decide (b % n = k) && w.getLsbD b) := by
  have hlt : b / n < 16 / n := by
    obtain ⟨m, hm⟩ := hd
    rw [hm, Nat.mul_div_cancel_left m hn]
    exact Nat.div_lt_of_lt_mul (hm ▸ hb)
  rw [reint_getLsbD _ _ _ _ hb, deint_getLsbD _ _ _ _ (Nat.lt_of_le_of_lt (Nat.div_le_self b n) hb),
    decide_eq_true hlt, Bool.true_and]
  by_cases hk : b % n = k
  · rw [← hk, Nat.div_add_mod]
  · rw [decide_eq_false hk, Bool.false_and, Bool.false_and]

/-- A bit of the masks of a list or-ed together. -/
theorem foldl_or_getLsbD (ms : List Half) (m : Half) (b : Nat) :
    (ms.foldl (· ||| ·) m).getLsbD b = (m.getLsbD b || ms.any (·.getLsbD b)) := by
  induction ms generalizing m with
  | nil => simp
  | cons x rest ih => rw [List.foldl_cons, ih, BitVec.getLsbD_or, List.any_cons, Bool.or_assoc]

/-- Settles O42: a bit is in exactly one sub-sample, and at its own place there. -/
theorem deintThenReintRoundTrips : Obligations.DeintThenReintRoundTrips := by
  intro n w hn
  have hd : 0 < n ∧ n ∣ 16 := by rcases hn with rfl | rfl | rfl <;> decide
  apply BitVec.eq_of_getLsbD_eq
  intro b hb
  rw [foldl_or_getLsbD, List.any_map, BitVec.ofNat_eq_ofNat, BitVec.getLsbD_zero, Bool.false_or, Bool.eq_iff_iff,
    List.any_eq_true]
  simp only [List.mem_range, Function.comp_apply, reint_deint_getLsbD hd.1 hd.2 w _ hb, Bool.and_eq_true,
    decide_eq_true_eq]
  exact ⟨fun ⟨k, _, _, h⟩ => h, fun h => ⟨b % n, Nat.mod_lt b hd.1, rfl, h⟩⟩

end Sys2Proof.Machine
end

section
/-! One cluster record (44_decoder.md R242 to R244) and where its marker stands (45_refinement.md R272 to
R280). -/

namespace Sys2Proof.Machine

theorem exec_cluster {r : ClusterRecord} {s : State} (h : eventsDue s ≠ 0) :
    exec (.cluster r) s = .next (runRecord r (eventsDue s) s) :=
  congrArg Host.Outcome.next (if_neg h)

theorem exec_cluster_of_none {r : ClusterRecord} {s : State} (h : eventsDue s = 0) :
    exec (.cluster r) s = .next s :=
  congrArg Host.Outcome.next (if_pos h)

theorem samplesOf_length (r : ClusterRecord) (s : State) :
    (samplesOf r s).length = (fillOf r s).length + eventsDue s * spe s := by
  rw [samplesOf_eq, List.length_append, wordsSamples_length, wordsOf_length]

/-! ## The window over a whole record -/

/-- A record with neither a software match nor the trigger position leaves the window as it is at its last
event. -/
theorem runRecord_quiet (r : ClusterRecord) {s : State} (h : Open s) {k : Nat} (hk : eventsDue s = k + 1)
    (hq : ∀ i, i < (samplesOf r s).length → softwareMatch r s i = false)
    (ht : ∀ e, e < eventsDue s → standsAt s s.locs.trig e = false) :
    (runRecord r (eventsDue s) s).dec.matched = false ∧
      (runRecord r (eventsDue s) s).dec.armed = checksAt s k ∧
      (runRecord r (eventsDue s) s).dec.evtRemain.toNat = budgetAt s k := by
  have hlen := samplesOf_length r s
  obtain ⟨hw, ho, -, -⟩ := fill_quiet r h fun i hi => hq i (by omega)
  have hws := wordsOf_length r s
  rw [runRecord_eq]
  generalize stamped r (emitSamples (fillOf r s) s) = v at hw ho
  have hrun := runEvents_quiet (wordsOf r s) (u := v) (by rw [hws]; exact eventsDue_le s) ho
    (fun e he => by
      rw [hw.standsAt, hw.locs]
      exact ht e (hws ▸ he))
    (fun i hi => by
      rw [hws, hw.spe] at hi
      rw [hw.looked, hw.wordsSamples, ← softwareMatch_words]
      exact hq _ (by omega))
  rw [hrun, hws, hk]
  refine ⟨rfl, hw.checksAt k, ?_⟩
  show (BitVec.ofNat 6 (budgetAt v k)).toNat = _
  rw [hw.budgetAt, BitVec.toNat_ofNat, Nat.mod_eq_of_lt (budgetAt_le k)]

/-- A record while the refinement does nothing leaves its flags. -/
theorem runRecord_closed (r : ClusterRecord) {s : State} (h : Closed s) :
    (runRecord r (eventsDue s) s).dec.armed = s.dec.armed ∧
      (runRecord r (eventsDue s) s).dec.matched = s.dec.matched ∧
      (runRecord r (eventsDue s) s).dec.evtRemain = s.dec.evtRemain ∧
      (runRecord r (eventsDue s) s).dec.markersOut = s.dec.markersOut := by
  have hv : Closed (stamped r (streamed s (fillOf r s) ((fillOf r s).map .sample))) := h
  rw [runRecord_eq, emitSamples_of_not_hits _ _ fun i _ => h.not_hits _ i, runEvents_closed _ hv]
  exact ⟨rfl, rfl, rfl, rfl⟩

/-- Settles O43: the frame and the counters hold whatever the flags; the window is followed while it is
open, and does not move once it is closed. -/
theorem recordAdvancesThePass : Obligations.RecordAdvancesThePass := by
  intro r s
  refine ⟨exec_cluster_of_none, fun hd hl => ?_⟩
  obtain ⟨iter, d, out, hf, hphase, hav, hdone, htotal⟩ := runRecord_onlyPass r (eventsDue s) s
  obtain ⟨items, ho, hs⟩ := runRecord_grows r (eventsDue_le s) s
  have hts := runRecord_ts r (eventsDue s) s
  have hit := (runRecord_iter r (eventsDue s) s (eventsDue_le s) hl).2
  refine ⟨_, items, exec_cluster hd, ?_, hts.2, hts.1, hs, hit, ?_, ?_, ?_, ?_, ?_, ?_⟩
  · rw [← ho, hf]
  · rw [hf]; exact hphase
  · rw [hf]; exact hav
  · rw [hf]; exact hdone
  · rw [hf]; exact htotal
  · intro hv hm hb hq ht
    obtain ⟨k, hk⟩ := Nat.exists_eq_succ_of_ne_zero hd
    rw [show eventsDue s - 1 = k by omega]
    exact runRecord_quiet r ⟨hl, hv, hm, hb⟩ hk hq ht
  · intro ha hc
    obtain ⟨e1, e2, e3, e4⟩ := runRecord_closed r (s := s) ⟨ha, hc⟩
    exact ⟨e1.trans ha, e2, e3, e4⟩

/-! ## The items of a record -/

/-- Settles O44. -/
theorem recordEmitsItsSamplesAndAtMostOneMarker :
    Obligations.RecordEmitsItsSamplesAndAtMostOneMarker := by
  intro r s hd hc
  obtain ⟨⟨items, ho, hf, hn, hm, hv, hk, -, hl⟩, -⟩ := runRecord_emits r (eventsDue_le s) (s := s) hc
  rw [spe_eq] at hf hl
  refine ⟨_, items, exec_cluster hd, ho, hf, ?_, hn, hm, hv, hk⟩
  have hne : samplesOf r s ≠ [] := by
    have hlen := samplesOf_length r s
    have hpos : 0 < eventsDue s * spe s := Nat.mul_pos (Nat.pos_of_ne_zero hd) (spe_pos s)
    exact List.ne_nil_of_length_pos (by omega)
  rw [hl, show recordSamples (2 ^ s.config.toNat) s.params.sampleOrder (expectedTs s) s.dec.lastSample r
    (eventsDue s) = samplesOf r s from rfl, List.getLastD_eq_getLast?, List.getLast?_eq_some_getLast hne]
  rfl

/-! ## The marker -/

/-- The trigger position is met at one event of a record at most. -/
theorem standsAt_unique {s : State} {l : Location} {e e' : Nat} (he : e < 7) (h : standsAt s l e = true)
    (hlt : e' < e) : standsAt s l e' = false := by
  cases h' : standsAt s l e' with
  | false => rfl
  | true =>
    have h1 := (of_decide_eq_true h).2
    have h2 := (of_decide_eq_true h').2
    rw [h1] at h2
    simp only [locationCount, Config.rows, Config.eventsPerRow] at h2
    omega

/-- R272 to R278: the marker of a record, before explicit sample `j`, when nothing stopped the window
before. -/
theorem runRecord_marked (r : ClusterRecord) {s : State} (h : Open s) {j : Nat}
    (hj : j < eventsDue s * spe s)
    (ht : ∀ e, e < j / spe s → standsAt s s.locs.trig e = false)
    (hq : ∀ i, i < (fillOf r s).length + j → softwareMatch r s i = false)
    (hm : if standsAt s s.locs.trig (j / spe s) then j % spe s = 0
      else softwareMatch r s ((fillOf r s).length + j) = true) :
    let t := runRecord r (eventsDue s) s
    t.dec.matched = true ∧ t.dec.armed = false ∧ t.dec.evtRemain.toNat = budgetAt s (j / spe s) ∧
      t.dec.markersOut = s.dec.markersOut + 1 ∧
      t.out.reverse = s.out.reverse ++ markedAt (samplesOf r s) ((fillOf r s).length + j) := by
  obtain ⟨hw, ho, hout, hmark⟩ := fill_quiet r h fun i hi => hq i (by omega)
  have hws := wordsOf_length r s
  rw [runRecord_eq]
  generalize stamped r (emitSamples (fillOf r s) s) = v at hw ho hout hmark
  have hrun := runEvents_marked (wordsOf r s) (u := v) (i := j) (by rw [hws]; exact eventsDue_le s) ho
    (by rw [hws, hw.spe]; exact hj)
    (fun e he => by
      rw [hw.spe] at he
      rw [hw.standsAt, hw.locs]
      exact ht e he)
    (fun i hi => by
      rw [hw.looked, hw.wordsSamples, ← softwareMatch_words]
      exact hq _ (by omega))
    (by
      rw [marks, hw.spe, hw.standsAt, hw.locs, hw.looked, hw.wordsSamples, ← softwareMatch_words]
      exact hm)
  rw [hrun, hw.wordsSamples, hw.budgetAt, hw.spe, hmark]
  refine ⟨rfl, rfl, ?_, rfl, ?_⟩
  · show (BitVec.ofNat 6 (budgetAt s (j / spe s))).toNat = _
    rw [BitVec.toNat_ofNat, Nat.mod_eq_of_lt (budgetAt_le _)]
  · rw [samplesOf_eq, markedAt_append_right, ← List.append_assoc, ← hout]
    simp [eventsOn]

/-- Settles O45: the trigger position is met at its event and at no event before. -/
theorem forcedMarkerStandsAtTheTriggerPosition : Obligations.ForcedMarkerStandsAtTheTriggerPosition := by
  intro r s e he hl hv hm hb ht hq
  have hd : e * spe s / spe s = e := Nat.mul_div_cancel e (spe_pos s)
  have hr : e * spe s % spe s = 0 := Nat.mul_mod_left e (spe s)
  rw [samplesBefore_eq] at hq ⊢
  have h := runRecord_marked r ⟨hl, hv, hm, hb⟩ (j := e * spe s)
    (Nat.mul_lt_mul_of_pos_right he (spe_pos s))
    (fun e' h' => standsAt_unique (Nat.lt_of_lt_of_le he (eventsDue_le s)) ht (by rwa [hd] at h'))
    hq (by rw [hd, ht, if_pos rfl]; exact hr)
  rw [hd] at h
  exact ⟨_, exec_cluster (by omega), h⟩

/-- Settles O46: the first match is a fill sample, which closes the window before the events, or an explicit
one. -/
theorem softwareMatchPlacesTheMarker : Obligations.SoftwareMatchPlacesTheMarker := by
  intro r s i hi hd hl hv hm hb hsw hq ht
  have ho : Open s := ⟨hl, hv, hm, hb⟩
  rw [samplesBefore_eq, Nat.zero_mul, Nat.add_zero]
  refine ⟨_, exec_cluster hd, ?_⟩
  rw [samplesOf_length] at hi
  by_cases hfill : i < (fillOf r s).length
  · obtain ⟨hc, hmat, hbud, hout, hmark, hws⟩ := fill_marked r ho hfill hq hsw
    rw [if_pos hfill, runRecord_eq]
    generalize stamped r (emitSamples (fillOf r s) s) = v at hc hmat hbud hout hmark hws
    rw [runEvents_closed _ hc]
    refine ⟨hmat, hc.1, congrArg BitVec.toNat hbud, hmark, ?_⟩
    rw [samplesOf_eq, markedAt_append_left hfill.le, ← List.append_assoc, ← hout, wordsSamples, ← hws]
    simp [eventsOn]
  · obtain ⟨j, rfl⟩ := Nat.exists_eq_add_of_le (Nat.le_of_not_lt hfill)
    have hj : j < eventsDue s * spe s := by omega
    have hdiv : j / spe s * spe s ≤ j := Nat.div_mul_le_self j (spe s)
    have htrig : ∀ e, e ≤ j / spe s → standsAt s s.locs.trig e = false := by
      intro e he
      cases hs : standsAt s s.locs.trig e with
      | false => rfl
      | true =>
        have h1 := ht e (Nat.lt_of_le_of_lt he (div_spe_lt hj)) hs
        have h2 : e * spe s ≤ j / spe s * spe s := Nat.mul_le_mul_right _ he
        rw [samplesBefore_eq] at h1
        omega
    rw [if_neg hfill, eventOf_eq]
    exact runRecord_marked r ho hj (fun e he => htrig e he.le) hq (by rw [htrig _ le_rfl]; exact hsw)

end Sys2Proof.Machine
end

section
/-! The register port (10_state.md R22 to R38, 46_system.md R304): the index map, its reads, and what a
write stores or refuses. -/

namespace Sys2Proof.Machine

/-! ## `STATUS` -/

theorem toNat_append_eq {v w : Nat} (x : BitVec v) (y : BitVec w) :
    (x ++ y).toNat = x.toNat * 2 ^ w + y.toNat := by
  rw [BitVec.toNat_append, ← Nat.shiftLeft_add_eq_or_of_lt y.isLt, Nat.shiftLeft_eq]

/-- The flags of `STATUS` above the two phases, bit 4 first. -/
def statusFlags (s : State) : List Bool :=
  [s.errs.pending, s.dec.armed, s.dec.matched, s.dec.tsValid, s.eqFlag, s.hitFlag, s.spec.useTrig,
    s.dec.armValid]

theorem getLsbD_of_toNat {n i : Nat} {v : BitVec n} {b : Bool} (h : v.toNat / 2 ^ i % 2 = b.toNat) :
    v.getLsbD i = b := by
  rw [← BitVec.testBit_toNat, Nat.testBit_eq_decide_div_mod_eq, h]
  cases b <;> rfl

/-- The flags of `STATUS` as a number, bit 4 lowest. -/
def flagsNumber (s : State) : Nat :=
  s.errs.pending.toNat + 2 * s.dec.armed.toNat + 4 * s.dec.matched.toNat + 8 * s.dec.tsValid.toNat +
    16 * s.eqFlag.toNat + 32 * s.hitFlag.toNat + 64 * s.spec.useTrig.toNat + 128 * s.dec.armValid.toNat

theorem status_toNat (s : State) :
    (status s).toNat = 16 * flagsNumber s + 4 * s.tphase.code.toNat + s.dec.phase.code.toNat := by
  simp only [status, flagsNumber, toNat_append_eq, BitVec.toNat_ofBool, BitVec.ofNat_eq_ofNat,
    BitVec.toNat_ofNat]
  omega

theorem flagsNumber_digits (s : State) : flagsNumber s < 256 ∧
    ∀ i < 8, flagsNumber s / 2 ^ i % 2 = ((statusFlags s)[i]!).toNat := by
  have hbit := Bool.toNat_lt
  have := hbit s.dec.armValid
  have := hbit s.spec.useTrig
  have := hbit s.hitFlag
  have := hbit s.eqFlag
  have := hbit s.dec.tsValid
  have := hbit s.dec.matched
  have := hbit s.dec.armed
  have := hbit s.errs.pending
  unfold flagsNumber
  refine ⟨by omega, fun i hi => ?_⟩
  match i, hi with
  | 0, _ | 1, _ | 2, _ | 3, _ | 4, _ | 5, _ | 6, _ | 7, _ =>
    simp only [statusFlags, List.getElem!_cons_zero, List.getElem!_cons_succ]
    omega

theorem status_getLsbD (s : State) {i : Nat} (hi : i < 8) :
    (status s).getLsbD (4 + i) = (statusFlags s)[i]! := by
  have hd := s.dec.phase.code.isLt
  have ht := s.tphase.code.isLt
  refine getLsbD_of_toNat ?_
  rw [← (flagsNumber_digits s).2 i hi, status_toNat, Nat.pow_add, ← Nat.div_div_eq_div_mul]
  congr 2
  omega

theorem TriggerSpec.useTrig_iff (p : TriggerSpec) :
    p.useTrig = true ↔ p.simpleMask ≠ 0 ∨ p.risingMask ≠ 0 ∨ p.fallingMask ≠ 0 := by
  rw [← Bool.not_eq_false, TriggerSpec.useTrig_eq_false_iff]
  tauto

/-- Settles O52: the phases are the two lowest digits of `STATUS` in base 4, and every flag is one of the
eight bits above them. -/
theorem statusCollectsTheFlags : Obligations.StatusCollectsTheFlags := by
  intro s
  have hs := status_toNat s
  have hflags := (flagsNumber_digits s).1
  have hd := s.dec.phase.code.isLt
  have ht := s.tphase.code.isLt
  refine ⟨rfl, ?_, ?_, status_getLsbD s (i := 0) (by omega), status_getLsbD s (i := 1) (by omega),
    status_getLsbD s (i := 2) (by omega), status_getLsbD s (i := 3) (by omega),
    status_getLsbD s (i := 4) (by omega), status_getLsbD s (i := 5) (by omega), ?_,
    status_getLsbD s (i := 7) (by omega), ?_⟩
  · have h : (status s).toNat % 4 = s.dec.phase.code.toNat := by omega
    exact h.trans (by cases s.dec.phase <;> rfl)
  · have h : (status s).toNat / 4 % 4 = s.tphase.code.toNat := by omega
    exact h.trans (by cases s.tphase <;> rfl)
  · rw [← TriggerSpec.useTrig_iff]
    exact iff_of_eq (congrArg (· = true) (status_getLsbD s (i := 6) (by omega)))
  · show (status s).toNat < 4096
    omega

/-! ## The index map -/

/-- The entry of the table of R38 is the number and the value of a register of the port. -/
def Reads (s : State) (e : Nat × Nat) : Prop :=
  ∃ r, portReg (BitVec.ofNat 8 e.1) = some r ∧ (portValue s r).toNat = e.2

theorem setWidth_word_toNat {n : Nat} (hn : n ≤ 32) (v : BitVec n) :
    (v.setWidth 32).toNat = v.toNat := BitVec.toNat_setWidth_of_le hn

theorem spe_word_toNat (s : State) : (portValue s .spe).toNat = 2 ^ s.config.toNat % 8 := by
  have hlt : spe s % 2 ^ 3 < 2 ^ 32 := by omega
  show (BitVec.setWidth 32 (BitVec.ofNat 3 (spe s))).toNat = _
  rw [setWidth_word_toNat (by omega), BitVec.toNat_ofNat, spe_eq]

theorem samplesOutLo_toNat (s : State) :
    (portValue s .samplesOutLo).toNat = s.dec.samplesOut.toNat % 2 ^ 32 := by
  show (s.dec.samplesOut.extractLsb' 0 32).toNat = _
  rw [BitVec.extractLsb'_toNat, Nat.shiftRight_zero]

theorem samplesOutHi_toNat (s : State) :
    (portValue s .samplesOutHi).toNat = s.dec.samplesOut.toNat / 2 ^ 32 := by
  have h := s.dec.samplesOut.isLt
  show (s.dec.samplesOut.extractLsb' 32 32).toNat = _
  rw [BitVec.extractLsb'_toNat, Nat.shiftRight_eq_div_pow]
  omega

theorem reads_locationTable {s : State} {lr : LocReg} {first : Nat}
    (h : ∀ f, f < 4 → portReg (BitVec.ofNat 8 (first + f)) = some (locPort lr f)) :
    ∀ e ∈ portTable.locationTable first (s.locs.get lr), Reads s e := by
  simp only [portTable.locationTable, List.forall_mem_cons]
  refine ⟨⟨_, h 0 (by omega), ?_⟩, ⟨_, h 1 (by omega), ?_⟩, ⟨_, h 2 (by omega), ?_⟩,
    ⟨_, h 3 (by omega), ?_⟩, List.forall_mem_nil _⟩
  · exact (setWidth_word_toNat (by omega) _).trans (Location.pack_toNat _)
  · exact setWidth_word_toNat (by omega) _
  · exact setWidth_word_toNat (by omega) _
  · exact setWidth_word_toNat (by omega) _

theorem portTable_reads (s : State) : ∀ e ∈ portTable s, Reads s e := by
  simp only [portTable, List.forall_mem_append]
  refine ⟨⟨⟨⟨⟨⟨?_, reads_locationTable (lr := .start) (by decide)⟩,
    reads_locationTable (lr := .stop) (by decide)⟩, reads_locationTable (lr := .trig) (by decide)⟩,
    reads_locationTable (lr := .arm) (by decide)⟩, reads_locationTable (lr := .iter) (by decide)⟩, ?_⟩
  · simp only [List.forall_mem_cons]
    refine ⟨⟨_, rfl, rfl⟩, ⟨_, rfl, ?_⟩, ⟨_, rfl, rfl⟩, ⟨_, rfl, ?_⟩, ⟨_, rfl, spe_word_toNat s⟩,
      ⟨_, rfl, ?_⟩, ⟨_, rfl, ?_⟩, ⟨_, rfl, ?_⟩, ⟨_, rfl, ?_⟩, ⟨_, rfl, ?_⟩, ⟨_, rfl, ?_⟩,
      ⟨_, rfl, ?_⟩, List.forall_mem_nil _⟩ <;>
    exact setWidth_word_toNat (by omega) _
  · simp only [List.forall_mem_cons]
    refine ⟨⟨_, rfl, ?_⟩, ⟨_, rfl, ?_⟩, ⟨_, rfl, ?_⟩, ⟨_, rfl, ?_⟩, ⟨_, rfl, ?_⟩,
      ⟨_, rfl, samplesOutLo_toNat s⟩, ⟨_, rfl, samplesOutHi_toNat s⟩, ⟨_, rfl, ?_⟩, ⟨_, rfl, rfl⟩,
      ⟨_, rfl, ?_⟩, ⟨_, rfl, ?_⟩, ⟨_, rfl, ?_⟩,
      ⟨_, rfl, ?_⟩, ⟨_, rfl, ?_⟩, ⟨_, rfl, ?_⟩, ⟨_, rfl, ?_⟩, ⟨_, rfl, ?_⟩, ⟨_, rfl, ?_⟩, ⟨_, rfl, ?_⟩,
      ⟨_, rfl, ?_⟩, ⟨_, rfl, ?_⟩, ⟨_, rfl, ?_⟩, ⟨_, rfl, ?_⟩, ⟨_, rfl, ?_⟩, ⟨_, rfl, ?_⟩, ⟨_, rfl, ?_⟩,
      ⟨_, rfl, ?_⟩, ⟨_, rfl, ?_⟩, ⟨_, rfl, ?_⟩, ⟨_, rfl, ?_⟩, ⟨_, rfl, ?_⟩, ⟨_, rfl, ?_⟩,
      List.forall_mem_nil _⟩ <;>
    exact setWidth_word_toNat (by omega) _

/-- The indices of the table, which do not depend on the values. -/
theorem portTable_keys (s : State) :
    (portTable s).map (·.1) = (portTable State.reset).map (·.1) := by
  simp only [portTable, portTable.locationTable, List.map_append, List.map_cons, List.map_nil]

theorem mem_keys_iff : ∀ index : BitVec 8,
    index.toNat ∈ (portTable State.reset).map (·.1) ↔ portReg index ≠ none := by
  decide

theorem portReg_eq_none_iff (s : State) (index : BitVec 8) :
    portReg index = none ↔ index.toNat ∉ (portTable s).map (·.1) := by
  rw [portTable_keys, mem_keys_iff, not_ne_iff]

/-- R38: the table by number and the index map with the port's values say the same. -/
theorem mem_portTable_iff (s : State) (index : BitVec 8) (v : Nat) :
    (index.toNat, v) ∈ portTable s ↔ ∃ r, portReg index = some r ∧ (portValue s r).toNat = v := by
  have hreads : ∀ {w}, (index.toNat, w) ∈ portTable s →
      ∃ r, portReg index = some r ∧ (portValue s r).toNat = w := fun hw => by
    obtain ⟨r, hr, hv⟩ := portTable_reads s _ hw
    exact ⟨r, by rwa [BitVec.ofNat_toNat, BitVec.setWidth_eq] at hr, hv⟩
  refine ⟨hreads, ?_⟩
  rintro ⟨r, hr, rfl⟩
  have hkey : index.toNat ∈ (portTable s).map (·.1) := by
    rw [portTable_keys, mem_keys_iff, hr]
    exact Option.some_ne_none r
  obtain ⟨⟨i, w⟩, hmem, rfl⟩ := List.mem_map.mp hkey
  obtain ⟨r', hr', hw⟩ := hreads hmem
  obtain rfl : r = r' := Option.some.inj (hr.symm.trans hr')
  rwa [hw]

/-- Settles O51: the table by number is the index map, so both name the register that is replied. -/
theorem portReadReturnsTheRegister : Obligations.PortReadReturnsTheRegister := by
  intro s index rest hin
  have hread : ∀ r, portReg index = some r →
      step s = .next { served s with replies := portValue s r :: s.replies } := fun r hr => by
    rw [step_portRead hin, portRead, hr]
    rfl
  refine ⟨fun v hv => ?_, hread, fun hnone he => ?_⟩
  · obtain ⟨r, hr, hw⟩ := (mem_portTable_iff s index v).mp hv
    exact ⟨portValue s r, hw, hread r hr⟩
  · have he' : (served s).errs.pending = false := he
    rw [step_portRead hin, portRead, (portReg_eq_none_iff s index).mpr hnone, raise_of_none he']
    rfl

end Sys2Proof.Machine
end

section
/-! What a register-port write stores or refuses (10_state.md R22 to R38, 46_system.md R304). -/

namespace Sys2Proof.Machine

/-! ## The column "host write" -/

/-- A machine of which only the two phases are given. -/
def inPhases (d : DPhase) (t : TPhase) : State :=
  { State.reset with dec := { State.reset.dec with phase := d }, tphase := t }

theorem portWritable_inPhases (s : State) (r : PortReg) :
    portWritable s r = portWritable (inPhases s.dec.phase s.tphase) r := by
  cases r <;> rfl

theorem any_portWritable_iff (d : DPhase) (t : TPhase) : ∀ index : BitVec 8,
    (portReg index).any (portWritable (inPhases d t)) = true ↔ hostWritable (inPhases d t) index.toNat := by
  cases d <;> cases t <;> decide

/-- R38: the conditions by number and those of the register the index names. -/
theorem hostWritable_iff (s : State) (index : BitVec 8) :
    hostWritable s index.toNat ↔ ∃ r, portReg index = some r ∧ portWritable s r = true := by
  have h := (any_portWritable_iff s.dec.phase s.tphase index).symm
  rw [Option.any_eq_true] at h
  simp only [← portWritable_inPhases] at h
  exact h

theorem portWrite_of_not_hostWritable {s : State} (he : s.errs.pending = false) {index : BitVec 8}
    (hw : ¬ hostWritable s index.toNat) (v : Word) :
    portWrite index v s = recorded 0x53 (index.setWidth 32) s := by
  rw [hostWritable_iff] at hw
  cases hr : portReg index with
  | none => exact portWrite_of_none he hr v
  | some r => exact (portWrite_of_register he hr v).trans (if_neg fun h => hw ⟨r, hr, h⟩)

/-- Settles O53: outside its condition an index names no register, or one that is not writable. -/
theorem portWriteIsRefusedOutsideItsCondition : Obligations.PortWriteIsRefusedOutsideItsCondition := by
  intro s index v rest hin he hw
  have he' : (served s).errs.pending = false := he
  rw [step_portWrite hin, portWrite_of_not_hostWritable he' hw]

/-- An accepted write, through the register that the index names. -/
theorem step_storeReg {s : State} {index : BitVec 8} {v : Word} {rest : List Input} {r : PortReg}
    (hin : s.inbox = .portWrite index v :: rest) (he : s.errs.pending = false)
    (hr : portReg index = some r) (hw : portWritable (served s) r = true) :
    step s = .next (storeReg r v (served s)) := by
  have he' : (served s).errs.pending = false := he
  rw [step_portWrite hin, portWrite_of_register he' hr, if_pos hw]

/-! ## `CONFIG` and the location registers -/

/-- Settles O55: by the check of the tier. -/
theorem configWriteChecksTheTier : Obligations.ConfigWriteChecksTheTier := by
  intro s v rest hin he hd ht
  have he' : (served s).errs.pending = false := he
  have hw : portWritable (served s) .config = true := by
    simp only [portWritable, served_dec, served_tphase, hd, ht]
    rfl
  have hstep := step_storeReg hin he (by decide) hw
  simp only [storeReg, raise_of_none he', setWidth_tier_eq_three_iff] at hstep
  refine ⟨fun h3 => by rw [hstep, if_pos h3]; rfl, fun h3 => ⟨v.setWidth 2, BitVec.toNat_setWidth .., ?_, ?_⟩⟩
  · rw [hstep, if_neg h3]
  · have htier : (v.setWidth 2).toNat = v.toNat % 4 := BitVec.toNat_setWidth ..
    rw [spe_word_toNat]
    show 2 ^ (v.setWidth 2).toNat % 8 = _
    have hlt : v.toNat % 4 < 3 := by omega
    rw [htier]
    interval_cases v.toNat % 4 <;> rfl

/-- The first index of a location register. -/
def rawIndex (lr : LocReg) : BitVec 8 := 0x10 + 4 * lr.code.setWidth 8

theorem portReg_rawIndex (lr : LocReg) : portReg (rawIndex lr) = some (.loc lr .raw) ∧
    portReg (rawIndex lr + 1) = some (.loc lr .row) ∧
    portReg (rawIndex lr + 2) = some (.loc lr .cluster) ∧
    portReg (rawIndex lr + 3) = some (.loc lr .event) := by
  cases lr <;> decide

theorem step_storeLoc {s : State} {index : BitVec 8} {v : Word} {rest : List Input} {lr : LocReg}
    {f : LocField} (hin : s.inbox = .portWrite index v :: rest) (he : s.errs.pending = false)
    (hd : s.dec.phase = .idle) (hr : portReg index = some (.loc lr f)) :
    step s = .next (storeLoc lr f v (served s)) := by
  refine step_storeReg hin he hr ?_
  simp only [portWritable, served_dec, hd]
  rfl

/-- Settles O56: by the two answers of `BreakDown`. -/
theorem rawWriteStoresTheLocation : Obligations.RawWriteStoresTheLocation := by
  intro s lr v rest hin he hd
  have he' : (served s).errs.pending = false := he
  have hraw : (reduceRaw v).toNat = v.toNat % 16777216 := reduceRaw_toNat v
  have hstep := step_storeLoc hin he hd (portReg_rawIndex lr).1
  simp only [storeLoc, raise_of_none he'] at hstep
  rw [hstep]
  rcases breakDown_cases v with ⟨h7, hb⟩ | ⟨h7, hb, -⟩
  · refine ⟨fun _ => ?_, fun h => absurd h7 h⟩
    have hinfo : (reduceRaw v).setWidth 32 = BitVec.ofNat 32 (v.toNat % 16777216) :=
      BitVec.eq_of_toNat_eq (by rw [BitVec.toNat_setWidth, hraw, BitVec.toNat_ofNat])
    simp only [hb, hinfo]
    rfl
  · refine ⟨fun h => absurd h h7, fun _ => ⟨.ofRaw (reduceRaw v), by rw [hb]; rfl, ?_, ?_⟩⟩
    · rw [Location.ofRaw_row, Location.ofRaw_cluster, Location.ofRaw_event, hraw]
      refine Prod.ext rfl (Prod.ext ?_ ?_)
      · show v.toNat % 16777216 % 512 / 8 = v.toNat % 512 / 8
        omega
      · show v.toNat % 16777216 % 8 = v.toNat % 8
        omega
    · rw [Location.pack_ofRaw, hraw]

/-- Settles O57: by the field that the index names. -/
theorem fieldWriteReplacesTheField : Obligations.FieldWriteReplacesTheField := by
  intro s lr f v rest hin he hd
  have he' : (served s).errs.pending = false := he
  obtain ⟨-, hrow, hcluster, hevent⟩ := portReg_rawIndex lr
  have hstep : ∀ {fld}, portReg (rawIndex lr + f) = some (.loc lr fld) →
      step s = .next (storeLoc lr fld v (served s)) := step_storeLoc hin he hd
  refine ⟨?_, ?_, ?_, ?_⟩
  · rintro rfl
    exact ⟨v.setWidth 15, BitVec.toNat_setWidth .., hstep hrow⟩
  · rintro rfl
    exact ⟨v.setWidth 6, BitVec.toNat_setWidth .., hstep hcluster⟩
  · rintro rfl h7
    refine ⟨v.setWidth 3, BitVec.toNat_setWidth .., (hstep hevent).trans ?_⟩
    simp only [storeLoc, setWidth_event_eq_seven_iff, if_neg h7]
    rfl
  · rintro rfl h7
    rw [hstep hevent]
    simp only [storeLoc, setWidth_event_eq_seven_iff, if_pos h7, raise_of_none he']
    rfl

/-! ## Registers without a check of the value -/

/-- The width of a register whose write stores the low bits and does nothing else. -/
def PortReg.plainWidth : PortReg → Option Nat
  | .capstat => some 2
  | .posbufLo => some 32
  | .posbufHi => some 24
  | .poslen => some 8
  | .x0 | .x1 | .simpleValue | .simpleMask | .risingMask | .fallingMask | .genValue | .genMask
  | .table .. | .glue _ | .param _ => some 16
  | _ => none

/-- The registers of the lookup-table file. -/
def PortReg.inFile : PortReg → Bool
  | .table .. | .glue _ | .param _ => true
  | _ => false

theorem all_plainWidth : ∀ index : BitVec 8, (portReg index).all (fun r =>
    plainWidth index.toNat = r.plainWidth ∧ lutIndex index.toNat = r.inFile) = true := by
  decide

theorem plainWidth_of_portReg {index : BitVec 8} {r : PortReg} (hr : portReg index = some r) :
    plainWidth index.toNat = r.plainWidth ∧ lutIndex index.toNat = r.inFile := by
  have h := all_plainWidth index
  rw [hr] at h
  exact of_decide_eq_true h

/-- The index of a register, searched in the index map. -/
def PortReg.index (r : PortReg) : Option (BitVec 8) :=
  (List.finRange 0x56).findSome? fun i =>
    if portReg (BitVec.ofNat 8 i) = some r then some (BitVec.ofNat 8 i) else none

theorem all_index : ∀ index : BitVec 8,
    (portReg index).all (fun r => r.index = some index) = true := by
  decide

/-- No register has two indices. -/
theorem portReg_inj {i j : BitVec 8} {r : PortReg} (hi : portReg i = some r) (hj : portReg j = some r) :
    i = j := by
  have h := all_index i
  have h' := all_index j
  rw [hi] at h
  rw [hj] at h'
  exact Option.some.inj ((of_decide_eq_true h).symm.trans (of_decide_eq_true h'))

/-- The low bits of a value that a write to the register stores. -/
def PortReg.lowBits (r : PortReg) (v : Word) : Word :=
  match r.plainWidth with
  | some n => (v.setWidth n).setWidth 32
  | none => 0

theorem PortReg.lowBits_toNat {r : PortReg} {n : Nat} (hr : r.plainWidth = some n) (v : Word) :
    (r.lowBits v).toNat = v.toNat % 2 ^ n := by
  have hlt : v.toNat % 2 ^ n < 2 ^ 32 := (Nat.mod_le _ _).trans_lt v.isLt
  rw [PortReg.lowBits, hr]
  show ((v.setWidth n).setWidth 32).toNat = _
  rw [BitVec.toNat_setWidth, BitVec.toNat_setWidth, Nat.mod_eq_of_lt hlt]

/-- R38: the register written reads the low bits, every other register but `STATUS` as before. -/
theorem portValue_storeReg {r : PortReg} (hr : r.plainWidth ≠ none) (v : Word) (s : State)
    {r' : PortReg} (hs : r' ≠ .status) :
    portValue (storeReg r v s) r' = if r' = r then r.lowBits v else portValue s r' := by
  cases r with
  | capstat | posbufHi | poslen | x0 | x1 | simpleValue | simpleMask | risingMask | fallingMask | genValue
  | genMask =>
    cases r' with
    | status => exact absurd rfl hs
    | _ => rfl
  | posbufLo =>
    cases r' with
    | status => exact absurd rfl hs
    | posbufLo => exact (BitVec.setWidth_eq v).symm
    | _ => rfl
  | table sel q =>
    cases r' with
    | status => exact absurd rfl hs
    | table sel' q' =>
      simp only [portValue, storeReg, storeLut_lut, lutFile_table_setTable, PortReg.table.injEq]
      by_cases hsel : sel' = sel
      · subst hsel
        by_cases hq : q' = q
        · simp [hq, PortReg.lowBits, PortReg.plainWidth]
        · simp [hq]
      · simp [hsel]
    | glue g => simp [portValue, storeReg]
    | param i => simp [portValue, storeReg]
    | _ => rfl
  | glue g =>
    cases r' with
    | status => exact absurd rfl hs
    | table sel q => simp [portValue, storeReg]
    | glue g' =>
      by_cases hg : g' = g
      · simp [portValue, storeReg, hg, PortReg.lowBits, PortReg.plainWidth]
      · simp [portValue, storeReg, hg]
    | param i => simp [portValue, storeReg]
    | _ => rfl
  | param i =>
    cases r' with
    | status => exact absurd rfl hs
    | table sel q => simp [portValue, storeReg]
    | glue g => simp [portValue, storeReg]
    | param i' =>
      by_cases hi : i' = i
      · simp [portValue, storeReg, hi, PortReg.lowBits, PortReg.plainWidth]
      · simp [portValue, storeReg, hi]
    | _ => rfl
  | _ => exact absurd rfl hr

/-- What no write of a plain register changes. -/
theorem storeReg_frame {r : PortReg} (hr : r.plainWidth ≠ none) (v : Word) (s : State) :
    (storeReg r v s).toEnvironment = s.toEnvironment ∧ (storeReg r v s).dec = s.dec ∧
      (storeReg r v s).errs = s.errs ∧ (storeReg r v s).eqFlag = s.eqFlag ∧
      (storeReg r v s).hitFlag = s.hitFlag := by
  cases r with
  | config | loc => exact absurd rfl hr
  | _ => exact ⟨rfl, rfl, rfl, rfl, rfl⟩

/-- R36: a write to a member of the lookup-table file ends the phase `EMPTY`. -/
theorem storeReg_tphase {r : PortReg} (hr : r.plainWidth ≠ none) (v : Word) {s : State}
    (hw : portWritable s r = true) :
    (storeReg r v s).tphase = if r.inFile then .compiled else s.tphase := by
  cases r with
  | config | loc => exact absurd rfl hr
  | table | glue | param =>
    rw [storeReg, storeLut_of_not_sent (bne_iff_ne.mp hw)]
    rfl
  | _ => rfl

theorem lt_of_mem_portTable {s : State} {i w : Nat} (h : (i, w) ∈ portTable s) : i < 256 := by
  have hkeys : ∀ k ∈ (portTable State.reset).map (·.1), k < 256 := by decide
  have hkey := List.mem_map_of_mem (f := (·.1)) h
  rw [portTable_keys] at hkey
  exact hkeys i hkey

/-- R38: every index but the one written and that of `STATUS` reads as before. -/
theorem mem_portTable_storeReg {index : BitVec 8} {r : PortReg} (hr : portReg index = some r)
    (hplain : r.plainWidth ≠ none) (v : Word) (s : State) {i w : Nat} (hi : i ≠ index.toNat)
    (h0 : i ≠ 0x00) : (i, w) ∈ portTable (storeReg r v s) ↔ (i, w) ∈ portTable s := by
  by_cases hlt : i < 256
  · obtain ⟨j, rfl⟩ : ∃ j : BitVec 8, j.toNat = i := ⟨BitVec.ofNat 8 i, by simp [Nat.mod_eq_of_lt hlt]⟩
    rw [mem_portTable_iff, mem_portTable_iff]
    refine exists_congr fun r' => and_congr_right fun hj => ?_
    have hne : r' ≠ r := by
      rintro rfl
      exact hi (congrArg BitVec.toNat (portReg_inj hj hr))
    have hstatus : r' ≠ .status := by
      rintro rfl
      exact h0 (congrArg BitVec.toNat (portReg_inj hj (j := 0) rfl))
    rw [portValue_storeReg hplain v _ hstatus, if_neg hne]
  · exact iff_of_false (fun h => hlt (lt_of_mem_portTable h)) fun h => hlt (lt_of_mem_portTable h)

/-- Settles O54: of the registers of the port the write changes the one that the index names. -/
theorem portWriteStoresTheLowBits : Obligations.PortWriteStoresTheLowBits := by
  intro s index v rest n hin he hw hn
  obtain ⟨r, hr, hwr⟩ := (hostWritable_iff s index).mp hw
  obtain ⟨hwidth, hfile⟩ := plainWidth_of_portReg hr
  have hn' : r.plainWidth = some n := hwidth.symm.trans hn
  have hplain : r.plainWidth ≠ none := hn' ▸ Option.some_ne_none n
  have hstatus : r ≠ .status := fun h => hplain (h ▸ rfl)
  have hws : portWritable (served s) r = true := by rwa [portWritable_inPhases] at hwr ⊢
  obtain ⟨henv, hdec, herrs, heq, hhit⟩ := storeReg_frame hplain v (served s)
  refine ⟨storeReg r v (served s), step_storeReg hin he hr hws, ?_, fun i w hi h0 =>
    mem_portTable_storeReg hr hplain v (served s) hi h0, henv, hdec, herrs, heq, hhit, ?_⟩
  · refine (mem_portTable_iff _ _ _).mpr ⟨r, hr, ?_⟩
    rw [portValue_storeReg hplain v _ hstatus, if_pos rfl, PortReg.lowBits_toNat hn']
  · rw [hfile]
    exact storeReg_tphase hplain v hws

end Sys2Proof.Machine
end

section
/-! The sample memory as the decoder reads it (20_memory.md R60 to R69, 30_encoding.md R100). -/

namespace Sys2Proof.Machine

/-- Settles O58: a capture of one byte inside the memory is one write. -/
theorem captureStoresOneByte : Obligations.CaptureStoresOneByte := by
  intro s a b rest hm ha hin
  have hstep : step s = .next { served s with mem := s.mem.write a b } := by
    rw [step_capture hin]
    rcases captureCells_cases [(a, b)] (served s) with ⟨c, hc, hle, -⟩ | ⟨-, h⟩
    · obtain rfl := List.mem_singleton.mp hc
      exact absurd hle (Nat.not_le.mpr ha)
    · exact h
  refine ⟨s.mem.write a b, hstep, Memory.wf_write hm ha b, ?_, fun a' hne => ?_⟩
  · rw [Memory.read_write hm.1, if_pos rfl]
  · rw [Memory.read_write hm.1, if_neg hne]

/-! ## Records in a row buffer -/

theorem getD_take_drop (bs : List Byte) {k n i : Nat} (hi : i < n) :
    ((bs.drop k).take n).getD i 0 = bs.getD (k + i) 0 := by
  simp [List.getD_eq_getElem?_getD, hi]

/-- R62, R138: a byte of a record in the buffer of its row. -/
theorem record_getD (m : Memory) (row : BitVec 15) {c i : Nat} (hc : c < 64) (hi : i < 16) :
    (((m.row row).drop (16 * c)).take 16).getD i 0 = m.read (row.toNat * 1024 + 16 * c + i) := by
  rw [getD_take_drop _ hi]
  show (m.bytes (row.toNat * 1024) 1024).getD (16 * c + i) 0 = _
  rw [Memory.getD_bytes _ _ _ _ (by omega), Nat.add_assoc]

theorem words_decodeRecordBytes (bs : List Byte) {e : Nat} (he : e < 7) :
    (decodeRecordBytes bs).words[e]? = some (leHalf bs (2 + 2 * e)) := by
  match e, he with
  | 0, _ | 1, _ | 2, _ | 3, _ | 4, _ | 5, _ | 6, _ => rfl

theorem sampleWord_big_append (hi lo : Byte) : sampleWord .big (hi ++ lo) = lo ++ hi := by
  have hlow : (hi ++ lo).extractLsb' 0 8 = lo := BitVec.extractLsb'_append_eq_right
  have hhigh : (hi ++ lo).extractLsb' 8 8 = hi := BitVec.extractLsb'_append_eq_left
  rw [sampleWord, hlow, hhigh]

/-- Settles O60: `TsAddr` and `WordAddr` are where the record's bytes stand in the row buffer. -/
theorem recordWordsComeFromTheirAddresses : Obligations.RecordWordsComeFromTheirAddresses := by
  intro m l hl
  have he : l.event.toNat < 7 := (Location.legal_iff l).mp hl
  have hc : l.cluster.toNat < 64 := l.cluster.isLt
  have hhalf : ∀ i, i + 1 < 16 → leHalf (((m.row l.row).drop (16 * l.cluster.toNat)).take 16) i =
      m.read (l.tsAddr + i + 1) ++ m.read (l.tsAddr + i) := fun i hi => by
    have haddr : l.tsAddr = l.row.toNat * 1024 + 16 * l.cluster.toNat := by
      simp only [Location.tsAddr, Config.rowBytes, Config.clusterBytes, Nat.mul_comm]
    rw [leHalf, record_getD m l.row hc hi, record_getD m l.row hc (Nat.lt_of_succ_lt hi), haddr,
      Nat.add_assoc _ i 1]
  have hword : (recordAt (m.row l.row) l.cluster.toNat).words[l.event.toNat]? =
      some (m.read (l.wordAddr + 1) ++ m.read l.wordAddr) := by
    have haddr : l.wordAddr = l.tsAddr + (2 + 2 * l.event.toNat) := by
      simp only [Location.wordAddr, Location.tsAddr]
      omega
    rw [haddr, ← hhalf _ (by omega)]
    exact words_decodeRecordBytes _ he
  have hgetD : (recordAt (m.row l.row) l.cluster.toNat).words.getD l.event.toNat 0 =
      m.read (l.wordAddr + 1) ++ m.read l.wordAddr := by
    rw [List.getD_eq_getElem?_getD, hword]
    rfl
  have hts := hhalf 0 (by omega)
  rw [Nat.add_zero l.tsAddr] at hts
  refine ⟨hts, hword, ?_, ?_⟩
  · exact (recordWord_eq_sampleWord .little _ he).trans hgetD
  · rw [recordWord_eq_sampleWord _ _ he, hgetD, sampleWord_big_append]

/-! ## Reading a row -/

theorem readRow_of_memory {s : State} {rest : List MemAnswer} (h : s.answers = .memory :: rest)
    (row : BitVec 15) : readRow row s = (some (s.mem.row row), { s with answers := rest }) := by
  simp only [readRow, h]

theorem readRow_of_supplied {s : State} {buf : List Byte} {rest : List MemAnswer}
    (h : s.answers = .supplied buf :: rest) (row : BitVec 15) :
    readRow row s = (some buf, { s with answers := rest }) := by
  simp only [readRow, h]

theorem readRow_of_ioError {s : State} {rest : List MemAnswer} (h : s.answers = .ioError :: rest)
    (row : BitVec 15) : readRow row s = (none, { s with answers := rest }) := by
  simp only [readRow, h]

/-- R240: one more row of a DEC.STEP, by what its read answers. -/
theorem decodeRows_succ {n : Nat} {s t : State} {buf : List Byte} (hn : s.dec.linesDone ≠ s.dec.linesTotal)
    (hr : readRow (currentRow s) s = (some buf, t)) :
    decodeRows (n + 1) s = decodeRows n (rowDone (decodeRow buf (rowEvents t) t)) := by
  rw [decodeRows, if_neg hn, hr]

theorem decodeRows_of_failed {n : Nat} {s t : State} (hn : s.dec.linesDone ≠ s.dec.linesTotal)
    (hr : readRow (currentRow s) s = (none, t)) :
    decodeRows (n + 1) s = raise .ioMemRead ((currentRow s).setWidth 32) t := by
  rw [decodeRows, if_neg hn, hr]

/-- R240: with no row left a DEC.STEP only ends. -/
theorem decodeRows_of_done {n : Nat} {s : State} (h : s.dec.linesDone = s.dec.linesTotal) :
    decodeRows n s = finishPass s := by
  cases n with
  | zero => rfl
  | succ n => rw [decodeRows, if_pos h]

theorem exec_decStep {s : State} (he : s.errs.pending = false) (hp : s.dec.phase = .ready) :
    exec .decStep s = .next (decodeRows s.params.fetchChunkRows s) := by
  have ha : allowed .decStep s = true := beq_iff_eq.mpr hp
  exact exec_effect he (refusal_of_allowed ha)

/-- Settles O48: the first row of the chunk is read, and the read fails. -/
theorem decStepRecordsAFailedRead : Obligations.DecStepRecordsAFailedRead := by
  intro s rest he hp hc hans hn
  obtain ⟨n, hchunk⟩ := Nat.exists_eq_add_one_of_ne_zero (Nat.one_le_iff_ne_zero.mp hc)
  have he' : ({ s with answers := rest } : State).errs.pending = false := he
  have hrow : (currentRow s).setWidth 32 =
      BitVec.ofNat 32 ((s.locs.start.row.toNat + s.dec.linesDone.toNat) % 32768) := by
    apply BitVec.eq_of_toNat_eq
    simp only [currentRow, BitVec.toNat_setWidth, BitVec.toNat_add, BitVec.toNat_ofNat, Nat.reducePow]
    omega
  rw [exec_decStep he hp, hchunk, decodeRows_of_failed hn (readRow_of_ioError hans _),
    raise_of_none he', hrow]
  rfl

/-! ## The record that the fetch interface places -/

/-- Bytes stored one after the other from an address on read back, the others stay. -/
theorem read_writeCells_zip (bs : List Byte) {m : Memory} (hm : m.Pairwise (fun c d => c.1 < d.1))
    (k a : Nat) : (m.writeCells ((List.range' k bs.length).zip bs)).read a =
      if k ≤ a ∧ a < k + bs.length then bs.getD (a - k) 0 else m.read a := by
  induction bs generalizing m k with
  | nil => exact (if_neg (by simp)).symm
  | cons b rest ih =>
    have hw := ih (Memory.pairwise_write hm k b) (k + 1)
    refine hw.trans ?_
    rw [Memory.read_write hm, List.length_cons]
    rcases Nat.lt_trichotomy a k with hlt | rfl | hlt
    · rw [if_neg (by omega), if_neg (by omega), if_neg (by omega)]
    · rw [if_neg (by omega), if_pos rfl, if_pos (by omega), Nat.sub_self, List.getD_cons_zero]
    · obtain ⟨i, rfl⟩ := Nat.exists_eq_add_of_lt hlt
      have hi : k + i + 1 - (k + 1) = i := by omega
      have hi' : k + i + 1 - k = i + 1 := by omega
      rw [hi, hi', List.getD_cons_succ, if_neg (show k + i + 1 ≠ k by omega)]
      exact if_congr (by omega) rfl rfl

theorem decodeRecordBytes_congr {bs bs' : List Byte} (h : ∀ i < 16, bs.getD i 0 = bs'.getD i 0) :
    decodeRecordBytes bs = decodeRecordBytes bs' := by
  have hhalf : ∀ i, i + 1 < 16 → leHalf bs i = leHalf bs' i := fun i hi => by
    rw [leHalf, leHalf, h _ hi, h _ (Nat.lt_of_succ_lt hi)]
  simp only [decodeRecordBytes, hhalf 0 (by omega), hhalf 2 (by omega), hhalf 4 (by omega),
    hhalf 6 (by omega), hhalf 8 (by omega), hhalf 10 (by omega), hhalf 12 (by omega), hhalf 14 (by omega)]

/-- The memory of a placed record (log 9). -/
def placedMemory (r : ClusterRecord) : Memory :=
  Memory.writeCells [] ((List.range 16).zip (bytesOfRecord (recordBits r)))

/-- The record placed at the start of the memory is the first of row 0. -/
theorem recordAt_placed (r : ClusterRecord) : recordAt ((placedMemory r).row 0) 0 = r := by
  have hlen : (bytesOfRecord (recordBits r)).length = 16 := rfl
  have hbytes : ∀ i < 16, ((((placedMemory r).row 0).drop (16 * 0)).take 16).getD i 0 =
      (bytesOfRecord (recordBits r)).getD i 0 := fun i hi => by
    have h := read_writeCells_zip (bytesOfRecord (recordBits r)) List.Pairwise.nil 0 i
    rw [hlen, ← List.range_eq_range', if_pos (by omega)] at h
    rw [record_getD _ _ (by omega) hi]
    simpa [placedMemory] using h
  exact (decodeRecordBytes_congr hbytes).trans (decodeRecordBytes_recordBits r)

/-! ## One record on a machine that has been reset -/

/-- The machine after reset with a record placed, its DEC.STEP served (log 9). -/
def placedMachine (r : ClusterRecord) : State := served (placeRecord (recordBits r) State.reset)

theorem placeRecord_mem (b : BitVec 128) (s : State) :
    (placeRecord b s).mem = s.mem.writeCells ((List.range 16).zip (bytesOfRecord b)) := by
  simp only [placeRecord]

theorem placedMachine_mem (r : ClusterRecord) : (placedMachine r).mem = placedMemory r := by
  have hempty : State.reset.mem = [] := rfl
  rw [placedMachine, served_mem, placeRecord_mem, hempty, placedMemory]

/-- That machine when its row has been read. -/
def placedRead (r : ClusterRecord) : State := { placedMachine r with answers := [] }

/-- R235: the placed pass is one row of seven events. -/
theorem rowEvents_placedRead (r : ClusterRecord) : rowEvents (placedRead r) = 7 := by
  have hw : (0 : BitVec 2).getLsbD 0 = false := rfl
  rw [rowEvents_eq]
  exact if_pos ⟨hw, rfl⟩

theorem eventsDue_placedRead (r : ClusterRecord) : eventsDue (placedRead r) = 7 := by
  rw [eventsDue, rowEvents_placedRead]
  rfl

/-- R241: a row of one cluster. -/
theorem decodeRow_seven (buf : List Byte) (s : State) : decodeRow buf 7 s = runRecord (recordAt buf 0) 7 s := rfl

theorem deint_one (w : Half) : deint 1 w 0 = w := by
  apply BitVec.eq_of_getLsbD_eq
  intro i hi
  rw [deint_getLsbD _ _ _ _ hi]
  simp [hi]

/-- One sample per event, in little-endian order: the stored word. -/
theorem wordsSamples_of_little {u : State} (hs : spe u = 1) (ho : u.params.sampleOrder = .little)
    (ws : List Half) : ws.flatMap (wordSamples u) = ws := by
  have hone : wordSamples u = fun w => [w] := funext fun w => by
    rw [wordSamples, hs, ho, subSamples]
    exact congrArg (fun v => [v]) (deint_one w)
  rw [hone, List.flatMap_singleton']

/-- With no gap, no trigger and one sample per event a record puts its seven words on the stream. -/
theorem runRecord_placedRead (r : ClusterRecord) : runRecord r 7 (placedRead r) =
    eventsOn (stamped r (placedRead r)) 7 r.words (r.words.map .sample) false false 0 0 := by
  have hgap : recordGap r (placedRead r) = 0 := by
    show (r.ts - r.ts).toNat = 0
    rw [BitVec.sub_self]
    rfl
  have hwords : wordsOf r (placedRead r) = r.words := by
    rw [wordsOf, eventsDue_placedRead]
    rfl
  have hclosed : Closed (stamped r (placedRead r)) := ⟨rfl, .inl rfl⟩
  have h := runRecord_eq r (placedRead r)
  rw [eventsDue_placedRead, fillOf, hgap, Nat.zero_mul, hwords] at h
  refine (h.trans (runEvents_closed _ hclosed)).trans ?_
  rw [wordsSamples_of_little rfl rfl]
  rfl

theorem eventsOn_iter (u : State) (k : Nat) (vs : List Half) (items : List OutItem) (a m : Bool)
    (R : BitVec 6) (c : BitVec 2) :
    (eventsOn u k vs items a m R c).locs.iter = Location.inc^[k] u.locs.iter := rfl

/-- What the placed DEC.STEP leaves: one row, and with it the pass, is done. -/
def placedDone (r : ClusterRecord) : State :=
  let t := rowDone (eventsOn (stamped r (placedRead r)) 7 r.words (r.words.map .sample) false false 0 0)
  { t with dec := { t.dec with phase := .done } }

theorem readRow_placedMachine (r : ClusterRecord) :
    readRow (currentRow (placedMachine r)) (placedMachine r) =
      (some ((placedMemory r).row 0), placedRead r) := by
  have hrow : currentRow (placedMachine r) = 0 := rfl
  rw [readRow_of_memory (s := placedMachine r) rfl, hrow]
  exact congrArg (fun m : Memory => (some (m.row 0), placedRead r)) (placedMachine_mem r)

theorem decodeRows_placedMachine (r : ClusterRecord) :
    decodeRows 32 (placedMachine r) = placedDone r := by
  have hmore : (placedMachine r).dec.linesDone ≠ (placedMachine r).dec.linesTotal := by
    show (0 : BitVec 16) ≠ 1
    decide
  have hrow : decodeRow ((placedMemory r).row 0) (rowEvents (placedRead r)) (placedRead r) =
      eventsOn (stamped r (placedRead r)) 7 r.words (r.words.map .sample) false false 0 0 := by
    rw [rowEvents_placedRead, decodeRow_seven, recordAt_placed, runRecord_placedRead]
  rw [decodeRows_succ (n := 31) hmore (readRow_placedMachine r), hrow, decodeRows_of_done rfl]
  exact if_pos rfl

/-- Settles O6: the fetch interface places the record, the step reads it back and puts it on the stream. -/
theorem stepRunsThePlacedRecord : Obligations.StepRunsThePlacedRecord := by
  intro r n hn
  have hbits : BitVec.ofNat 128 (n % 2 ^ 128) = recordBits r := by
    refine Eq.trans (BitVec.eq_of_toNat_eq ?_) (Image.record.inj hn).symm
    rw [BitVec.toNat_ofNat, BitVec.toNat_ofNat, Nat.mod_mod]
  have hplace : State.reset.withFetchWord 128 n = placeRecord (recordBits r) State.reset := by
    rw [State.withFetchWord, imageOfTable, if_neg (by decide), hbits]
  have hdecode : decodeCommand (commandWord .decStep) = .ok .decStep := decodeCommand_commandWord rfl rfl
  have hstep : step (placeRecord (recordBits r) State.reset) = .next (placedDone r) := by
    rw [step_command rfl hdecode, ← decodeRows_placedMachine]
    exact exec_effect rfl (refusal_of_allowed rfl)
  have hseven : Location.inc^[7] .zero = ⟨0, 1, 0⟩ := by decide
  have hcursor : (placedDone r).locs.iter = ⟨0, 1, 0⟩ := 
    (eventsOn_iter _ 7 r.words (r.words.map .sample) false false 0 0).trans hseven
  refine ⟨placedDone r, hplace ▸ hstep, ?_, rfl, hcursor, rfl, rfl⟩
  show ((r.words.map OutItem.sample).reverse ++ []).reverse = _
  rw [List.append_nil, List.reverse_reverse]

end Sys2Proof.Machine
end

section
/-! DEC.STEP over whole rows (44_decoder.md R240, R241, R249, R250): the records of a row in order, chunks
of any size, and the count of a completed pass. -/

namespace Sys2Proof.Machine

/-! ## The records of a row -/

/-- The records from cluster `c` on, of which `n` events are left. -/
def clusterRecords (buf : List Byte) (c n : Nat) : List (ClusterRecord × Nat) :=
  (List.range ((n + 6) / 7)).map fun i => (recordAt buf (c + i), min 7 (n - 7 * i))

theorem rowRecords_eq (buf : List Byte) (n : Nat) : rowRecords buf n = clusterRecords buf 0 n := by
  simp only [rowRecords, clusterRecords, Nat.zero_add]

theorem clusterRecords_zero (buf : List Byte) (c : Nat) : clusterRecords buf c 0 = [] := rfl

theorem clusterRecords_of_pos (buf : List Byte) (c : Nat) {n : Nat} (hn : n ≠ 0) :
    clusterRecords buf c n =
      (recordAt buf c, min 7 n) :: clusterRecords buf (c + 1) (n - min 7 n) := by
  have hcount : (n + 6) / 7 = (n - min 7 n + 6) / 7 + 1 := by omega
  rw [clusterRecords, hcount, List.range_succ_eq_map, List.map_cons, List.map_map]
  refine congrArg₂ List.cons rfl (List.map_congr_left fun i hi => ?_)
  have hi' := List.mem_range.mp hi
  have hc : c + (i + 1) = c + 1 + i := by omega
  have hm : min 7 (n - 7 * (i + 1)) = min 7 (n - min 7 n - 7 * i) := by omega
  show (recordAt buf (c + (i + 1)), min 7 (n - 7 * (i + 1))) = _
  rw [hc, hm]

theorem decodeClusters_of_pos (buf : List Byte) (fuel c : Nat) {n : Nat} (hn : n ≠ 0) (s : State) :
    decodeClusters buf (fuel + 1) c n s =
      decodeClusters buf fuel (c + 1) (n - min 7 n) (runRecord (recordAt buf c) (min 7 n) s) :=
  if_neg hn

theorem decodeClusters_zero (buf : List Byte) (fuel c : Nat) (s : State) :
    decodeClusters buf fuel c 0 s = s := by
  cases fuel with
  | zero => rfl
  | succ fuel => exact if_pos rfl

/-- No row has more than 448 events. -/
theorem rowEvents_le_row (s : State) : rowEvents s ≤ 448 := by
  have hc := s.locs.stop.cluster.isLt
  have he := s.locs.stop.event.isLt
  rw [rowEvents_eq, evIndex_eq]
  split <;> omega

theorem OnlyPass.rowEvents {s t : State} (h : OnlyPass s t) : rowEvents t = rowEvents s := by
  obtain ⟨iter, d, out, rfl, -, -, hdone, htotal⟩ := h
  simp only [rowEvents_eq, hdone, htotal]
  rfl

/-- R235: the event number of the start of a cluster. -/
theorem cluster_position (row : BitVec 15) {c : Nat} (hc : c < 64) :
    (⟨row, BitVec.ofNat 6 c, 0⟩ : Location).position = row.toNat * 448 + c * 7 := by
  have hmod : c % 2 ^ 6 = c := Nat.mod_eq_of_lt hc
  rw [Location.position_eq, BitVec.toNat_ofNat, hmod]
  exact Nat.add_zero _

theorem cluster_legal (row : BitVec 15) (c : BitVec 6) : (⟨row, c, 0⟩ : Location).legal := by
  show (0 : BitVec 3) ≠ 7
  decide

/-- A full cluster leads to the start of the next one in its row. -/
theorem runRecord_next_cluster (r : ClusterRecord) {s : State} {row : BitVec 15} {c : Nat}
    (hi : s.locs.iter = ⟨row, BitVec.ofNat 6 c, 0⟩) (hc : c + 1 < 64) :
    (runRecord r 7 s).locs.iter = ⟨row, BitVec.ofNat 6 (c + 1), 0⟩ := by
  have hrow := row.isLt
  obtain ⟨hl, hp⟩ := runRecord_iter r 7 s (Nat.le_refl 7) (by rw [hi]; exact cluster_legal _ _)
  refine Location.position_inj hl (cluster_legal _ _) (hp.trans ?_)
  rw [hi, cluster_position row (Nat.lt_of_succ_lt hc), cluster_position row hc]
  simp only [locationCount, Config.rows, Config.eventsPerRow]
  omega

/-- R241: the loop of a row executes its records as instructions, for the cursor says how many events are
due to each (log 8). -/
theorem execRecords_clusterRecords (buf : List Byte) (row : BitVec 15) (fuel c n : Nat) (s : State)
    (hn : n = rowEvents s - 7 * c) (hfuel : n ≤ 7 * fuel)
    (hi : n ≠ 0 → s.locs.iter = ⟨row, BitVec.ofNat 6 c, 0⟩) :
    execRecords ((clusterRecords buf c n).map (·.1)) s = .next (decodeClusters buf fuel c n s) := by
  induction fuel generalizing c n s with
  | zero =>
    obtain rfl : n = 0 := by omega
    rfl
  | succ fuel ih =>
    by_cases h0 : n = 0
    · subst h0
      rw [clusterRecords_zero, decodeClusters_zero]
      rfl
    · have hle := rowEvents_le_row s
      have hmod : c % 2 ^ 6 = c := Nat.mod_eq_of_lt (by omega)
      have hdue : eventsDue s = min 7 n := by
        rw [eventsDue, hi h0, hn, BitVec.toNat_ofNat, hmod]
        rfl
      have hframe := runRecord_onlyPass (recordAt buf c) (min 7 n) s
      rw [clusterRecords_of_pos buf c h0, decodeClusters_of_pos buf fuel c h0, List.map_cons, execRecords,
        exec_cluster (by omega), hdue]
      refine ih (c + 1) _ _ ?_ (by omega) fun h7 => ?_
      · rw [hframe.rowEvents]
        omega
      · rw [Nat.min_eq_left (show 7 ≤ n by omega)]
        exact runRecord_next_cluster _ (hi h0) (by omega)

/-- R240: the end of a DEC.STEP of one row. -/
theorem finishPass_rowDone {s u : State} (h : OnlyPass s u) (hp : s.dec.phase = .ready) :
    finishPass (rowDone u) = { u with dec := { u.dec with
      linesDone := s.dec.linesDone + 1
      phase := if s.dec.linesDone + 1 = s.dec.linesTotal then .done else .ready } } := by
  obtain ⟨iter, d, out, hu, hphase, -, hdone, htotal⟩ := h
  have hd : u.dec = d := by rw [hu]
  rw [← hd] at hphase hdone htotal
  rw [← hdone, ← htotal]
  by_cases hlast : u.dec.linesDone + 1 = u.dec.linesTotal
  · rw [if_pos hlast]
    exact if_pos hlast
  · rw [if_neg hlast, ← hp, ← hphase]
    exact if_neg hlast

/-- Settles O47: the read answers the row, and decoding it is executing its records. -/
theorem decStepRunsTheRecordsOfARow : Obligations.DecStepRunsTheRecordsOfARow := by
  intro s buf rest he hp hc hn hi hans
  have hread : readRow (currentRow s) s = (some buf, { s with answers := rest }) := by
    rcases hans with ⟨hans, rfl, rfl⟩ | ⟨hans, rfl⟩ | hans
    · rw [readRow_memory hans, ← hans]
    · exact readRow_of_memory hans _
    · exact readRow_of_supplied hans _
  refine ⟨decodeRow buf (rowEvents s) { s with answers := rest }, ?_, ?_⟩
  · rw [rowRecords_eq]
    exact execRecords_clusterRecords buf (currentRow s) 64 0 _ _ rfl (rowEvents_le_row s) fun _ => hi
  · have hevents : rowEvents { s with answers := rest } = rowEvents s := rfl
    have hend := finishPass_rowDone (decodeRow_onlyPass buf (rowEvents s) { s with answers := rest }) hp
    rw [exec_decStep he hp, hc, decodeRows_succ hn hread, decodeRows, hevents, hend]

end Sys2Proof.Machine
end

section
/-! The chunk size does not show (44_decoder.md R250). -/

namespace Sys2Proof.Machine

/-! ## What DEC.STEP does with a row does not read the chunk size -/

theorem placeMarker_withChunk (n : Nat) (s : State) :
    placeMarker (withChunk n s) = withChunk n (placeMarker s) := rfl

theorem budgetStep_withChunk (n : Nat) (s : State) :
    budgetStep (withChunk n s) = withChunk n (budgetStep s) := by
  rw [budgetStep, budgetStep, apply_ite (withChunk n)]
  rfl

theorem armStep_withChunk (n : Nat) (s : State) : armStep (withChunk n s) = withChunk n (armStep s) := by
  rw [armStep, armStep, apply_ite (withChunk n)]
  rfl

theorem forceStep_withChunk (n : Nat) (s : State) :
    forceStep (withChunk n s) = withChunk n (forceStep s) :=
  (apply_ite (withChunk n) _ (placeMarker s) s).symm

theorem locationCheck_withChunk (n : Nat) (s : State) :
    locationCheck (withChunk n s) = withChunk n (locationCheck s) := by
  rw [locationCheck, budgetStep_withChunk, armStep_withChunk, forceStep_withChunk]
  exact (apply_ite (withChunk n) _ (forceStep (armStep (budgetStep s))) s).symm

theorem softwareCheck_withChunk (v : Half) (n : Nat) (s : State) :
    softwareCheck v (withChunk n s) = withChunk n (softwareCheck v s) :=
  (apply_ite (withChunk n) _ (placeMarker s) s).symm

theorem emitSample_withChunk (v : Half) (n : Nat) (s : State) :
    emitSample v (withChunk n s) = withChunk n (emitSample v s) := by
  rw [emitSample, softwareCheck_withChunk]
  rfl

theorem emitFill_withChunk (k n : Nat) (s : State) :
    emitFill k (withChunk n s) = withChunk n (emitFill k s) := by
  induction k generalizing s with
  | zero => rfl
  | succ k ih =>
    rw [emitFill, emitSample_withChunk, ih]
    rfl

theorem emitSamples_withChunk (vs : List Half) (n : Nat) (s : State) :
    emitSamples vs (withChunk n s) = withChunk n (emitSamples vs s) := by
  induction vs generalizing s with
  | nil => rfl
  | cons v rest ih => rw [emitSamples, emitSample_withChunk, ih, emitSamples]

theorem runEvent_withChunk (w : Half) (n : Nat) (s : State) :
    runEvent w (withChunk n s) = withChunk n (runEvent w s) := by
  rw [runEvent, locationCheck_withChunk, emitSamples_withChunk]
  rfl

theorem runEvents_withChunk (ws : List Half) (n : Nat) (s : State) :
    runEvents ws (withChunk n s) = withChunk n (runEvents ws s) := by
  induction ws generalizing s with
  | nil => rfl
  | cons w rest ih => rw [runEvents, runEvent_withChunk, ih, runEvents]

theorem expectTs_withChunk (ts : Half) (n : Nat) (s : State) :
    expectTs ts (withChunk n s) = withChunk n (expectTs ts s) := by
  rw [expectTs, expectTs, apply_ite (withChunk n)]
  rfl

theorem runRecord_withChunk (r : ClusterRecord) (m n : Nat) (s : State) :
    runRecord r m (withChunk n s) = withChunk n (runRecord r m s) := by
  rw [runRecord, expectTs_withChunk, emitFill_withChunk]
  have hevents := fun u : State => runEvents_withChunk (r.words.take m) n
    { u with dec := { u.dec with lastTs := r.ts + BitVec.ofNat 16 Config.eventsPerCluster } }
  exact hevents (emitFill (gapOf r.ts (expectTs r.ts s) * spe (expectTs r.ts s)) (expectTs r.ts s))

theorem decodeClusters_withChunk (buf : List Byte) (fuel c nEv n : Nat) (s : State) :
    decodeClusters buf fuel c nEv (withChunk n s) = withChunk n (decodeClusters buf fuel c nEv s) := by
  induction fuel generalizing c nEv s with
  | zero => rfl
  | succ fuel ih =>
    rw [decodeClusters, runRecord_withChunk, ih]
    exact (apply_ite (withChunk n) _ _ _).symm

theorem rowDone_withChunk (buf : List Byte) (n : Nat) (s : State) :
    rowDone (decodeRow buf (rowEvents (withChunk n s)) (withChunk n s)) =
      withChunk n (rowDone (decodeRow buf (rowEvents s) s)) :=
  congrArg rowDone (decodeClusters_withChunk buf 64 0 (rowEvents s) n s)

theorem finishPass_withChunk (n : Nat) (s : State) :
    finishPass (withChunk n s) = withChunk n (finishPass s) := by
  rw [finishPass, finishPass, apply_ite (withChunk n)]
  rfl

theorem raise_withChunk (e : ErrCode) (info : Word) (n : Nat) (s : State) :
    raise e info (withChunk n s) = withChunk n (raise e info s) := by
  rw [raise, raise, apply_ite (withChunk n)]
  rfl

theorem readRow_withChunk (row : BitVec 15) (n : Nat) (s : State) : readRow row (withChunk n s) =
    ((readRow row s).1, withChunk n (readRow row s).2) := by
  cases h : s.answers with
  | nil => rw [readRow_memory h, readRow_memory (s := withChunk n s) h]; rfl
  | cons a rest =>
    cases a with
    | memory => rw [readRow_of_memory h, readRow_of_memory (s := withChunk n s) h]; rfl
    | supplied buf => rw [readRow_of_supplied h, readRow_of_supplied (s := withChunk n s) h]; rfl
    | ioError => rw [readRow_of_ioError h, readRow_of_ioError (s := withChunk n s) h]; rfl

theorem decodeRows_withChunk (k n : Nat) (s : State) :
    decodeRows k (withChunk n s) = withChunk n (decodeRows k s) := by
  induction k generalizing s with
  | zero => exact finishPass_withChunk n s
  | succ k ih =>
    by_cases hn : s.dec.linesDone = s.dec.linesTotal
    · rw [decodeRows_of_done hn, decodeRows_of_done (s := withChunk n s) hn, finishPass_withChunk]
    · have hread := readRow_withChunk (currentRow s) n s
      cases hr : readRow (currentRow s) s with
      | mk answer t =>
        rw [hr] at hread
        cases answer with
        | none =>
          rw [decodeRows_of_failed hn hr, decodeRows_of_failed (s := withChunk n s) hn hread, ← raise_withChunk]
          rfl
        | some buf =>
          rw [decodeRows_succ hn hr, decodeRows_succ (s := withChunk n s) hn hread, ← ih]
          exact congrArg (decodeRows k) (rowDone_withChunk buf n t)

/-! ## A DEC.STEP of more rows -/

/-- The rows decoded go on: no error, and the pass not at its end. -/
def GoesOn (s : State) : Prop := s.errs.pending = false ∧ s.dec.phase = .ready

theorem GoesOn.rowDone {s t : State} {row : BitVec 15} {buf : List Byte} (h : GoesOn s)
    (hr : readRow row s = (some buf, t)) : GoesOn (rowDone (decodeRow buf (rowEvents t) t)) := by
  obtain ⟨rest, ht, -⟩ := readRow_cases row s
  rw [hr] at ht
  obtain rfl : t = _ := ht
  obtain ⟨iter, d, out, e, hphase, -⟩ :=
    decodeRow_onlyPass buf (rowEvents { s with answers := rest }) { s with answers := rest }
  rw [e]
  exact ⟨h.1, hphase.trans h.2⟩

/-- A pass at its end does not go on. -/
theorem not_goesOn_finishPass {s : State} (h : s.dec.linesDone = s.dec.linesTotal) :
    ¬ GoesOn (finishPass s) := by
  rw [finishPass, if_pos h]
  exact fun hg => by cases hg.2

/-- R250: the rows of a DEC.STEP, cut in two. -/
theorem decodeRows_add (a b : Nat) {s : State} (h : GoesOn s) :
    (GoesOn (decodeRows a s) → decodeRows (a + b) s = decodeRows b (decodeRows a s)) ∧
      (¬ GoesOn (decodeRows a s) → decodeRows (a + b) s = decodeRows a s) := by
  induction a generalizing s with
  | zero =>
    rw [Nat.zero_add, decodeRows]
    by_cases hn : s.dec.linesDone = s.dec.linesTotal
    · exact ⟨fun hg => absurd hg (not_goesOn_finishPass hn), fun _ => decodeRows_of_done hn⟩
    · rw [finishPass, if_neg hn]
      exact ⟨fun _ => rfl, fun hg => absurd h hg⟩
  | succ a ih =>
    rw [Nat.add_right_comm]
    by_cases hn : s.dec.linesDone = s.dec.linesTotal
    · rw [decodeRows_of_done hn, decodeRows_of_done hn]
      exact ⟨fun hg => absurd hg (not_goesOn_finishPass hn), fun _ => rfl⟩
    · cases hr : readRow (currentRow s) s with
      | mk answer t =>
        cases answer with
        | none =>
          obtain ⟨rest, ht, -⟩ := readRow_cases (currentRow s) s
          rw [hr] at ht
          obtain rfl : t = _ := ht
          have he : ({ s with answers := rest } : State).errs.pending = false := h.1
          rw [decodeRows_of_failed hn hr, decodeRows_of_failed hn hr, raise_of_none he]
          exact ⟨fun hg => (by cases hg.1), fun _ => rfl⟩
        | some buf =>
          rw [decodeRows_succ hn hr, decodeRows_succ hn hr]
          exact ih (h.rowDone hr)

theorem exec_decStep_withChunk (n : Nat) {s : State} (h : GoesOn s) :
    exec .decStep (withChunk n s) = .next (withChunk n (decodeRows n s)) := by
  rw [← decodeRows_withChunk]
  exact exec_decStep (s := withChunk n s) h.1 h.2

/-- Settles O49: the rows of a chunk cut in two, none of which reads the chunk size. -/
theorem chunkSizeDoesNotShow : Obligations.ChunkSizeDoesNotShow := by
  intro s a b n he hp
  have h : GoesOn s := ⟨he, hp⟩
  refine ⟨_, _, exec_decStep_withChunk (a + b) h, exec_decStep_withChunk a h, ?_⟩
  obtain ⟨hon, hend⟩ := decodeRows_add a b h
  split
  next hg =>
    have hg' : GoesOn (decodeRows a s) := hg
    refine ⟨_, exec_decStep_withChunk b (s := withChunk a (decodeRows a s)) hg, ?_⟩
    rw [hon hg', decodeRows_withChunk]
    rfl
  next hg =>
    rw [hend hg]
    rfl

end Sys2Proof.Machine
end

section
/-! The count of a completed pass (44_decoder.md R249). -/

namespace Sys2Proof.Machine

/-! ## Samples, gaps and events of a list of records -/

/-- The events the records are used for. -/
def eventSum (l : List (ClusterRecord × Nat)) : Nat := (l.map (·.2)).sum

theorem eventSum_append (l l' : List (ClusterRecord × Nat)) :
    eventSum (l ++ l') = eventSum l + eventSum l' := by
  simp only [eventSum, List.map_append, List.sum_append]

/-- The timestamp expected after the records, R243. -/
def lastExpected (expected : Option Half) (l : List (ClusterRecord × Nat)) : Option Half :=
  l.foldl (fun _ x => some (x.1.ts + 7)) expected

theorem lastExpected_append (expected : Option Half) (l l' : List (ClusterRecord × Nat)) :
    lastExpected expected (l ++ l') = lastExpected (lastExpected expected l) l' := List.foldl_append ..

theorem gapSum_append (expected : Option Half) (l l' : List (ClusterRecord × Nat)) :
    gapSum expected (l ++ l') = gapSum expected l + gapSum (lastExpected expected l) l' := by
  induction l generalizing expected with
  | nil => exact (Nat.zero_add _).symm
  | cons x rest ih =>
    rw [List.cons_append, gapSum, gapSum, ih, Nat.add_assoc]
    rfl

/-- A gap is less than 2^16. -/
theorem gapSum_le (expected : Option Half) (l : List (ClusterRecord × Nat)) :
    gapSum expected l ≤ 65535 * l.length := by
  induction l generalizing expected with
  | nil => exact Nat.zero_le _
  | cons x rest ih =>
    have hgap := (x.1.ts - expected.getD x.1.ts).isLt
    have hrest := ih (some (x.1.ts + 7))
    rw [gapSum, List.length_cons]
    omega

/-- From `s` to `t` the samples of the records are counted, R242 and R243. -/
structure Sampled (l : List (ClusterRecord × Nat)) (s t : State) : Prop where
  count : t.dec.samplesOut = s.dec.samplesOut +
    BitVec.ofNat 64 ((gapSum (expectedTs s) l + eventSum l) * 2 ^ s.config.toNat)
  expected : expectedTs t = lastExpected (expectedTs s) l
  tier : t.config = s.config

theorem Sampled.nil (s : State) : Sampled [] s s := ⟨by simp [gapSum, eventSum], rfl, rfl⟩

theorem Sampled.trans {l l' : List (ClusterRecord × Nat)} {s t u : State} (h : Sampled l s t)
    (h' : Sampled l' t u) : Sampled (l ++ l') s u where
  count := by
    have hsum : gapSum (expectedTs s) (l ++ l') + eventSum (l ++ l') =
        gapSum (expectedTs s) l + eventSum l + (gapSum (expectedTs t) l' + eventSum l') := by
      rw [gapSum_append, eventSum_append, h.expected]
      omega
    rw [h'.count, h.count, h.tier, hsum,
      Nat.add_mul (gapSum (expectedTs s) l + eventSum l), BitVec.ofNat_add, BitVec.add_assoc]
  expected := by rw [h'.expected, h.expected, lastExpected_append]
  tier := h'.tier.trans h.tier

theorem runRecord_sampled (r : ClusterRecord) {m : Nat} (hm : m ≤ 7) (s : State) :
    Sampled [(r, m)] s (runRecord r m s) where
  count := by
    obtain ⟨-, -, h⟩ := runRecord_grows r hm s
    exact h
  expected := by
    obtain ⟨hts, hvalid⟩ := runRecord_ts r m s
    rw [expectedTs, hvalid, hts]
    rfl
  tier := by
    obtain ⟨iter, d, out, h, -⟩ := runRecord_onlyPass r m s
    rw [h]

theorem decodeClusters_sampled (buf : List Byte) (fuel c n : Nat) (s : State) (h : n ≤ 7 * fuel) :
    Sampled (clusterRecords buf c n) s (decodeClusters buf fuel c n s) := by
  induction fuel generalizing c n s with
  | zero =>
    obtain rfl : n = 0 := by omega
    exact .nil s
  | succ fuel ih =>
    by_cases h0 : n = 0
    · rw [h0, decodeClusters_zero]
      exact .nil s
    · rw [decodeClusters_of_pos buf fuel c h0, clusterRecords_of_pos buf c h0]
      exact (runRecord_sampled _ (Nat.min_le_left _ _) s).trans (ih (c + 1) _ _ (by omega))

theorem decodedRow_sampled (buf : List Byte) (s : State) :
    Sampled (rowRecords buf (rowEvents s)) s (rowDone (decodeRow buf (rowEvents s) s)) := by
  have h := decodeClusters_sampled buf 64 0 (rowEvents s) s (rowEvents_le_row s)
  rw [← rowRecords_eq] at h
  exact ⟨h.count, h.expected, h.tier⟩

/-! ## The rows of a pass -/

theorem RowCursor.linesDone_lt {s : State} (h : RowCursor s) (hn : s.dec.linesDone ≠ s.dec.linesTotal) :
    s.dec.linesDone.toNat < s.dec.linesTotal.toNat :=
  Nat.lt_of_le_of_ne h.lines_bound fun e => hn (BitVec.eq_of_toNat_eq e)

theorem RowCursor.linesDone_succ_toNat {s : State} (h : RowCursor s)
    (hn : s.dec.linesDone ≠ s.dec.linesTotal) : (s.dec.linesDone + 1).toNat = s.dec.linesDone.toNat + 1 := by
  have hlt := h.linesDone_lt hn
  have hle := h.total_le
  rw [BitVec.toNat_add]
  simp only [BitVec.ofNat_eq_ofNat, BitVec.toNat_ofNat, Nat.reducePow, Nat.reduceMod]
  omega

/-- R235, R238: the row at the cursor is the row of that number of the pass. -/
theorem RowCursor.passRow_eq {s : State} (h : RowCursor s) (hn : s.dec.linesDone ≠ s.dec.linesTotal) :
    passRow s s.dec.linesDone.toNat = rowRecords (s.mem.row (currentRow s)) (rowEvents s) := by
  have hrow : BitVec.ofNat 15 s.dec.linesDone.toNat = s.dec.linesDone.setWidth 15 :=
    BitVec.eq_of_toNat_eq (by rw [BitVec.toNat_ofNat, BitVec.toNat_setWidth])
  have hlast : s.dec.linesDone.toNat + 1 = s.dec.linesTotal.toNat ↔
      s.dec.linesDone + 1 = s.dec.linesTotal := by
    rw [← BitVec.toNat_inj, h.linesDone_succ_toNat hn]
  rw [passRow, rowEvents_eq, currentRow, hrow]
  simp only [hlast]

/-- What the rows of a pass are read from. -/
def SamePass (s t : State) : Prop :=
  t.mem = s.mem ∧ t.locs.start = s.locs.start ∧ t.locs.stop = s.locs.stop ∧ t.capstat = s.capstat ∧
    t.dec.linesTotal = s.dec.linesTotal

theorem SamePass.wrapped {s t : State} (h : SamePass s t) : wrapped t = wrapped s := by
  obtain ⟨-, -, -, hc, -⟩ := h
  exact congrArg (·.getLsbD 0) hc

theorem SamePass.passRow {s t : State} (h : SamePass s t) : passRow t = passRow s := by
  have hw := h.wrapped
  obtain ⟨hm, hs, ht, -, hl⟩ := h
  funext i
  simp only [Machine.passRow, hw, hm, hs, ht, hl]

theorem SamePass.passEnd {s t : State} (h : SamePass s t) : passEnd t = passEnd s := by
  have hw := h.wrapped
  obtain ⟨-, -, ht, -⟩ := h
  simp only [Machine.passEnd, hw, ht]

/-- What one decoded row leaves as it was. -/
theorem rowDone_frame (buf : List Byte) (s : State) :
    let t := rowDone (decodeRow buf (rowEvents s) s)
    SamePass s t ∧ t.answers = s.answers ∧ t.errs = s.errs ∧ t.dec.linesDone = s.dec.linesDone + 1 := by
  obtain ⟨iter, d, out, h, -, -, hdone, htotal⟩ := decodeRow_onlyPass buf (rowEvents s) s
  rw [h]
  exact ⟨⟨rfl, rfl, rfl, rfl, htotal⟩, rfl, rfl, congrArg (· + 1) hdone⟩

/-- A DEC.STEP that may decode all rows that are left, over a memory that answers every read. -/
theorem decodeRows_sampled (k n : Nat) {s : State} (h : RowCursor s) (ha : s.answers = [])
    (hk : s.dec.linesDone.toNat + k = s.dec.linesTotal.toNat) (hn : k ≤ n) :
    ∃ t, decodeRows n s = finishPass t ∧ RowCursor t ∧ t.dec.linesDone = t.dec.linesTotal ∧
      Sampled ((List.range' s.dec.linesDone.toNat k).flatMap (passRow s)) s t ∧ SamePass s t ∧
      t.errs = s.errs := by
  induction k generalizing n s with
  | zero =>
    have hend : s.dec.linesDone = s.dec.linesTotal := BitVec.eq_of_toNat_eq hk
    exact ⟨s, decodeRows_of_done hend, h, hend, .nil s, ⟨rfl, rfl, rfl, rfl, rfl⟩, rfl⟩
  | succ k ih =>
    obtain ⟨n, rfl⟩ := Nat.exists_eq_add_one_of_ne_zero (Nat.ne_zero_of_lt hn)
    have hmore : s.dec.linesDone ≠ s.dec.linesTotal := fun e => by
      rw [e] at hk
      omega
    have hsame : { s with answers := [] } = s := by rw [← ha]
    have hrow := h.rowDone hmore (s.mem.row (currentRow s)) []
    rw [show rowEvents s = rowEvents { s with answers := [] } from rfl, hsame] at hrow
    obtain ⟨hpass, hans, herrs, hdone⟩ := rowDone_frame (s.mem.row (currentRow s)) s
    have hcount := h.linesDone_succ_toNat hmore
    have hfirst := decodedRow_sampled (s.mem.row (currentRow s)) s
    rw [← h.passRow_eq hmore] at hfirst
    generalize hq : rowDone (decodeRow (s.mem.row (currentRow s)) (rowEvents s) s) = q at *
    have hqdone : q.dec.linesDone.toNat = s.dec.linesDone.toNat + 1 := by rw [hdone, hcount]
    obtain ⟨t, ht, hcur, hend, hsampled, hpass', herrs'⟩ := ih n hrow (hans.trans ha)
      (by rw [hqdone, hpass.2.2.2.2]; omega) (by omega)
    refine ⟨t, ?_, hcur, hend, ?_, ?_, herrs'.trans herrs⟩
    · rw [decodeRows_succ hmore (readRow_memory ha _), hq, ht]
    · rw [List.range'_succ, List.flatMap_cons]
      rw [hpass.passRow, hqdone] at hsampled
      exact hfirst.trans hsampled
    · obtain ⟨h1, h2, h3, h4, h5⟩ := hpass
      obtain ⟨h1', h2', h3', h4', h5'⟩ := hpass'
      exact ⟨h1'.trans h1, h2'.trans h2, h3'.trans h3, h4'.trans h4, h5'.trans h5⟩

/-! ## The whole pass -/

theorem setupPass_rowCursor {s : State} (h : s.locs.stop.legal) : RowCursor (setupPass s) where
  stop_legal := h
  lines_bound := Nat.zero_le _
  start_eq := rfl
  total_eq := rfl
  phase_eq := rfl
  cursor := by
    obtain ⟨hne, hiter⟩ := setupPass_ready_cursor s
    rw [if_neg hne, hiter]

/-- The events of row `i` of a pass. -/
def passRowEvents (s : State) (i : Nat) : Nat :=
  if wrapped s = false ∧ i + 1 = s.dec.linesTotal.toNat then s.locs.stop.evIndex else 448

theorem eventSum_clusterRecords (buf : List Byte) (fuel c n : Nat) (h : n ≤ 7 * fuel) :
    eventSum (clusterRecords buf c n) = n := by
  induction fuel generalizing c n with
  | zero =>
    obtain rfl : n = 0 := by omega
    rfl
  | succ fuel ih =>
    by_cases h0 : n = 0
    · rw [h0]
      rfl
    · have hrest := ih (c + 1) (n - min 7 n) (by omega)
      rw [clusterRecords_of_pos buf c h0]
      show min 7 n + eventSum (clusterRecords buf (c + 1) (n - min 7 n)) = n
      omega

theorem eventSum_passRow (s : State) (i : Nat) : eventSum (passRow s i) = passRowEvents s i := by
  rw [passRow, rowRecords_eq]
  exact eventSum_clusterRecords _ _ 0 _ (Nat.le_mul_of_pos_left _ (by omega))

theorem eventSum_flatMap_range (f : Nat → List (ClusterRecord × Nat)) (n : Nat) {k : Nat}
    (h : ∀ i < k, eventSum (f i) = n) : eventSum ((List.range k).flatMap f) = k * n := by
  induction k with
  | zero => exact (Nat.zero_mul n).symm
  | succ k ih =>
    rw [List.range_succ, List.flatMap_append, eventSum_append, ih fun i hi => h i (Nat.lt_succ_of_lt hi),
      List.flatMap_singleton, h k (Nat.lt_succ_self k), Nat.succ_mul]

/-- R249: the events between the two ends of the pass. -/
theorem eventSum_passRecords (s : State) : eventSum (passRecords (setupPass s)) = passEvents s := by
  have htotal : (setupPass s).dec.linesTotal.toNat = _ := passLines_toNat s
  have hwrapped : wrapped (setupPass s) = wrapped s := rfl
  rw [passRecords, htotal, passEvents]
  split
  next hw =>
    refine eventSum_flatMap_range _ 448 fun i _ => ?_
    rw [eventSum_passRow, passRowEvents, hwrapped, hw]
    exact if_neg fun hc => nomatch hc.1
  next hw =>
    rw [if_neg hw] at htotal
    have hw' : wrapped s = false := Bool.not_eq_true _ ▸ hw
    have hfull : ∀ i < s.locs.stop.row.toNat, eventSum (passRow (setupPass s) i) = 448 := fun i hi => by
      rw [eventSum_passRow, passRowEvents, htotal]
      exact if_neg fun hc => absurd hc.2 (by omega)
    have hlast : eventSum (passRow (setupPass s) s.locs.stop.row.toNat) = s.locs.stop.evIndex := by
      rw [eventSum_passRow, passRowEvents, htotal, hwrapped]
      exact if_pos ⟨hw', rfl⟩
    rw [List.range_succ, List.flatMap_append, eventSum_append, eventSum_flatMap_range _ 448 hfull,
      List.flatMap_singleton, hlast]
    rfl

/-- A row has at most 64 records. -/
theorem passRow_length_le (s : State) (i : Nat) : (passRow s i).length ≤ 64 := by
  have hc := s.locs.stop.cluster.isLt
  have he := s.locs.stop.event.isLt
  simp only [passRow, rowRecords, List.length_map, List.length_range, evIndex_eq]
  split <;> omega

theorem length_flatMap_range_le (f : Nat → List (ClusterRecord × Nat)) {n : Nat}
    (h : ∀ i, (f i).length ≤ n) (k : Nat) : ((List.range k).flatMap f).length ≤ k * n := by
  induction k with
  | zero => exact Nat.zero_le _
  | succ k ih =>
    rw [List.range_succ, List.flatMap_append, List.length_append, List.flatMap_singleton, Nat.succ_mul]
    exact Nat.add_le_add ih (h k)

/-- `SAMPLES_OUT` does not overflow. -/
theorem passSamples_lt (s : State) :
    (passEvents s + gapSum none (passRecords (setupPass s))) * 2 ^ s.config.toNat < 2 ^ 64 := by
  have hrow := s.locs.stop.row.isLt
  have hcluster := s.locs.stop.cluster.isLt
  have hevent := s.locs.stop.event.isLt
  have htotal : (setupPass s).dec.linesTotal.toNat ≤ 32768 := by
    refine (passLines_toNat s).trans_le ?_
    split <;> omega
  have hlen := length_flatMap_range_le _ (passRow_length_le (setupPass s))
    (setupPass s).dec.linesTotal.toNat
  have hgaps := gapSum_le none (passRecords (setupPass s))
  have hevents : passEvents s ≤ 32768 * 448 := by
    simp only [passEvents, evIndex_eq, Config.rows, Config.eventsPerRow]
    split <;> omega
  have hbound : passEvents s + gapSum none (passRecords (setupPass s)) ≤ 2 ^ 60 := by
    simp only [passRecords] at hgaps ⊢
    omega
  have htier : 2 ^ s.config.toNat ≤ 8 := Nat.pow_le_pow_right (by omega) (Nat.le_of_lt_succ s.config.isLt)
  calc _ ≤ 2 ^ 60 * 8 := Nat.mul_le_mul hbound htier
    _ < 2 ^ 64 := by norm_num

/-- Settles O50: the rows of the pass one after the other count its records, and nothing overflows. -/
theorem completedPassHasTheSampleCount : Obligations.CompletedPassHasTheSampleCount := by
  intro s p he hp hstop ha hsetup hchunk
  rw [exec_decSetup he hp] at hsetup
  obtain rfl : setupPass s = p := by injection hsetup
  obtain ⟨t, ht, hcur, hend, hsampled, hpass, herrs⟩ := decodeRows_sampled
    (setupPass s).dec.linesTotal.toNat (setupPass s).params.fetchChunkRows (setupPass_rowCursor hstop) ha
    (Nat.zero_add _) hchunk
  have hdone : finishPass t = { t with dec := { t.dec with phase := .done } } := if_pos hend
  refine ⟨{ t with dec := { t.dec with phase := .done } }, ?_, rfl, ?_, ?_, ?_, hend⟩
  · rw [exec_decStep (s := setupPass s) he rfl, ht, hdone]
  · show t.errs.pending = false
    rw [herrs]
    exact he
  · have hcount := hsampled.count
    have hrows : (List.range' (setupPass s).dec.linesDone.toNat
        (setupPass s).dec.linesTotal.toNat).flatMap (passRow (setupPass s)) = passRecords (setupPass s) := by
      rw [passRecords, List.range_eq_range']
      rfl
    have hstart : (setupPass s).dec.samplesOut = 0#64 := rfl
    have hexpected : expectedTs (setupPass s) = none := rfl
    have htier : (setupPass s).config = s.config := rfl
    rw [hrows, hstart, hexpected, htier, eventSum_passRecords, BitVec.zero_add, Nat.add_comm] at hcount
    show t.dec.samplesOut.toNat = _
    rw [hcount, BitVec.toNat_ofNat, Nat.mod_eq_of_lt (passSamples_lt s)]
  · show t.locs.iter = passEnd s
    rw [hcur.cursor, if_pos hend, hpass.passEnd]
    rfl

end Sys2Proof.Machine
end
